-- ==== Sys2Proof/Word.lean ====
section
/-!
DEFINITION. The word types of the block (00_scope.md rules R13 and R14): bytes, the 16-bit event word, the 40-bit data
word, the 5-byte payload and the 6-byte frame. Functions on them stand in Machine/Bits.lean.
-/

namespace Sys2Proof

/-- An unsigned 8-bit value (R13). -/
abbrev Byte := BitVec 8

/-- The event word `w` of R69. -/
abbrev EventWord := BitVec 16

/-- The 40-bit data word `D` of R14. -/
abbrev DataWord := BitVec 40

/-- A line of text, or a part of one, as its characters in order (R73, R103). -/
abbrev Text := List Char

/-- Bytes 0 to 4 of a frame, `b0` first on the wire (R17, R41). -/
structure Payload where
  b0 : Byte
  b1 : Byte
  b2 : Byte
  b3 : Byte
  b4 : Byte
  deriving DecidableEq, Repr

/-- A frame is exactly 6 bytes: the payload and byte 5, the checksum byte (R41, R58). The checksum byte is whatever the
frame carries, right or wrong. -/
structure Frame where
  payload : Payload
  checksum : Byte
  deriving DecidableEq, Repr

end Sys2Proof
end

