-- ==== Sys2Proof/Config.lean ====
section
/-!
DEFINITION. The implementation parameters of 00_scope.md rules R7 to R12, as types that hold every legal value. Their
values are held in State and latched by RESET (R36, R133); the default values stand in Machine/Defaults.lean. The spec
leaves no result value of an instruction undefined, so there is no opaque free value here.
-/

namespace Sys2Proof

/-- `REPLY_E_BYTE`: exactly one of the two values is in force (R9). -/
inductive ReplyEByte where
  /-- 0xE0, the default. -/
  | e0
  /-- 0xE2, the alternate. -/
  | e2
  deriving DecidableEq, Repr

/-- The reply payload of a row of `REPLY_TABLE`. `primary` is `D1 21 REPLY_E_BYTE 00 00` (R10), the only place where
`REPLY_E_BYTE` enters; every other payload is `literal`, a 40-bit value in data-word order. -/
inductive ReplyPayload where
  | literal (q : DataWord)
  | primary
  deriving DecidableEq, Repr

/-- A row (pattern P, mask M, reply payload Q) of `REPLY_TABLE` (R67). -/
structure ReplyRow where
  pattern : DataWord
  mask : DataWord
  reply : ReplyPayload
  deriving DecidableEq, Repr

/-- `REPLY_TABLE` (R10, R67): the rows before the last, in table order, and the reply of the last row. The last row's
mask is 0 in every legal table, so that its pattern matches any payload and is not kept (log entry 12). -/
structure ReplyTable where
  rows : List ReplyRow
  lastReply : ReplyPayload
  deriving DecidableEq, Repr

/-- A duration in seconds, a real number (R7, R36), as plain data: a rational, or an irrational by its floor and by which
of the model's names, a sequence of real numbers that nothing fixes, has its fractional part (log entry 23). -/
inductive Seconds where
  | rational (q : Rat)
  | irrational (floor : Int) (name : Nat)
  deriving DecidableEq, Repr

/-- `d` is the real number `x`, the names standing for `names` (log entry 23). A constructor `irrational` stands for
nothing but an irrational number. -/
def Seconds.Denotes (names : Nat → ℝ) (d : Seconds) (x : ℝ) : Prop :=
  match d with
  | .rational q => x = q
  | .irrational n k => Irrational (names k) ∧ x = n + Int.fract (names k)

/-- The parameters of a REPLICA instance (R135 items 3 and 4). No rule reads `rxTimeoutT` (R8). -/
structure ReplicaParams where
  rxTimeoutT : Seconds
  replyEByte : ReplyEByte
  replyTable : ReplyTable
  replyOnBadChecksum : Bool
  deriving DecidableEq, Repr

/-- The parameters of a MASTER instance (R135 items 2, 3 and 5). No rule reads `periodN` or `rxTimeoutT` (R7, R8). -/
structure MasterParams where
  periodN : Seconds
  rxTimeoutT : Seconds
  masterConfigBit : BitVec 1
  deriving DecidableEq, Repr

end Sys2Proof
end

