-- ==== Sys2Proof/Syntax.lean ====
section
/-!
DEFINITION. The operand types of the instructions and the one inductive Instr: one constructor per mnemonic of
spec/opcode_table.json.
-/

namespace Sys2Proof

/-- The two kinds of engine instance (10_state.md rule R18). -/
inductive Engine where
  | replica
  | master
  deriving DecidableEq, Repr

/-- The agents that take steps (R18). -/
inductive Agent where
  | replica
  | masterTick
  | masterEdit
  deriving DecidableEq, Repr

/-- REPLICA's control state `r_phase` (R27). -/
inductive RPhase where
  | intake
  | process
  | echo
  /-- The sticky logic-fault stop (R35, R95). -/
  | halted
  deriving DecidableEq, Repr

/-- MASTER.TICK's control state `m_phase` (R24). -/
inductive MPhase where
  | idle
  | resp
  deriving DecidableEq, Repr

/-- Where an event word is offered: at an agent, in the phase that agent is in (R70). MASTER.EDIT has no phase. -/
inductive Port where
  | replica (ph : RPhase)
  | tick (ph : MPhase)
  | edit
  deriving DecidableEq, Repr

/-- A Settings value: nine fields, each held as its wire code (R20). Codes that R20 calls not legal are representable,
so that rule R97's abort has a meaning; `Settings.legal` in Safety.lean excludes them. -/
structure Settings where
  mode : BitVec 3
  resistorHeating : BitVec 1
  running : BitVec 1
  roomTemperature : Byte
  plasma : BitVec 1
  fanSpeed : BitVec 3
  setTemperature : BitVec 4
  swivel : BitVec 1
  swirl : BitVec 1
  deriving DecidableEq, Repr

/-- The field record that ENCODE takes: eleven natural numbers in layout order (R77). -/
structure Fields where
  config : Nat
  mode : Nat
  resistorHeating : Nat
  running : Nat
  changed : Nat
  rawRoomTemperature : Nat
  plasma : Nat
  fanSpeed : Nat
  rawSetTemperature : Nat
  swivel : Nat
  swirl : Nat
  deriving DecidableEq, Repr

/-- The eleven field names that FieldOutOfRange can carry (R77, R110). -/
inductive FieldName where
  | config
  | mode
  | resistorHeating
  | running
  | changed
  | rawRoomTemperature
  | plasma
  | fanSpeed
  | rawSetTemperature
  | swivel
  | swirl
  deriving DecidableEq, Repr

/-- The names DECODE gives a mode code (R61, R64). -/
inductive ModeName where
  | cool
  | dh
  | fan
  | auto
  | heat
  | unrecognized
  deriving DecidableEq, Repr

/-- The names DECODE gives a fan_speed code (R62, R64). -/
inductive FanName where
  | low
  | medium
  | high
  | power
  | unrecognized
  deriving DecidableEq, Repr

/-- What DECODE returns for a frame with a right checksum (R78): every field, the names, the temperatures in °C as
exact numbers (R15), the reserved fields as found, and the checksum byte. -/
structure DecodedFrame where
  data : DataWord
  config : BitVec 1
  modeRaw : BitVec 3
  mode : ModeName
  resistorHeating : BitVec 1
  running : BitVec 1
  unknown1 : BitVec 1
  changed : BitVec 1
  rawRoomTemperature : Byte
  roomTemperatureC : Rat
  plasma : BitVec 1
  fanSpeedRaw : BitVec 3
  fanSpeed : FanName
  rawSetTemperature : BitVec 4
  setTemperatureC : Int
  unknown3 : BitVec 2
  swivel : BitVec 1
  unknown4 : BitVec 5
  unknown5 : BitVec 7
  swirl : BitVec 1
  checksum : Byte
  deriving DecidableEq, Repr

/-- The reason codes of EDIT_REJECT and USER_INPUT_ERROR: 1, 2 and 3 (R70, R110). -/
inductive RejectReason where
  | noEquals
  | unknownAttribute
  | badValue
  deriving DecidableEq, Repr

/-- The nine Settings fields that an edit can name, in the order of their field ids 0 to 8 (R71). -/
inductive EditField where
  | mode
  | resistorHeating
  | running
  | roomTemperature
  | plasma
  | fanSpeed
  | setTemperature
  | swivel
  | swirl
  deriving DecidableEq, Repr

/-- One constructor per mnemonic of spec/opcode_table.json. The first group are stand-alone calls of pure functions
(R19, R91, R103), the rest are the steps of the agents (R18) and RESET (R133). -/
inductive Instr where
  /-- CHECKSUM of a payload (R76). -/
  | checksum (p : Payload)
  /-- ENCODE of a field record (R77). -/
  | encode (f : Fields)
  /-- DECODE of a byte sequence of any length (R78). -/
  | decode (x : List Byte)
  /-- ROOM_TEMP_DECODE of an 8-bit code (R79). -/
  | roomTempDecode (r : Byte)
  /-- SET_TEMP_DECODE of a 4-bit code (R80). -/
  | setTempDecode (r : BitVec 4)
  /-- ROOM_TEMP_ENCODE of a rational in °C (R81). -/
  | roomTempEncode (t : Rat)
  /-- SET_TEMP_ENCODE of a rational in °C (R82). -/
  | setTempEncode (t : Rat)
  /-- SETTINGS_ENCODE of a Settings value and a changed bit (R83). -/
  | settingsEncode (v : Settings) (c : BitVec 1)
  /-- FIELDS_TO_SETTINGS of a DecodedFrame (R84). -/
  | fieldsToSettings (d : DecodedFrame)
  /-- SELECT_REPLY.row1: SELECT_REPLY of the row-1 payload 94 00 00 00 00 (R67, R91). -/
  | selectReplyRow1
  /-- SELECT_REPLY.row2: SELECT_REPLY of any other payload (R67, R91). -/
  | selectReplyRow2 (x : Payload)
  /-- R_RX_BYTE: take one byte into the intake buffer (R88). -/
  | rRxByte (b : Byte)
  /-- R_RX_TIMEOUT: resynchronise (R89). -/
  | rRxTimeout
  /-- INTAKE_OVERFLOW: the logic-fault stop of the intake (R90); it has no event word. -/
  | intakeOverflow
  /-- R_PROCESS: decode and act, then write the reply (R92). -/
  | rProcess
  /-- R_ECHO_BYTE: take one echo byte, and check the echo at 6 bytes (R93). -/
  | rEchoByte (b : Byte)
  /-- R_ECHO_TIMEOUT: a timeout during the echo read (R94). -/
  | rEchoTimeout
  /-- M_TICK: one bus tick (R97). -/
  | mTick
  /-- M_RESP_BYTE: take one byte of the 12-byte response (R98). -/
  | mRespByte (b : Byte)
  /-- M_RESP_TIMEOUT: end a short response read (R99). -/
  | mRespTimeout
  /-- M_EDIT with FID 0 (R71, R101). -/
  | mEditMode (v : Byte)
  /-- M_EDIT with FID 1 (R71, R101). -/
  | mEditResistorHeating (v : Byte)
  /-- M_EDIT with FID 2 (R71, R101). -/
  | mEditRunning (v : Byte)
  /-- M_EDIT with FID 3 (R71, R101). -/
  | mEditRoomTemperature (v : Byte)
  /-- M_EDIT with FID 4 (R71, R101). -/
  | mEditPlasma (v : Byte)
  /-- M_EDIT with FID 5 (R71, R101). -/
  | mEditFanSpeed (v : Byte)
  /-- M_EDIT with FID 6 (R71, R101). -/
  | mEditSetTemperature (v : Byte)
  /-- M_EDIT with FID 7 (R71, R101). -/
  | mEditSwivel (v : Byte)
  /-- M_EDIT with FID 8 (R71, R101). -/
  | mEditSwirl (v : Byte)
  /-- M_EDIT with FID 9 to 15 (R71, R101); three rows of the table. -/
  | mEditUnknownFid (fid : BitVec 4) (v : Byte)
  /-- M_EDIT_REJECT with reason 1 (R102). -/
  | mEditRejectNoEquals
  /-- M_EDIT_REJECT with reason 2 (R102). -/
  | mEditRejectUnknownAttribute
  /-- M_EDIT_REJECT with reason 3 (R102). -/
  | mEditRejectBadValue
  /-- PARSE_EDIT_LINE of a console line (R103). -/
  | parseEditLine (l : Text)
  /-- RESET of an engine instance (R133). -/
  | reset (e : Engine)
  deriving DecidableEq, Repr

/-- The call instructions: pure functions that no event word selects. -/
def Instr.isCall : Instr → Bool
  | .checksum _ => true
  | .encode _ => true
  | .decode _ => true
  | .roomTempDecode _ => true
  | .setTempDecode _ => true
  | .roomTempEncode _ => true
  | .setTempEncode _ => true
  | .settingsEncode _ _ => true
  | .fieldsToSettings _ => true
  | .selectReplyRow1 => true
  | .selectReplyRow2 _ => true
  | .rRxByte _ => false
  | .rRxTimeout => false
  | .intakeOverflow => false
  | .rProcess => false
  | .rEchoByte _ => false
  | .rEchoTimeout => false
  | .mTick => false
  | .mRespByte _ => false
  | .mRespTimeout => false
  | .mEditMode _ => false
  | .mEditResistorHeating _ => false
  | .mEditRunning _ => false
  | .mEditRoomTemperature _ => false
  | .mEditPlasma _ => false
  | .mEditFanSpeed _ => false
  | .mEditSetTemperature _ => false
  | .mEditSwivel _ => false
  | .mEditSwirl _ => false
  | .mEditUnknownFid _ _ => false
  | .mEditRejectNoEquals => false
  | .mEditRejectUnknownAttribute => false
  | .mEditRejectBadValue => false
  | .parseEditLine _ => true
  | .reset _ => false

/-- The engine whose event an instruction consumes; none for a call. -/
def Instr.engine : Instr → Option Engine
  | .checksum _ => none
  | .encode _ => none
  | .decode _ => none
  | .roomTempDecode _ => none
  | .setTempDecode _ => none
  | .roomTempEncode _ => none
  | .setTempEncode _ => none
  | .settingsEncode _ _ => none
  | .fieldsToSettings _ => none
  | .selectReplyRow1 => none
  | .selectReplyRow2 _ => none
  | .rRxByte _ => some .replica
  | .rRxTimeout => some .replica
  | .intakeOverflow => some .replica
  | .rProcess => some .replica
  | .rEchoByte _ => some .replica
  | .rEchoTimeout => some .replica
  | .mTick => some .master
  | .mRespByte _ => some .master
  | .mRespTimeout => some .master
  | .mEditMode _ => some .master
  | .mEditResistorHeating _ => some .master
  | .mEditRunning _ => some .master
  | .mEditRoomTemperature _ => some .master
  | .mEditPlasma _ => some .master
  | .mEditFanSpeed _ => some .master
  | .mEditSetTemperature _ => some .master
  | .mEditSwivel _ => some .master
  | .mEditSwirl _ => some .master
  | .mEditUnknownFid _ _ => some .master
  | .mEditRejectNoEquals => some .master
  | .mEditRejectUnknownAttribute => some .master
  | .mEditRejectBadValue => some .master
  | .parseEditLine _ => none
  | .reset e => some e

end Sys2Proof
end

