-- ==== Sys2Proof/Machine/Bits.lean ====
section
/-!
DEFINITION. Byte-order and bit-field helpers (20_memory.md rules R41 to R43, 00_scope.md rule R14): payloads and frames as
byte lists and as data words, and the three fields of an event word (R69).
-/

namespace Sys2Proof

/-- The 40-bit data word `D = f0 ++ f1 ++ f2 ++ f3 ++ f4` of a payload, byte 0 most significant (R14). -/
def Payload.word (p : Payload) : DataWord := p.b0 ++ p.b1 ++ p.b2 ++ p.b3 ++ p.b4

/-- The payload whose data word is `d` (R14). -/
def Payload.ofWord (d : DataWord) : Payload where
  b0 := d.extractLsb' 32 8
  b1 := d.extractLsb' 24 8
  b2 := d.extractLsb' 16 8
  b3 := d.extractLsb' 8 8
  b4 := d.extractLsb' 0 8

/-- The 5 bytes in transmission order (R41). -/
def Payload.toBytes (p : Payload) : List Byte := [p.b0, p.b1, p.b2, p.b3, p.b4]

/-- The 6 bytes in transmission order, the checksum byte last (R41). -/
def Frame.toBytes (f : Frame) : List Byte :=
  [f.payload.b0, f.payload.b1, f.payload.b2, f.payload.b3, f.payload.b4, f.checksum]

/-- The frame that exactly 6 bytes spell; none for any other number of bytes (R58). -/
def Frame.ofBytes? : List Byte → Option Frame
  | [b0, b1, b2, b3, b4, k] => some ⟨⟨b0, b1, b2, b3, b4⟩, k⟩
  | _ => none

/-- The event word with the given KIND, FID and DATA (R69). -/
def eventWord (kind fid : BitVec 4) (data : Byte) : EventWord := kind ++ fid ++ data

/-- `w[15:12]` (R69). -/
def eventKind (w : EventWord) : BitVec 4 := w.extractLsb' 12 4

/-- `w[11:8]` (R69). -/
def eventFid (w : EventWord) : BitVec 4 := w.extractLsb' 8 4

/-- `w[7:0]` (R69). -/
def eventData (w : EventWord) : Byte := w.extractLsb' 0 8

end Sys2Proof
end

