-- ==== Sys2Proof/Machine/Codec.lean ====
section
/-!
DEFINITION. CODEC (40_codec.md): pure total functions with no state (R19). Errors are return values (R111).
-/

namespace Sys2Proof

/-- The result of ENCODE (R77). -/
inductive EncodeResult where
  | ok (f : Frame)
  | fieldOutOfRange (fld : FieldName)
  deriving DecidableEq, Repr

/-- The result of DECODE on a 6-byte frame (R78). -/
inductive FrameDecode where
  | ok (d : DecodedFrame)
  | checksumMismatch (expected found : Byte)
  deriving DecidableEq, Repr

/-- The result of DECODE on a byte sequence (R78). -/
inductive DecodeResult where
  | ok (d : DecodedFrame)
  | checksumMismatch (expected found : Byte) (raw : Frame)
  | badLength (n : Nat)
  deriving DecidableEq, Repr

namespace Codec

/-- CHECKSUM (R76). Byte addition wraps modulo 256, which is R15's `sum8`. -/
def checksum (p : Payload) : Byte := (p.b0 + p.b1 + p.b2 + p.b3 + p.b4) ^^^ 0x55#8

/-- A payload followed by its checksum: `p ++ [CHECKSUM(p)]` (R68, R77). -/
def withChecksum (p : Payload) : Frame := ⟨p, checksum p⟩

/-- The eleven fields in layout order (R59, R77). -/
def layoutOrder : List FieldName :=
  [.config, .mode, .resistorHeating, .running, .changed, .rawRoomTemperature, .plasma, .fanSpeed, .rawSetTemperature,
   .swivel, .swirl]

/-- The value of a field of a record. -/
def fieldValue (f : Fields) : FieldName → Nat
  | .config => f.config
  | .mode => f.mode
  | .resistorHeating => f.resistorHeating
  | .running => f.running
  | .changed => f.changed
  | .rawRoomTemperature => f.rawRoomTemperature
  | .plasma => f.plasma
  | .fanSpeed => f.fanSpeed
  | .rawSetTemperature => f.rawSetTemperature
  | .swivel => f.swivel
  | .swirl => f.swirl

/-- The recognized mode codes (R61). -/
def legalMode (n : Nat) : Bool := n ≤ 4

/-- The recognized fan_speed codes (R62): 3 is a gap. -/
def legalFan (n : Nat) : Bool := n ≤ 2 || n == 4

/-- Which values ENCODE takes for a field (R77). -/
def legalValue : FieldName → Nat → Bool
  | .config, n => n ≤ 1
  | .mode, n => legalMode n
  | .resistorHeating, n => n ≤ 1
  | .running, n => n ≤ 1
  | .changed, n => n ≤ 1
  | .rawRoomTemperature, n => n ≤ 255
  | .plasma, n => n ≤ 1
  | .fanSpeed, n => legalFan n
  | .rawSetTemperature, n => n ≤ 15
  | .swivel, n => n ≤ 1
  | .swirl, n => n ≤ 1

/-- The first field in layout order whose value ENCODE refuses (R77, D27). -/
def firstIllegal (f : Fields) : Option FieldName :=
  layoutOrder.find? fun fld => !legalValue fld (fieldValue f fld)

/-- The five payload bytes of R77, every reserved bit 0 (R63). -/
def packFields (f : Fields) : Payload where
  b0 := BitVec.ofNat 8
    (f.config <<< 7 ||| f.mode <<< 4 ||| f.resistorHeating <<< 3 ||| f.running <<< 2 ||| 0 <<< 1 ||| f.changed)
  b1 := BitVec.ofNat 8 f.rawRoomTemperature
  b2 := BitVec.ofNat 8 (f.plasma <<< 7 ||| f.fanSpeed <<< 4 ||| f.rawSetTemperature)
  b3 := BitVec.ofNat 8 (0 <<< 6 ||| f.swivel <<< 5 ||| 0)
  b4 := BitVec.ofNat 8 (0 <<< 1 ||| f.swirl)

/-- ENCODE (R77). -/
def encode (f : Fields) : EncodeResult :=
  match firstIllegal f with
  | some fld => .fieldOutOfRange fld
  | none => .ok (withChecksum (packFields f))

/-- ROOM_TEMP_DECODE (R79): exact. -/
def roomTempDecode (r : Byte) : Rat := (r.toNat : Rat) / 2 + 10

/-- SET_TEMP_DECODE (R80). -/
def setTempDecode (r : BitVec 4) : Int := (r.toNat : Int) + 16

/-- ROOM_TEMP_ENCODE (R81); none is NotRepresentable. -/
def roomTempEncode (t : Rat) : Option Byte :=
  let r := 2 * (t - 10)
  if r.den = 1 ∧ 0 ≤ r.num ∧ r.num ≤ 255 then some (BitVec.ofNat 8 r.num.toNat) else none

/-- SET_TEMP_ENCODE (R82); none is NotRepresentable. -/
def setTempEncode (t : Rat) : Option (BitVec 4) :=
  let r := t - 16
  if r.den = 1 ∧ 0 ≤ r.num ∧ r.num ≤ 15 then some (BitVec.ofNat 4 r.num.toNat) else none

/-- `name(MODE, code)` (R61, R64, R78). -/
def modeName (c : BitVec 3) : ModeName :=
  match c.toNat with
  | 0 => .cool
  | 1 => .dh
  | 2 => .fan
  | 3 => .auto
  | 4 => .heat
  | _ => .unrecognized

/-- `name(FAN, code)` (R62, R64, R78). -/
def fanName (c : BitVec 3) : FanName :=
  match c.toNat with
  | 0 => .low
  | 1 => .medium
  | 2 => .high
  | 4 => .power
  | _ => .unrecognized

/-- The DecodedFrame of a data word and a checksum byte (R59, R78): every field is a slice of `D`, the reserved fields
as found (R63). -/
def unpack (d : DataWord) (k : Byte) : DecodedFrame where
  data := d
  config := d.extractLsb' 39 1
  modeRaw := d.extractLsb' 36 3
  mode := modeName (d.extractLsb' 36 3)
  resistorHeating := d.extractLsb' 35 1
  running := d.extractLsb' 34 1
  unknown1 := d.extractLsb' 33 1
  changed := d.extractLsb' 32 1
  rawRoomTemperature := d.extractLsb' 24 8
  roomTemperatureC := roomTempDecode (d.extractLsb' 24 8)
  plasma := d.extractLsb' 23 1
  fanSpeedRaw := d.extractLsb' 20 3
  fanSpeed := fanName (d.extractLsb' 20 3)
  rawSetTemperature := d.extractLsb' 16 4
  setTemperatureC := setTempDecode (d.extractLsb' 16 4)
  unknown3 := d.extractLsb' 14 2
  swivel := d.extractLsb' 13 1
  unknown4 := d.extractLsb' 8 5
  unknown5 := d.extractLsb' 1 7
  swirl := d.extractLsb' 0 1
  checksum := k

/-- DECODE of a 6-byte frame (R78): the checksum first, then the fields. -/
def decodeFrame (f : Frame) : FrameDecode :=
  if checksum f.payload = f.checksum then .ok (unpack f.payload.word f.checksum)
  else .checksumMismatch (checksum f.payload) f.checksum

/-- DECODE of a byte sequence (R78): the length is checked before the checksum. -/
def decode (x : List Byte) : DecodeResult :=
  match Frame.ofBytes? x with
  | none => .badLength x.length
  | some f =>
    match decodeFrame f with
    | .ok d => .ok d
    | .checksumMismatch e k => .checksumMismatch e k f

/-- SETTINGS_ENCODE (R83), with the value of MASTER_CONFIG_BIT as its first argument. -/
def settingsEncode (configBit : BitVec 1) (v : Settings) (c : BitVec 1) : Fields where
  config := configBit.toNat
  mode := v.mode.toNat
  resistorHeating := v.resistorHeating.toNat
  running := v.running.toNat
  changed := c.toNat
  rawRoomTemperature := v.roomTemperature.toNat
  plasma := v.plasma.toNat
  fanSpeed := v.fanSpeed.toNat
  rawSetTemperature := v.setTemperature.toNat
  swivel := v.swivel.toNat
  swirl := v.swirl.toNat

/-- FIELDS_TO_SETTINGS (R84); none is NotRepresentable. -/
def fieldsToSettings (d : DecodedFrame) : Option Settings :=
  if d.mode = .unrecognized ∨ d.fanSpeed = .unrecognized then none
  else some {
    mode := d.modeRaw
    resistorHeating := d.resistorHeating
    running := d.running
    roomTemperature := d.rawRoomTemperature
    plasma := d.plasma
    fanSpeed := d.fanSpeedRaw
    setTemperature := d.rawSetTemperature
    swivel := d.swivel
    swirl := d.swirl }

end Codec

/-- The 40-bit value of a row's reply payload under `REPLY_E_BYTE` (R9, R10). -/
def ReplyPayload.word (e : ReplyEByte) : ReplyPayload → DataWord
  | .literal q => q
  | .primary =>
    match e with
    | .e0 => 0xD121E00000#40
    | .e2 => 0xD121E20000#40

/-- Whether a row matches a payload: `(x AND M) = (P AND M)` (R67). -/
def ReplyRow.isMatch (row : ReplyRow) (x : DataWord) : Bool := x &&& row.mask == row.pattern &&& row.mask

/-- The first matching row's reply, in table order; the last row matches any payload (R67). -/
def ReplyTable.select (t : ReplyTable) (x : DataWord) : ReplyPayload :=
  match t.rows.find? fun row => row.isMatch x with
  | some row => row.reply
  | none => t.lastReply

/-- SELECT_REPLY (R91): a pure function of the raw payload and the parameters. -/
def selectReply (c : ReplicaParams) (x : Payload) : Payload :=
  Payload.ofWord ((c.replyTable.select x.word).word c.replyEByte)

end Sys2Proof
end

