-- ==== Sys2Proof/WellFormed.lean ====
section
/-!
DEFINITION. Which terms of Instr stand for a row of the table with a legal operand. The widths of the operands are in
their types; three constructors need a check of their own.
-/

namespace Sys2Proof

/-- The payload that row 1 of the reply table matches: 94 00 00 00 00 (R67). -/
def pollPayload : Payload := ⟨0x94#8, 0#8, 0#8, 0#8, 0#8⟩

/-- A DecodedFrame that DECODE can return: every field is the slice of its data word, and the checksum byte is the
payload's checksum (R78, R87). -/
def DecodedFrame.wellFormed (d : DecodedFrame) : Bool :=
  d == Codec.unpack d.data (Codec.checksum (Payload.ofWord d.data))

/-- The check of each instruction. -/
def WellFormed : Instr → Bool
  | .checksum _ => true
  | .encode _ => true
  | .decode _ => true
  | .roomTempDecode _ => true
  | .setTempDecode _ => true
  | .roomTempEncode _ => true
  | .setTempEncode _ => true
  | .settingsEncode _ _ => true
  | .fieldsToSettings d => d.wellFormed
  | .selectReplyRow1 => true
  | .selectReplyRow2 x => x != pollPayload
  | .rRxByte _ => true
  | .rRxTimeout => true
  | .intakeOverflow => true
  | .rProcess => true
  | .rEchoByte _ => true
  | .rEchoTimeout => true
  | .mTick => true
  | .mRespByte _ => true
  | .mRespTimeout => true
  | .mEditMode _ => true
  | .mEditResistorHeating _ => true
  | .mEditRunning _ => true
  | .mEditRoomTemperature _ => true
  | .mEditPlasma _ => true
  | .mEditFanSpeed _ => true
  | .mEditSetTemperature _ => true
  | .mEditSwivel _ => true
  | .mEditSwirl _ => true
  | .mEditUnknownFid fid _ => 9 ≤ fid.toNat
  | .mEditRejectNoEquals => true
  | .mEditRejectUnknownAttribute => true
  | .mEditRejectBadValue => true
  | .parseEditLine _ => true
  | .reset _ => true

end Sys2Proof
end

