-- ==== Sys2Proof/Decode.lean ====
section
/-!
DEFINITION. The decoder of event words (30_encoding.md rules R69 to R72): first the word as an event, rejecting reserved
words by name, then the step that the event selects at a port (R70, R96, R100); after it the encoder, written from the
same tables; and the decoder's answer on the numbers of spec/opcode_table.json.
-/

namespace Sys2Proof

/-- The input events (R70). -/
inductive Event where
  | step
  | rxByte (b : Byte)
  | rxTimeout
  | tick
  | edit (fid : BitVec 4) (v : Byte)
  | editReject (r : RejectReason)
  | reset
  deriving DecidableEq, Repr

/-- Why the decoder refuses a word. -/
inductive DecodeReject where
  /-- KIND 0x6 to 0xE (R72). -/
  | reservedKind
  /-- A non-zero FID in a word whose KIND is not EDIT (R69, R72). -/
  | fidNotZero
  /-- A non-zero DATA in a word of KIND STEP, RX_TIMEOUT, TICK or RESET (R69, R72). -/
  | dataNotZero
  /-- An EDIT_REJECT word whose reason is not 1, 2 or 3 (R72). -/
  | badReason
  /-- A word of a kind that the port's agent does not consume (R70, R96, R100). -/
  | wrongAgent
  deriving DecidableEq, Repr

/-- What a word offered at a port comes to. -/
inductive Decoded where
  /-- It selects this step. -/
  | instr (i : Instr)
  /-- The agent consumes this kind but has no step for it in this phase: the event waits (R70, R96, R100). -/
  | waits
  /-- The decoder refuses the word. -/
  | rejected (r : DecodeReject)
  deriving DecidableEq, Repr

/-- The reason that an EDIT_REJECT word's DATA spells (R70). -/
def RejectReason.ofCode (c : Byte) : Option RejectReason :=
  match c.toNat with
  | 1 => some .noEquals
  | 2 => some .unknownAttribute
  | 3 => some .badValue
  | _ => none

/-- The reason's code (R70, R110). -/
def RejectReason.code : RejectReason → Byte
  | .noEquals => 1#8
  | .unknownAttribute => 2#8
  | .badValue => 3#8

/-- The attribute of a field id; none for 9 to 15 (R71). -/
def EditField.ofFid (fid : BitVec 4) : Option EditField :=
  match fid.toNat with
  | 0 => some .mode
  | 1 => some .resistorHeating
  | 2 => some .running
  | 3 => some .roomTemperature
  | 4 => some .plasma
  | 5 => some .fanSpeed
  | 6 => some .setTemperature
  | 7 => some .swivel
  | 8 => some .swirl
  | _ => none

/-- The field id of an attribute (R71). -/
def EditField.fid : EditField → BitVec 4
  | .mode => 0#4
  | .resistorHeating => 1#4
  | .running => 2#4
  | .roomTemperature => 3#4
  | .plasma => 4#4
  | .fanSpeed => 5#4
  | .setTemperature => 6#4
  | .swivel => 7#4
  | .swirl => 8#4

/-- A word whose FID and DATA must both be 0 (R69). -/
def decodeBare (w : EventWord) (e : Event) : Except DecodeReject Event :=
  if eventFid w ≠ 0#4 then .error .fidNotZero
  else if eventData w ≠ 0#8 then .error .dataNotZero
  else .ok e

/-- An event word as an event, or the name of the reason it spells none (R69, R70, R72). -/
def decodeEvent (w : EventWord) : Except DecodeReject Event :=
  match (eventKind w).toNat with
  | 0x0 => decodeBare w .step
  | 0x1 => if eventFid w ≠ 0#4 then .error .fidNotZero else .ok (.rxByte (eventData w))
  | 0x2 => decodeBare w .rxTimeout
  | 0x3 => decodeBare w .tick
  | 0x4 => .ok (.edit (eventFid w) (eventData w))
  | 0x5 =>
    if eventFid w ≠ 0#4 then .error .fidNotZero
    else match RejectReason.ofCode (eventData w) with
      | some r => .ok (.editReject r)
      | none => .error .badReason
  | 0xF => decodeBare w .reset
  | _ => .error .reservedKind

/-- The M_EDIT row of a field id (R71, R101). -/
def editInstr (fid : BitVec 4) (v : Byte) : Instr :=
  match EditField.ofFid fid with
  | some .mode => .mEditMode v
  | some .resistorHeating => .mEditResistorHeating v
  | some .running => .mEditRunning v
  | some .roomTemperature => .mEditRoomTemperature v
  | some .plasma => .mEditPlasma v
  | some .fanSpeed => .mEditFanSpeed v
  | some .setTemperature => .mEditSetTemperature v
  | some .swivel => .mEditSwivel v
  | some .swirl => .mEditSwirl v
  | none => .mEditUnknownFid fid v

/-- The M_EDIT_REJECT row of a reason (R102). -/
def editRejectInstr : RejectReason → Instr
  | .noEquals => .mEditRejectNoEquals
  | .unknownAttribute => .mEditRejectUnknownAttribute
  | .badValue => .mEditRejectBadValue

/-- The step an event selects at REPLICA, by phase (R70, R96). RESET is every agent's event (R70). -/
def replicaStep (ph : RPhase) : Event → Decoded
  | .step => match ph with
    | .process => .instr .rProcess
    | .intake => .waits
    | .echo => .waits
    | .halted => .waits
  | .rxByte b => match ph with
    | .intake => .instr (.rRxByte b)
    | .echo => .instr (.rEchoByte b)
    | .process => .waits
    | .halted => .waits
  | .rxTimeout => match ph with
    | .intake => .instr .rRxTimeout
    | .echo => .instr .rEchoTimeout
    | .process => .waits
    | .halted => .waits
  | .tick => .rejected .wrongAgent
  | .edit _ _ => .rejected .wrongAgent
  | .editReject _ => .rejected .wrongAgent
  | .reset => .instr (.reset .replica)

/-- The step an event selects at MASTER.TICK, by phase (R70, R100). -/
def tickStep (ph : MPhase) : Event → Decoded
  | .step => .rejected .wrongAgent
  | .rxByte b => match ph with
    | .resp => .instr (.mRespByte b)
    | .idle => .waits
  | .rxTimeout => match ph with
    | .resp => .instr .mRespTimeout
    | .idle => .waits
  | .tick => match ph with
    | .idle => .instr .mTick
    | .resp => .waits
  | .edit _ _ => .rejected .wrongAgent
  | .editReject _ => .rejected .wrongAgent
  | .reset => .instr (.reset .master)

/-- The step an event selects at MASTER.EDIT, in any phase of MASTER (R70, R101, R102). R129 gives the EDIT port EDIT and
EDIT_REJECT words only; that a RESET word there selects RESET, as at every agent (R70), is the model's choice (DESIGN
CHOICE, log entry 34). -/
def editStep : Event → Decoded
  | .step => .rejected .wrongAgent
  | .rxByte _ => .rejected .wrongAgent
  | .rxTimeout => .rejected .wrongAgent
  | .tick => .rejected .wrongAgent
  | .edit fid v => .instr (editInstr fid v)
  | .editReject r => .instr (editRejectInstr r)
  | .reset => .instr (.reset .master)

/-- The step an event selects at a port (R70). -/
def portStep : Port → Event → Decoded
  | .replica ph, e => replicaStep ph e
  | .tick ph, e => tickStep ph e
  | .edit, e => editStep e

/-- The decoder: any 16-bit word at any port. -/
def decodeAt (p : Port) (w : EventWord) : Decoded :=
  match decodeEvent w with
  | .ok e => portStep p e
  | .error r => .rejected r

/-- The call that a 40-bit payload spells in the reply table (R67): row 1 matches first, row 2 matches the rest. -/
def decodeReplyPayload (x : DataWord) : Instr :=
  if x = 0x9400000000#40 then .selectReplyRow1 else .selectReplyRow2 (Payload.ofWord x)

/-! The encoder. -/

/-- The word that spells an event (R70). -/
def encodeEvent : Event → EventWord
  | .step => eventWord 0x0#4 0#4 0#8
  | .rxByte b => eventWord 0x1#4 0#4 b
  | .rxTimeout => eventWord 0x2#4 0#4 0#8
  | .tick => eventWord 0x3#4 0#4 0#8
  | .edit fid v => eventWord 0x4#4 fid v
  | .editReject r => eventWord 0x5#4 0#4 r.code
  | .reset => eventWord 0xF#4 0#4 0#8

/-- The bits an instruction is spelled with: an event word, or the 40-bit payload of a reply-table row. -/
inductive Encoding where
  | event (w : EventWord)
  | replyPayload (x : DataWord)
  deriving DecidableEq, Repr

/-- The event an instruction consumes; none for a call and for INTAKE_OVERFLOW, which have no event word. -/
def Instr.event : Instr → Option Event
  | .checksum _ => none
  | .encode _ => none
  | .decode _ => none
  | .roomTempDecode _ => none
  | .setTempDecode _ => none
  | .roomTempEncode _ => none
  | .setTempEncode _ => none
  | .settingsEncode _ _ => none
  | .fieldsToSettings _ => none
  | .selectReplyRow1 => none
  | .selectReplyRow2 _ => none
  | .rRxByte b => some (.rxByte b)
  | .rRxTimeout => some .rxTimeout
  | .intakeOverflow => none
  | .rProcess => some .step
  | .rEchoByte b => some (.rxByte b)
  | .rEchoTimeout => some .rxTimeout
  | .mTick => some .tick
  | .mRespByte b => some (.rxByte b)
  | .mRespTimeout => some .rxTimeout
  | .mEditMode v => some (.edit 0#4 v)
  | .mEditResistorHeating v => some (.edit 1#4 v)
  | .mEditRunning v => some (.edit 2#4 v)
  | .mEditRoomTemperature v => some (.edit 3#4 v)
  | .mEditPlasma v => some (.edit 4#4 v)
  | .mEditFanSpeed v => some (.edit 5#4 v)
  | .mEditSetTemperature v => some (.edit 6#4 v)
  | .mEditSwivel v => some (.edit 7#4 v)
  | .mEditSwirl v => some (.edit 8#4 v)
  | .mEditUnknownFid fid v => some (.edit fid v)
  | .mEditRejectNoEquals => some (.editReject .noEquals)
  | .mEditRejectUnknownAttribute => some (.editReject .unknownAttribute)
  | .mEditRejectBadValue => some (.editReject .badValue)
  | .parseEditLine _ => none
  | .reset _ => some .reset

/-- The payload that a SELECT_REPLY row spells (R67); none for every other instruction. -/
def Instr.replyPayload : Instr → Option DataWord
  | .selectReplyRow1 => some pollPayload.word
  | .selectReplyRow2 x => some x.word
  | _ => none

/-- The port at which an event instruction's word selects it; none where it has no word (R70). -/
def Instr.port : Instr → Option Port
  | .checksum _ => none
  | .encode _ => none
  | .decode _ => none
  | .roomTempDecode _ => none
  | .setTempDecode _ => none
  | .roomTempEncode _ => none
  | .setTempEncode _ => none
  | .settingsEncode _ _ => none
  | .fieldsToSettings _ => none
  | .selectReplyRow1 => none
  | .selectReplyRow2 _ => none
  | .rRxByte _ => some (.replica .intake)
  | .rRxTimeout => some (.replica .intake)
  | .intakeOverflow => none
  | .rProcess => some (.replica .process)
  | .rEchoByte _ => some (.replica .echo)
  | .rEchoTimeout => some (.replica .echo)
  | .mTick => some (.tick .idle)
  | .mRespByte _ => some (.tick .resp)
  | .mRespTimeout => some (.tick .resp)
  | .mEditMode _ => some .edit
  | .mEditResistorHeating _ => some .edit
  | .mEditRunning _ => some .edit
  | .mEditRoomTemperature _ => some .edit
  | .mEditPlasma _ => some .edit
  | .mEditFanSpeed _ => some .edit
  | .mEditSetTemperature _ => some .edit
  | .mEditSwivel _ => some .edit
  | .mEditSwirl _ => some .edit
  | .mEditUnknownFid _ _ => some .edit
  | .mEditRejectNoEquals => some .edit
  | .mEditRejectUnknownAttribute => some .edit
  | .mEditRejectBadValue => some .edit
  | .parseEditLine _ => none
  | .reset .replica => some (.replica .intake)
  | .reset .master => some (.tick .idle)

/-- The bits of an instruction: its event word, or the payload of a reply-table row; none for a call that no word
spells and for INTAKE_OVERFLOW (the table gives these rows no match). -/
def encode (i : Instr) : Option Encoding :=
  match i.event with
  | some e => some (.event (encodeEvent e))
  | none => i.replyPayload.map .replyPayload

/-! The table's numbers. -/

/-- The ports in the order in which `decodeTableWord` asks them. Words of KIND RX_BYTE and RX_TIMEOUT select a step at
several ports; the table's number does not say which, and the first of this list answers (log entry 20). -/
def tablePorts : List Port := [.replica .intake, .replica .process, .tick .idle, .edit]

/-- The instruction that a list of ports, asked in turn, reads from a word; none where every one rejects it or has no
step for it. -/
def decodeFirst (w : EventWord) : List Port → Option Instr
  | [] => none
  | p :: ps =>
    match decodeAt p w with
    | .instr i => some i
    | .waits => decodeFirst w ps
    | .rejected _ => decodeFirst w ps

/-- The instruction the decoder reads from the bits `w` of a table row of `nbits` bits: 16 bits are an event word, 40
bits a payload of the reply table; no other row has a number. -/
def decodeTableWord (nbits w : Nat) : Option Instr :=
  if nbits = 16 then
    if w < 2 ^ 16 then decodeFirst (BitVec.ofNat 16 w) tablePorts else none
  else if nbits = 40 then
    if w < 2 ^ 40 then some (decodeReplyPayload (BitVec.ofNat 40 w)) else none
  else none

end Sys2Proof
end

