-- ==== Sys2Proof/Machine/Defaults.lean ====
section
/-!
DEFINITION. The values that State.reset and RESET use: SETTINGS_DEFAULT (R22) and the default parameters (R36, R67).
-/

namespace Sys2Proof

/-- `SETTINGS_DEFAULT` (R22): COOL, not running, 26.5 °C, HIGH, 18 °C, other flags 0. -/
def Settings.default : Settings where
  mode := 0#3
  resistorHeating := 0#1
  running := 0#1
  roomTemperature := 33#8
  plasma := 0#1
  fanSpeed := 2#3
  setTemperature := 2#4
  swivel := 0#1
  swirl := 0#1

/-- The default `REPLY_TABLE` (R67): row 1 is the poll pattern, the last row answers the rest. -/
def ReplyTable.default : ReplyTable where
  rows := [{ pattern := 0x9400000000#40, mask := 0xFFFFFFFFFF#40, reply := .primary }]
  lastReply := .literal 0x8826000000#40

/-- REPLICA's parameters at State.reset: the defaults of R36. RX_TIMEOUT_T is OPEN: DESIGN CHOICE 1, log entry 9. -/
def ReplicaParams.default : ReplicaParams where
  rxTimeoutT := .rational 1
  replyEByte := .e0
  replyTable := ReplyTable.default
  replyOnBadChecksum := false

/-- MASTER's parameters at State.reset: the defaults of R36. PERIOD_N and RX_TIMEOUT_T are OPEN: DESIGN CHOICE 2 and 1,
log entries 8 and 9. -/
def MasterParams.default : MasterParams where
  periodN := .rational 2
  rxTimeoutT := .rational 1
  masterConfigBit := 0#1

/-- N ≥ 2 (R7). An irrational number is at least 2 where its floor is. -/
def Seconds.atLeastTwo : Seconds → Bool
  | .rational q => 2 ≤ q
  | .irrational n _ => 2 ≤ n

/-- T > 0 (R36). An irrational number is above 0 where its floor is at least 0. -/
def Seconds.positive : Seconds → Bool
  | .rational q => 0 < q
  | .irrational n _ => 0 ≤ n

/-- Whether REPLICA's configuration is legal (R36): RX_TIMEOUT_T above 0. The other parameters' types hold legal values
only. -/
def ReplicaParams.legal (c : ReplicaParams) : Bool := c.rxTimeoutT.positive

/-- Whether MASTER's configuration is legal (R7, R36, R135): PERIOD_N at least 2 and RX_TIMEOUT_T above 0. -/
def MasterParams.legal (c : MasterParams) : Bool :=
  c.periodN.atLeastTwo && c.rxTimeoutT.positive

end Sys2Proof
end

