-- ==== Sys2Proof/Machine/State.lean ====
section
/-!
DEFINITION. The state of the machine as plain data: one REPLICA instance, one MASTER instance (10_state.md), the result of
the last stand-alone call, and the environment's inputs still to come; the reasons a step stops; the state after reset.
-/

namespace Sys2Proof

namespace Machine

/-- An EVT record (R110, R112). -/
inductive Evt where
  /-- 0x01: the decoded frame that REPLICA observed. -/
  | frameObserved (d : DecodedFrame)
  /-- 0x02. -/
  | checksumMismatch (expected found : Byte) (raw : Frame)
  /-- 0x03. -/
  | echoMismatch (sent got : Frame)
  /-- 0x04: the 12 raw bytes. -/
  | response (bytes : List Byte)
  /-- 0x05: the bytes received before the timeout. -/
  | shortRead (bytes : List Byte)
  /-- 0x06. -/
  | fieldOutOfRange (fld : FieldName)
  /-- 0x07. -/
  | userInputError (r : RejectReason)
  /-- 0x08: r_buf. -/
  | intakeOverflow (buf : List Byte)
  deriving DecidableEq, Repr

/-- What a stand-alone call returns. -/
inductive CallResult where
  /-- CHECKSUM (R76). -/
  | byte (b : Byte)
  /-- ENCODE (R77). -/
  | encoded (r : EncodeResult)
  /-- DECODE (R78). -/
  | decoded (r : DecodeResult)
  /-- ROOM_TEMP_DECODE: °C (R79). -/
  | roomTemperature (t : Rat)
  /-- SET_TEMP_DECODE: °C (R80). -/
  | setTemperature (t : Int)
  /-- ROOM_TEMP_ENCODE: the code, or none for NotRepresentable (R81). -/
  | roomCode (r : Option Byte)
  /-- SET_TEMP_ENCODE: the code, or none for NotRepresentable (R82). -/
  | setCode (r : Option (BitVec 4))
  /-- SETTINGS_ENCODE (R83). -/
  | fields (f : Fields)
  /-- FIELDS_TO_SETTINGS: the Settings, or none for NotRepresentable (R84). -/
  | settings (r : Option Settings)
  /-- SELECT_REPLY: the reply payload (R91). -/
  | reply (q : Payload)
  /-- PARSE_EDIT_LINE: the event word (R103). -/
  | eventWord (w : EventWord)
  deriving DecidableEq, Repr

/-- A REPLICA instance: its control state and buffers (R27 to R32), its parameters (R36), its transport's receive FIFO
(R39, R44), its two output streams (R37), what its CFG port presents (R129), and whether an event of this run has been
taken (the model's own, for R136; log entry 7). -/
structure Replica where
  phase : RPhase
  buf : List Byte
  frame : Option Frame
  last : Option DataWord
  reply : Option Frame
  echo : List Byte
  params : ReplicaParams
  rxFifo : List Byte
  tx : List Frame
  evt : List Evt
  cfg : ReplicaParams
  started : Bool
  deriving DecidableEq, Repr

/-- A MASTER instance: the two Settings banks (R23), MASTER.TICK's control state and buffers (R24 to R26; `txFrame` is
`m_tx`), its parameters (R36), its transport's receive FIFO (R39, R44), its two output streams (R37), the tick that TIMER
offers and holds (R100, R125), the words waiting at the EDIT port (R122, R129), what its CFG port presents (R129), and
whether an event of this run has been taken (the model's own, for R136; log entry 7). -/
structure Master where
  lastSent : Settings
  pending : Settings
  phase : MPhase
  txFrame : Option Frame
  resp : List Byte
  params : MasterParams
  rxFifo : List Byte
  tx : List Frame
  evt : List Evt
  tickOffered : Bool
  editPort : List EventWord
  cfg : MasterParams
  started : Bool
  deriving DecidableEq, Repr

/-- An act of the environment, or the turn of an agent. -/
inductive Input where
  /-- TRANSPORT appends a byte to an engine's receive FIFO (R44). -/
  | arrive (e : Engine) (b : Byte)
  /-- TIMER offers a tick (R127). -/
  | timer
  /-- CONSOLE delivers a line through PARSE_EDIT_LINE (R18, R103). -/
  | consoleLine (l : Text)
  /-- A word is offered at the EDIT port (R129). -/
  | editWord (w : EventWord)
  /-- An event word is offered to an agent, which takes the step it selects, or has none; MASTER.EDIT's is the one that
  heads the EDIT port (R70, R122). -/
  | event (a : Agent) (w : EventWord)
  /-- REPLICA's CFG port presents a configuration (R129, R135). -/
  | configureReplica (c : ReplicaParams)
  /-- MASTER's CFG port presents a configuration (R129, R135). -/
  | configureMaster (c : MasterParams)
  /-- RESET is offered to every agent of an engine instance (R133). -/
  | reset (e : Engine)
  /-- An agent takes its enabled step, if it has one (R18, R52). -/
  | turn (a : Agent)
  /-- A stand-alone call of a pure function (R19, R91, R103). -/
  | call (i : Instr)
  deriving DecidableEq, Repr

/-- The machine. `inputs` is the interleaving of the environment's acts and the agents' turns still to come (R52),
`result` what the last stand-alone call returned; both are the model's own (log entries 2 and 5). -/
structure State where
  replica : Replica
  master : Master
  result : Option CallResult
  inputs : List Input
  deriving DecidableEq, Repr

/-- Why a step faults. Both are raised only in states that R33 rules out (log entry 17). -/
inductive Fault where
  /-- Raised by R_PROCESS where `r_phase` is PROCESS and `r_frame` is NONE. Safe: R29 gives the step no frame, and no
  reachable state is one. -/
  | processWithoutFrame
  /-- Raised by R_ECHO_BYTE at the 6th echo byte where `r_reply` is NONE. Safe: R33 gives ECHO a reply, and no reachable
  state is one. -/
  | echoWithoutReply
  deriving DecidableEq, Repr

/-- Why a step is refused. -/
inductive Refusal where
  /-- Raised by exec's arm of an instruction without a meaning. Safe. No arm of this model raises it. -/
  | notModelled (mnemonic : String)
  /-- Raised by step where the decoder rejects a word at the EDIT port, or one offered to an agent. Safe: R72 has such words refused, and no
  environment agent produces them. -/
  | eventWord (w : EventWord) (r : DecodeReject)
  /-- Raised by RESET where the CFG port presents a configuration that R36 calls not legal. Safe: R135 has it refused. -/
  | illegalConfiguration (e : Engine)
  /-- Raised by step where a call input holds an instruction that is a step of an agent. Safe: only events select steps
  (R70), so no run is lost. -/
  | notACall
  deriving DecidableEq, Repr

/-- A REPLICA instance after reset (R38). -/
def Replica.reset : Replica where
  phase := .intake
  buf := []
  frame := none
  last := none
  reply := none
  echo := []
  params := ReplicaParams.default
  rxFifo := []
  tx := []
  evt := []
  cfg := ReplicaParams.default
  started := false

/-- A MASTER instance after reset (R38). -/
def Master.reset : Master where
  lastSent := Settings.default
  pending := Settings.default
  phase := .idle
  txFrame := none
  resp := []
  params := MasterParams.default
  rxFifo := []
  tx := []
  evt := []
  tickOffered := false
  editPort := []
  cfg := MasterParams.default
  started := false

/-- The machine right after reset (R38, R134): every agent waits for its first event. -/
def State.reset : State where
  replica := Replica.reset
  master := Master.reset
  result := none
  inputs := []

end Machine

end Sys2Proof
end

