-- ==== Sys2Proof/Machine/Flags.lean ====
section
/-!
DEFINITION. The block has no condition codes (R35). Its two flags are the changed bit, which M_TICK computes afresh on
every tick, and REPLICA's halt, which is a phase. The numeric codes of the EVT records stand here too (R110, R112).
-/

namespace Sys2Proof.Machine

/-- The changed bit of this tick: `m_pending != m_last_sent`, all nine fields compared (R21, R35, R97). -/
def Master.changed (m : Master) : Bool := m.pending != m.lastSent

/-- The settings this tick sends: `m_pending` when the banks differ, else `m_last_sent` (R97). -/
def Master.toSend (m : Master) : Settings := if m.changed then m.pending else m.lastSent

/-- The frame that this tick's ENCODE gives, or the field it refuses (R83, R97). -/
def Master.tickFrame (m : Master) : EncodeResult :=
  Codec.encode (Codec.settingsEncode m.params.masterConfigBit m.toSend (BitVec.ofBool m.changed))

/-- REPLICA's fault flag (R35). -/
def Replica.halted (r : Replica) : Bool := r.phase == .halted

/-- `len(r_buf) >= 6`: the intake invariant of R90 is violated. -/
def Replica.overflowed (r : Replica) : Bool := 6 ≤ r.buf.length

/-- The numeric code of a record (R110, R112). -/
def Evt.code : Evt → Byte
  | .frameObserved _ => 0x01#8
  | .checksumMismatch _ _ _ => 0x02#8
  | .echoMismatch _ _ => 0x03#8
  | .response _ => 0x04#8
  | .shortRead _ => 0x05#8
  | .fieldOutOfRange _ => 0x06#8
  | .userInputError _ => 0x07#8
  | .intakeOverflow _ => 0x08#8

end Sys2Proof.Machine
end

