-- ==== Sys2Proof/Machine/Operands.lean ====
section
/-!
DEFINITION. The operand forms of an edit: which codes are legal for an attribute, and the Settings value with one field
replaced (R20, R71, R101).
-/

namespace Sys2Proof

/-- `legal_codes(fid)` (R71). -/
def EditField.legalCode : EditField → Byte → Bool
  | .mode, v => Codec.legalMode v.toNat
  | .resistorHeating, v => v.toNat ≤ 1
  | .running, v => v.toNat ≤ 1
  | .roomTemperature, v => v.toNat ≤ 255
  | .plasma, v => v.toNat ≤ 1
  | .fanSpeed, v => Codec.legalFan v.toNat
  | .setTemperature, v => v.toNat ≤ 15
  | .swivel, v => v.toNat ≤ 1
  | .swirl, v => v.toNat ≤ 1

/-- `s.field(fid) <- v` (R101), for a code that `legalCode` takes: it fits the field's width. -/
def Settings.set (fld : EditField) (v : Byte) (s : Settings) : Settings :=
  match fld with
  | .mode => { s with mode := v.setWidth 3 }
  | .resistorHeating => { s with resistorHeating := v.setWidth 1 }
  | .running => { s with running := v.setWidth 1 }
  | .roomTemperature => { s with roomTemperature := v }
  | .plasma => { s with plasma := v.setWidth 1 }
  | .fanSpeed => { s with fanSpeed := v.setWidth 3 }
  | .setTemperature => { s with setTemperature := v.setWidth 4 }
  | .swivel => { s with swivel := v.setWidth 1 }
  | .swirl => { s with swirl := v.setWidth 1 }

/-- The wire code of a field, widened with zeros to a byte (R14's `zext_8`). -/
def Settings.get (fld : EditField) (s : Settings) : Byte :=
  match fld with
  | .mode => s.mode.setWidth 8
  | .resistorHeating => s.resistorHeating.setWidth 8
  | .running => s.running.setWidth 8
  | .roomTemperature => s.roomTemperature
  | .plasma => s.plasma.setWidth 8
  | .fanSpeed => s.fanSpeed.setWidth 8
  | .setTemperature => s.setTemperature.setWidth 8
  | .swivel => s.swivel.setWidth 8
  | .swirl => s.swirl.setWidth 8

end Sys2Proof
end

