-- ==== Sys2Proof/Machine/Ops.lean ====
section
/-!
DEFINITION. The named operations over the state: RxTake, TxWrite and Emit (R16, R45, R47, R112), the one operation by which
every error is reported. The block has no trap entry and no trap return (R123, R124): a detecting step emits its record
and ends in the state its rule gives.
-/

namespace Sys2Proof.Machine

/-- `Emit(code, payload)` on REPLICA's EVT stream (R16, R112). -/
def Replica.emit (e : Evt) (r : Replica) : Replica := { r with evt := r.evt ++ [e] }

/-- `Emit(code, payload)` on MASTER's EVT stream (R16, R112). -/
def Master.emit (e : Evt) (m : Master) : Master := { m with evt := m.evt ++ [e] }

/-- `TxWrite(f)` on REPLICA's transmit port: one whole frame, always complete (R47). -/
def Replica.txWrite (f : Frame) (r : Replica) : Replica := { r with tx := r.tx ++ [f] }

/-- `TxWrite(f)` on MASTER's transmit port: one whole frame, always complete (R47). -/
def Master.txWrite (f : Frame) (m : Master) : Master := { m with tx := m.tx ++ [f] }

/-- The FIFO after `b <- RxTake()`: none where `b` does not head it, so that no RxTake yields `b` (R45). -/
def takeHead (b : Byte) : List Byte → Option (List Byte)
  | [] => none
  | h :: rest => if h = b then some rest else none

/-- `RxTake()` on REPLICA's FIFO, where it yields `b` (R45). -/
def Replica.rxTake (b : Byte) (r : Replica) : Option Replica :=
  match takeHead b r.rxFifo with
  | some rest => some { r with rxFifo := rest }
  | none => none

/-- `RxTake()` on MASTER's FIFO, where it yields `b` (R45). -/
def Master.rxTake (b : Byte) (m : Master) : Option Master :=
  match takeHead b m.rxFifo with
  | some rest => some { m with rxFifo := rest }
  | none => none

/-- The state with a step of REPLICA done: nothing else moves (R57). -/
def State.setReplica (s : State) (r : Replica) : State := { s with replica := r }

/-- The state with a step of MASTER done: nothing else moves (R57). -/
def State.setMaster (s : State) (m : Master) : State := { s with master := m }

/-- The state with the result of a stand-alone call (R19: no engine's state moves). -/
def State.setResult (s : State) (c : CallResult) : State := { s with result := some c }

/-- The outcome of a step of REPLICA that may fault. -/
def State.replicaOutcome (s : State) : Except Fault Replica → Host.Outcome State Fault Refusal
  | .ok r => .next (s.setReplica r)
  | .error f => .fault f

end Sys2Proof.Machine
end

