-- ==== Sys2Proof/Machine/CodecCalls.lean ====
section
/-!
DEFINITION. The meanings of the stand-alone calls of CODEC (40_codec.md) and of SELECT_REPLY (R91): each computes its pure
function and leaves the value in `result`; no engine's state moves (R19; log entry 5).
-/

namespace Sys2Proof.Machine

/-- CHECKSUM (R76). -/
def execChecksum (p : Payload) (s : State) : Host.Outcome State Fault Refusal :=
  .next (s.setResult (.byte (Codec.checksum p)))

/-- ENCODE (R77). -/
def execEncode (f : Fields) (s : State) : Host.Outcome State Fault Refusal :=
  .next (s.setResult (.encoded (Codec.encode f)))

/-- DECODE (R78). -/
def execDecode (x : List Byte) (s : State) : Host.Outcome State Fault Refusal :=
  .next (s.setResult (.decoded (Codec.decode x)))

/-- ROOM_TEMP_DECODE (R79). -/
def execRoomTempDecode (r : Byte) (s : State) : Host.Outcome State Fault Refusal :=
  .next (s.setResult (.roomTemperature (Codec.roomTempDecode r)))

/-- SET_TEMP_DECODE (R80). -/
def execSetTempDecode (r : BitVec 4) (s : State) : Host.Outcome State Fault Refusal :=
  .next (s.setResult (.setTemperature (Codec.setTempDecode r)))

/-- ROOM_TEMP_ENCODE (R81). -/
def execRoomTempEncode (t : Rat) (s : State) : Host.Outcome State Fault Refusal :=
  .next (s.setResult (.roomCode (Codec.roomTempEncode t)))

/-- SET_TEMP_ENCODE (R82). -/
def execSetTempEncode (t : Rat) (s : State) : Host.Outcome State Fault Refusal :=
  .next (s.setResult (.setCode (Codec.setTempEncode t)))

/-- SETTINGS_ENCODE (R83): `config` comes from MASTER's parameter. -/
def execSettingsEncode (v : Settings) (c : BitVec 1) (s : State) : Host.Outcome State Fault Refusal :=
  .next (s.setResult (.fields (Codec.settingsEncode s.master.params.masterConfigBit v c)))

/-- FIELDS_TO_SETTINGS (R84). -/
def execFieldsToSettings (d : DecodedFrame) (s : State) : Host.Outcome State Fault Refusal :=
  .next (s.setResult (.settings (Codec.fieldsToSettings d)))

/-- SELECT_REPLY of the row-1 payload, under REPLICA's parameters (R91). -/
def execSelectReplyRow1 (s : State) : Host.Outcome State Fault Refusal :=
  .next (s.setResult (.reply (selectReply s.replica.params pollPayload)))

/-- SELECT_REPLY of any other payload, under REPLICA's parameters (R91). -/
def execSelectReplyRow2 (x : Payload) (s : State) : Host.Outcome State Fault Refusal :=
  .next (s.setResult (.reply (selectReply s.replica.params x)))

end Sys2Proof.Machine
end

