-- ==== Sys2Proof/Machine/Parser.lean ====
section
/-!
DEFINITION. PARSE_EDIT_LINE and its parts (43_master_edit.md rules R103 to R109): pure functions on text.
-/

namespace Sys2Proof

namespace Parser

/-- The characters that the line is stripped of (R103; which characters are whitespace is log entry 13). -/
def isSpace (c : Char) : Bool :=
  c == ' ' || c == '\t' || c == '\n' || c == '\r' || c == '\x0b' || c == '\x0c'

/-- The text without leading and trailing whitespace; a line terminator is trailing whitespace (R103). -/
def strip (l : Text) : Text := ((l.dropWhile isSpace).reverse.dropWhile isSpace).reverse

/-- The parts before and after the first `=`; none where there is none (R103). -/
def splitAtEquals : Text → Option (Text × Text)
  | [] => none
  | c :: cs =>
    if c = '=' then some ([], cs)
    else match splitAtEquals cs with
      | some (a, v) => some (c :: a, v)
      | none => none

/-- The spelling of an attribute's name (R73, R104). -/
def attributeName : EditField → Text
  | .mode => "mode".toList
  | .resistorHeating => "resistor_heating".toList
  | .running => "running".toList
  | .roomTemperature => "room_temperature".toList
  | .plasma => "plasma".toList
  | .fanSpeed => "fan_speed".toList
  | .setTemperature => "set_temperature".toList
  | .swivel => "swivel".toList
  | .swirl => "swirl".toList

/-- The nine attributes in FID order (R71). -/
def attributes : List EditField :=
  [.mode, .resistorHeating, .running, .roomTemperature, .plasma, .fanSpeed, .setTemperature, .swivel, .swirl]

/-- ATTRIBUTE_ID (R104): exact and case-sensitive. -/
def attributeId (a : Text) : Option EditField := attributes.find? fun fld => attributeName fld == a

/-- ASCII lower-casing (R105). -/
def lower (v : Text) : Text := v.map Char.toLower

/-- ASCII upper-casing (R106). -/
def upper (v : Text) : Text := v.map Char.toUpper

/-- PARSE_BOOL (R105): a boolean value never fails. -/
def parseBool (v : Text) : Byte :=
  if ["y".toList, "yes".toList, "on".toList, "true".toList].contains (lower v) then 1#8 else 0#8

/-- The codes of the mode names (R106). -/
def modeCodes : List (Text × Byte) :=
  [("COOL".toList, 0#8), ("DH".toList, 1#8), ("FAN".toList, 2#8), ("AUTO".toList, 3#8), ("HEAT".toList, 4#8)]

/-- The codes of the fan speed names (R106). -/
def fanCodes : List (Text × Byte) :=
  [("LOW".toList, 0#8), ("MEDIUM".toList, 1#8), ("HIGH".toList, 2#8), ("POWER".toList, 4#8)]

/-- PARSE_ENUM (R106): by name only, in any ASCII case. -/
def parseEnum (codes : List (Text × Byte)) (v : Text) : Option Byte := codes.lookup (upper v)

/-- An ASCII digit. -/
def isDigit (c : Char) : Bool := '0' ≤ c && c ≤ '9'

/-- The number that a run of digits spells, read on from `acc`. -/
def digitsValue (acc : Nat) : Text → Nat
  | [] => acc
  | c :: cs => digitsValue (10 * acc + (c.toNat - '0'.toNat)) cs

/-- An optional sign: whether it is `-`, and the rest. -/
def takeSign : Text → Bool × Text
  | '+' :: cs => (false, cs)
  | '-' :: cs => (true, cs)
  | cs => (false, cs)

/-- The mantissa `[0-9]+(\.[0-9]*)?|\.[0-9]+`: its digits as one number, how many of them follow the point, and the rest
(R109). -/
def takeMantissa (cs : Text) : Option (Nat × Nat × Text) :=
  let whole := cs.takeWhile isDigit
  match cs.dropWhile isDigit with
  | '.' :: rest =>
    let frac := rest.takeWhile isDigit
    if whole = [] ∧ frac = [] then none
    else some (digitsValue 0 (whole ++ frac), frac.length, rest.dropWhile isDigit)
  | rest => if whole = [] then none else some (digitsValue 0 whole, 0, rest)

/-- The exponent `([eE][+-]?[0-9]+)?` up to the end of the text (R109). -/
def takeExponent : Text → Option Int
  | [] => some 0
  | c :: cs =>
    if c = 'e' ∨ c = 'E' then
      let (neg, ds) := takeSign cs
      if ds ≠ [] ∧ ds.all isDigit then
        some (if neg then -(digitsValue 0 ds : Int) else (digitsValue 0 ds : Int))
      else none
    else none

/-- `m * 10^e`, exactly. -/
def scale (m : Int) (e : Int) : Rat :=
  if 0 ≤ e then mkRat (m * 10 ^ e.toNat) 1 else mkRat m (10 ^ (-e).toNat)

/-- PARSE_DECIMAL (R109): the exact rational value of a text of the grammar. -/
def parseDecimal (v : Text) : Option Rat :=
  let (neg, cs) := takeSign v
  match takeMantissa cs with
  | none => none
  | some (m, fracDigits, rest) =>
    match takeExponent rest with
    | none => none
    | some e => some (scale (if neg then -(m : Int) else (m : Int)) (e - fracDigits))

/-- ROOM_VALUE (R107). -/
def roomValue (v : Text) : Option Byte :=
  match parseDecimal v with
  | none => none
  | some t => Codec.roomTempEncode t

/-- SET_VALUE (R108). -/
def setValue (v : Text) : Option Byte :=
  match parseDecimal v with
  | none => none
  | some t =>
    match Codec.setTempEncode t with
    | none => none
    | some c => some (c.setWidth 8)

/-- The value code of an attribute's value text; none is BAD_VALUE (R103). -/
def valueCode (fld : EditField) (v : Text) : Option Byte :=
  match fld with
  | .mode => parseEnum modeCodes v
  | .resistorHeating => some (parseBool v)
  | .running => some (parseBool v)
  | .roomTemperature => roomValue v
  | .plasma => some (parseBool v)
  | .fanSpeed => parseEnum fanCodes v
  | .setTemperature => setValue v
  | .swivel => some (parseBool v)
  | .swirl => some (parseBool v)

/-- The event that a line comes to (R103). -/
def lineEvent (l : Text) : Event :=
  match splitAtEquals (strip l) with
  | none => .editReject .noEquals
  | some (a, v) =>
    match attributeId a with
    | none => .editReject .unknownAttribute
    | some fld =>
      match valueCode fld v with
      | none => .editReject .badValue
      | some c => .edit fld.fid c

end Parser

/-- PARSE_EDIT_LINE (R103): exactly one event word for each line. -/
def parseEditLine (l : Text) : EventWord := encodeEvent (Parser.lineEvent l)

end Sys2Proof
end

