-- ==== Sys2Proof/Machine/MasterEdit.lean ====
section
/-!
DEFINITION. The steps of MASTER.EDIT (43_master_edit.md), enabled in every phase, and the call of PARSE_EDIT_LINE.
-/

namespace Sys2Proof.Machine

/-- M_EDIT of a known attribute (R101): re-base on `m_last_sent` and replace one field, or report BAD_VALUE. -/
def Master.edit (fld : EditField) (v : Byte) (m : Master) : Master :=
  if fld.legalCode v then { m with pending := m.lastSent.set fld v } else m.emit (.userInputError .badValue)

/-- The report of a refused edit: no state changes (R101, R102, R117). -/
def Master.rejectEdit (r : RejectReason) (m : Master) : Master := m.emit (.userInputError r)

/-- The outcome of an edit. -/
def State.editOutcome (s : State) (fld : EditField) (v : Byte) : Host.Outcome State Fault Refusal :=
  .next (s.setMaster (s.master.edit fld v))

/-- The outcome of a refused edit. -/
def State.rejectOutcome (s : State) (r : RejectReason) : Host.Outcome State Fault Refusal :=
  .next (s.setMaster (s.master.rejectEdit r))

/-- M_EDIT.mode (R101). -/
def execMEditMode (v : Byte) (s : State) : Host.Outcome State Fault Refusal := s.editOutcome .mode v

/-- M_EDIT.resistor_heating (R101). -/
def execMEditResistorHeating (v : Byte) (s : State) : Host.Outcome State Fault Refusal :=
  s.editOutcome .resistorHeating v

/-- M_EDIT.running (R101). -/
def execMEditRunning (v : Byte) (s : State) : Host.Outcome State Fault Refusal := s.editOutcome .running v

/-- M_EDIT.room_temperature (R101). -/
def execMEditRoomTemperature (v : Byte) (s : State) : Host.Outcome State Fault Refusal :=
  s.editOutcome .roomTemperature v

/-- M_EDIT.plasma (R101). -/
def execMEditPlasma (v : Byte) (s : State) : Host.Outcome State Fault Refusal := s.editOutcome .plasma v

/-- M_EDIT.fan_speed (R101). -/
def execMEditFanSpeed (v : Byte) (s : State) : Host.Outcome State Fault Refusal := s.editOutcome .fanSpeed v

/-- M_EDIT.set_temperature (R101). -/
def execMEditSetTemperature (v : Byte) (s : State) : Host.Outcome State Fault Refusal :=
  s.editOutcome .setTemperature v

/-- M_EDIT.swivel (R101). -/
def execMEditSwivel (v : Byte) (s : State) : Host.Outcome State Fault Refusal := s.editOutcome .swivel v

/-- M_EDIT.swirl (R101). -/
def execMEditSwirl (v : Byte) (s : State) : Host.Outcome State Fault Refusal := s.editOutcome .swirl v

/-- M_EDIT with a field id of no attribute (R71, R101). The ids 0 to 8 have constructors of their own, and R101 applies
to them here as it does there. -/
def execMEditUnknownFid (fid : BitVec 4) (v : Byte) (s : State) : Host.Outcome State Fault Refusal :=
  match EditField.ofFid fid with
  | none => s.rejectOutcome .unknownAttribute
  | some fld => s.editOutcome fld v

/-- M_EDIT_REJECT.NO_EQUALS (R102). -/
def execMEditRejectNoEquals (s : State) : Host.Outcome State Fault Refusal := s.rejectOutcome .noEquals

/-- M_EDIT_REJECT.UNKNOWN_ATTRIBUTE (R102). -/
def execMEditRejectUnknownAttribute (s : State) : Host.Outcome State Fault Refusal :=
  s.rejectOutcome .unknownAttribute

/-- M_EDIT_REJECT.BAD_VALUE (R102). -/
def execMEditRejectBadValue (s : State) : Host.Outcome State Fault Refusal := s.rejectOutcome .badValue

/-- PARSE_EDIT_LINE (R103): a pure call; CONSOLE's delivery of the word is an input (log entry 5). -/
def execParseEditLine (l : Text) (s : State) : Host.Outcome State Fault Refusal :=
  .next (s.setResult (.eventWord (parseEditLine l)))

end Sys2Proof.Machine
end

