-- ==== Sys2Proof/Machine/MasterTick.lean ====
section
/-!
DEFINITION. The steps of MASTER.TICK (42_master_tick.md). A step that is not enabled (R100) leaves the state as it is: the
byte stays in the FIFO and the tick is held (log entry 3).
-/

namespace Sys2Proof.Machine

/-- The commit of a changed tick (R97, R139). -/
def Master.commit (m : Master) : Master := if m.changed then { m with lastSent := m.pending } else m

/-- The tick proper: encode, then abort, or commit, write and enter RESP (R97, R121). The tick is consumed either way
(R125; log entry 29). -/
def Master.fire (m : Master) : Master :=
  match m.tickFrame with
  | .fieldOutOfRange fld => { m.emit (.fieldOutOfRange fld) with tickOffered := false }
  | .ok f => { m.commit.txWrite f with txFrame := some f, resp := [], phase := .resp, tickOffered := false }

/-- M_TICK (R97). -/
def Master.tick (m : Master) : Master := if m.phase = .idle ∧ m.tickOffered = true then m.fire else m

/-- The response step proper: append the byte; the 12th ends the read (R98). -/
def Master.collect (b : Byte) (m : Master) : Master :=
  if (m.resp ++ [b]).length = 12 then { m.emit (.response (m.resp ++ [b])) with resp := [], phase := .idle }
  else { m with resp := m.resp ++ [b] }

/-- M_RESP_BYTE (R98). -/
def Master.respByte (b : Byte) (m : Master) : Master :=
  if m.phase = .resp then
    match m.rxTake b with
    | some m' => m'.collect b
    | none => m
  else m

/-- M_RESP_TIMEOUT (R99), enabled with an empty FIFO (R46). -/
def Master.respTimeout (m : Master) : Master :=
  if m.phase = .resp ∧ m.rxFifo = [] then { m.emit (.shortRead m.resp) with resp := [], phase := .idle } else m

/-- M_TICK (R97). -/
def execMTick (s : State) : Host.Outcome State Fault Refusal := .next (s.setMaster s.master.tick)

/-- M_RESP_BYTE (R98). -/
def execMRespByte (b : Byte) (s : State) : Host.Outcome State Fault Refusal :=
  .next (s.setMaster (s.master.respByte b))

/-- M_RESP_TIMEOUT (R99). -/
def execMRespTimeout (s : State) : Host.Outcome State Fault Refusal := .next (s.setMaster s.master.respTimeout)

end Sys2Proof.Machine
end

