-- ==== Sys2Proof/Machine/ReplicaSteps.lean ====
section
/-!
DEFINITION. The steps of REPLICA (41_replica.md). A step that is not enabled (R96) leaves the state as it is: the event
waits (log entry 3).
-/

namespace Sys2Proof.Machine

/-- The intake step proper: append the byte; the 6th byte moves the frame out of the buffer (R88). -/
def Replica.collect (b : Byte) (r : Replica) : Replica :=
  match Frame.ofBytes? (r.buf ++ [b]) with
  | some f => { r with frame := some f, buf := [], phase := .process }
  | none => { r with buf := r.buf ++ [b] }

/-- R_RX_BYTE (R88). While the buffer violates R90's invariant the step is INTAKE_OVERFLOW's instead (log entry 24). -/
def Replica.rxByte (b : Byte) (r : Replica) : Replica :=
  if r.phase = .intake ∧ r.overflowed = false then
    match r.rxTake b with
    | some r' => r'.collect b
    | none => r
  else r

/-- R_RX_TIMEOUT (R89), enabled with an empty FIFO (R46). -/
def Replica.rxTimeout (r : Replica) : Replica :=
  if r.phase = .intake ∧ r.overflowed = false ∧ r.rxFifo = [] then { r with buf := [] } else r

/-- INTAKE_OVERFLOW (R90): report and halt. -/
def Replica.overflow (r : Replica) : Replica :=
  if r.phase = .intake ∧ r.overflowed = true then { r.emit (.intakeOverflow r.buf) with phase := .halted } else r

/-- Reply selection and write, then entry to ECHO (R68, R92). -/
def Replica.sendReply (x : Payload) (r : Replica) : Replica :=
  let reply := Codec.withChecksum (selectReply r.params x)
  { r.txWrite reply with reply := some reply, echo := [], frame := none, phase := .echo }

/-- The report of a decoded frame: only where it differs from the last observed one (R30, R92). -/
def Replica.observe (d : DecodedFrame) (r : Replica) : Replica :=
  if r.last = some d.data then r else { r.emit (.frameObserved d) with last := some d.data }

/-- Decode and act on a frame, then the reply (R92), in the order of R121. -/
def Replica.processFrame (f : Frame) (r : Replica) : Replica :=
  match Codec.decodeFrame f with
  | .ok d => (r.observe d).sendReply f.payload
  | .checksumMismatch e k =>
    if r.params.replyOnBadChecksum then (r.emit (.checksumMismatch e k f)).sendReply f.payload
    else { r.emit (.checksumMismatch e k f) with frame := none, phase := .intake }

/-- R_PROCESS (R92). -/
def Replica.process (r : Replica) : Except Fault Replica :=
  if r.phase = .process then
    match r.frame with
    | some f => .ok (r.processFrame f)
    | none => .error .processWithoutFrame
  else .ok r

/-- The echo check at 6 bytes (R93). -/
def Replica.checkEcho (sent got : Frame) (r : Replica) : Replica :=
  if got = sent then { r with echo := [], phase := .intake }
  else { r.emit (.echoMismatch sent got) with echo := [], phase := .intake }

/-- The echo step proper: append the byte; the 6th is followed by the check (R93). -/
def Replica.collectEcho (b : Byte) (r : Replica) : Except Fault Replica :=
  match Frame.ofBytes? (r.echo ++ [b]) with
  | none => .ok { r with echo := r.echo ++ [b] }
  | some got =>
    match r.reply with
    | some sent => .ok (r.checkEcho sent got)
    | none => .error .echoWithoutReply

/-- R_ECHO_BYTE (R93). -/
def Replica.echoByte (b : Byte) (r : Replica) : Except Fault Replica :=
  if r.phase = .echo then
    match r.rxTake b with
    | some r' => r'.collectEcho b
    | none => .ok r
  else .ok r

/-- R_RX_BYTE (R88). -/
def execRRxByte (b : Byte) (s : State) : Host.Outcome State Fault Refusal :=
  .next (s.setReplica (s.replica.rxByte b))

/-- R_RX_TIMEOUT (R89). -/
def execRRxTimeout (s : State) : Host.Outcome State Fault Refusal :=
  .next (s.setReplica s.replica.rxTimeout)

/-- INTAKE_OVERFLOW (R90). -/
def execIntakeOverflow (s : State) : Host.Outcome State Fault Refusal :=
  .next (s.setReplica s.replica.overflow)

/-- R_PROCESS (R92). -/
def execRProcess (s : State) : Host.Outcome State Fault Refusal :=
  s.replicaOutcome s.replica.process

/-- R_ECHO_BYTE (R93). -/
def execREchoByte (b : Byte) (s : State) : Host.Outcome State Fault Refusal :=
  s.replicaOutcome (s.replica.echoByte b)

/-- R_ECHO_TIMEOUT (R94): `skip`. The echo read never gives up. -/
def execREchoTimeout (s : State) : Host.Outcome State Fault Refusal := .next s

end Sys2Proof.Machine
end

