-- ==== Sys2Proof/Machine/Reset.lean ====
section
/-!
DEFINITION. RESET (70_reset_and_hazards.md rules R133 to R136).
-/

namespace Sys2Proof.Machine

/-- Every state element of REPLICA at its reset value, the parameters latched from the CFG port. The receive FIFO is the
transport's and is not cleared; the output streams get no record (R133). -/
def Replica.doReset (r : Replica) : Replica :=
  { Replica.reset with
    params := r.cfg, cfg := r.cfg, rxFifo := r.rxFifo, tx := r.tx, evt := r.evt, started := r.started }

/-- Every state element of MASTER at its reset value, the parameters latched from the CFG port. The receive FIFO, TIMER's
offer and the EDIT port are the environment's and are not cleared (R39, R133; log entry 16); the output streams get no
record. -/
def Master.doReset (m : Master) : Master :=
  { Master.reset with
    params := m.cfg, cfg := m.cfg, rxFifo := m.rxFifo, tx := m.tx, evt := m.evt, tickOffered := m.tickOffered,
    editPort := m.editPort, started := m.started }

/-- RESET of an engine instance (R133). It occurs only as the first event of a run (R136), so once an event of the run
has been taken there is no step (log entry 7); a configuration that is not legal is refused (R135). -/
def execReset (e : Engine) (s : State) : Host.Outcome State Fault Refusal :=
  match e with
  | .replica =>
    if s.replica.started then .next s
    else if s.replica.cfg.legal then .next (s.setReplica s.replica.doReset)
    else .refused (.illegalConfiguration .replica)
  | .master =>
    if s.master.started then .next s
    else if s.master.cfg.legal then .next (s.setMaster s.master.doReset)
    else .refused (.illegalConfiguration .master)

end Sys2Proof.Machine
end

