-- ==== Sys2Proof/Machine/Dispatch.lean ====
section
/-!
DEFINITION. The dispatch of every instruction to its meaning, one arm per constructor of Instr.
-/

namespace Sys2Proof.Machine

def exec (i : Instr) (s : State) : Host.Outcome State Fault Refusal :=
  match i with
  | .checksum p => Sys2Proof.Machine.execChecksum p s
  | .encode f => Sys2Proof.Machine.execEncode f s
  | .decode x => Sys2Proof.Machine.execDecode x s
  | .roomTempDecode r => Sys2Proof.Machine.execRoomTempDecode r s
  | .setTempDecode r => Sys2Proof.Machine.execSetTempDecode r s
  | .roomTempEncode t => Sys2Proof.Machine.execRoomTempEncode t s
  | .setTempEncode t => Sys2Proof.Machine.execSetTempEncode t s
  | .settingsEncode v c => Sys2Proof.Machine.execSettingsEncode v c s
  | .fieldsToSettings d => Sys2Proof.Machine.execFieldsToSettings d s
  | .selectReplyRow1 => Sys2Proof.Machine.execSelectReplyRow1 s
  | .selectReplyRow2 x => Sys2Proof.Machine.execSelectReplyRow2 x s
  | .rRxByte b => Sys2Proof.Machine.execRRxByte b s
  | .rRxTimeout => Sys2Proof.Machine.execRRxTimeout s
  | .intakeOverflow => Sys2Proof.Machine.execIntakeOverflow s
  | .rProcess => Sys2Proof.Machine.execRProcess s
  | .rEchoByte b => Sys2Proof.Machine.execREchoByte b s
  | .rEchoTimeout => Sys2Proof.Machine.execREchoTimeout s
  | .mTick => Sys2Proof.Machine.execMTick s
  | .mRespByte b => Sys2Proof.Machine.execMRespByte b s
  | .mRespTimeout => Sys2Proof.Machine.execMRespTimeout s
  | .mEditMode v => Sys2Proof.Machine.execMEditMode v s
  | .mEditResistorHeating v => Sys2Proof.Machine.execMEditResistorHeating v s
  | .mEditRunning v => Sys2Proof.Machine.execMEditRunning v s
  | .mEditRoomTemperature v => Sys2Proof.Machine.execMEditRoomTemperature v s
  | .mEditPlasma v => Sys2Proof.Machine.execMEditPlasma v s
  | .mEditFanSpeed v => Sys2Proof.Machine.execMEditFanSpeed v s
  | .mEditSetTemperature v => Sys2Proof.Machine.execMEditSetTemperature v s
  | .mEditSwivel v => Sys2Proof.Machine.execMEditSwivel v s
  | .mEditSwirl v => Sys2Proof.Machine.execMEditSwirl v s
  | .mEditUnknownFid fid v => Sys2Proof.Machine.execMEditUnknownFid fid v s
  | .mEditRejectNoEquals => Sys2Proof.Machine.execMEditRejectNoEquals s
  | .mEditRejectUnknownAttribute => Sys2Proof.Machine.execMEditRejectUnknownAttribute s
  | .mEditRejectBadValue => Sys2Proof.Machine.execMEditRejectBadValue s
  | .parseEditLine l => Sys2Proof.Machine.execParseEditLine l s
  | .reset e => Sys2Proof.Machine.execReset e s

end Sys2Proof.Machine
end

