-- ==== Sys2Proof/Machine/Fetch.lean ====
section
/-!
DEFINITION. What the next input comes to: an act of the environment, or the event an agent has before it (R125), read as
a 16-bit event word and decoded at the agent's port (R70); and how a word is placed so that the next step runs it.
-/

namespace Sys2Proof.Machine

/-- What an input comes to. -/
inductive Fetched where
  /-- This instruction is to be run in this state. -/
  | run (i : Instr) (s : State)
  /-- An act of the environment, or an agent that is held: no instruction runs. -/
  | quiet (s : State)
  /-- The decoder refuses. -/
  | refused (r : Refusal)
  deriving DecidableEq, Repr

/-- The receive event of a reading phase: RX_BYTE of the head, or RX_TIMEOUT where the FIFO is empty (R45, R46). -/
def receiveEvent : List Byte → Event
  | [] => .rxTimeout
  | b :: _ => .rxByte b

/-- REPLICA's enabled event, as its word (R96). -/
def Replica.eventWord? (r : Replica) : Option EventWord :=
  match r.phase with
  | .intake => some (encodeEvent (receiveEvent r.rxFifo))
  | .process => some (encodeEvent .step)
  | .echo => some (encodeEvent (receiveEvent r.rxFifo))
  | .halted => none

/-- MASTER.TICK's enabled event, as its word (R100). -/
def Master.tickWord? (m : Master) : Option EventWord :=
  match m.phase with
  | .idle => if m.tickOffered then some (encodeEvent .tick) else none
  | .resp => some (encodeEvent (receiveEvent m.rxFifo))

/-- The word an agent has before it; none where it has no enabled step (R122, R125). -/
def State.eventWord? (s : State) : Agent → Option EventWord
  | .replica => s.replica.eventWord?
  | .masterTick => s.master.tickWord?
  | .masterEdit => s.master.editPort.head?

/-- The port of an agent in its present phase (R70). -/
def State.port (s : State) : Agent → Port
  | .replica => .replica s.replica.phase
  | .masterTick => .tick s.master.phase
  | .masterEdit => .edit

/-- The word an agent has before it is handed over: the EDIT port's queue moves on (R122, R125), whatever
its head spells (a RESET word too: log entry 34). A byte is removed by the step's own RxTake and a tick by M_TICK. -/
def State.handOver (s : State) : Agent → State
  | .replica => s
  | .masterTick => s
  | .masterEdit => s.setMaster { s.master with editPort := s.master.editPort.tail }

/-- A word at an agent's port: decode it there, and run the step it selects, the word handed over (R70). So a RESET word
that heads the EDIT port runs RESET of MASTER and leaves the port, with no other effect in a started run (DESIGN CHOICE,
log entry 34). -/
def fetchWord (a : Agent) (w : EventWord) (s : State) : Fetched :=
  match decodeAt (s.port a) w with
  | .instr i => .run i (s.handOver a)
  | .waits => .quiet s
  | .rejected r => .refused (.eventWord w r)

/-- The state in which the instruction of a word offered to its agent runs; none where the word has to wait.
MASTER.EDIT takes its words one at a time in the order of delivery, so a word that does not head the EDIT port waits for
those before it, as a byte waits in the FIFO and a tick for TIMER's offer (R122). -/
def State.takeOffered (s : State) (i : Instr) (w : EventWord) : Option State :=
  if i.port = some .edit then
    if s.master.editPort.head? = some w then some (s.handOver .masterEdit) else none
  else some s

/-- A word offered to an agent: decode it at the agent's port, and run the step it selects unless it has to wait (R70,
R122). -/
def offerWord (a : Agent) (w : EventWord) (s : State) : Fetched :=
  match decodeAt (s.port a) w with
  | .instr i =>
    match s.takeOffered i w with
    | some u => .run i u
    | none => .quiet s
  | .waits => .quiet s
  | .rejected r => .refused (.eventWord w r)

/-- An agent's turn (R18, R52). INTAKE_OVERFLOW has no event word and is taken instead of any other step (R90). -/
def fetchTurn (a : Agent) (s : State) : Fetched :=
  if a = .replica ∧ s.replica.phase = .intake ∧ s.replica.overflowed = true then .run .intakeOverflow s
  else
    match s.eventWord? a with
    | none => .quiet s
    | some w => fetchWord a w s

/-- TRANSPORT appends a byte to an engine's FIFO, in any phase (R44). -/
def State.arrive (e : Engine) (b : Byte) (s : State) : State :=
  match e with
  | .replica => s.setReplica { s.replica with rxFifo := s.replica.rxFifo ++ [b] }
  | .master => s.setMaster { s.master with rxFifo := s.master.rxFifo ++ [b] }

/-- A word joins the EDIT port's queue (R122, R129). -/
def State.offerEdit (w : EventWord) (s : State) : State :=
  s.setMaster { s.master with editPort := s.master.editPort ++ [w] }

/-- What an input comes to. -/
def fetch (inp : Input) (s : State) : Fetched :=
  match inp with
  | .arrive e b => .quiet (s.arrive e b)
  | .timer => .quiet (s.setMaster { s.master with tickOffered := true })
  | .consoleLine l => .quiet (s.offerEdit (parseEditLine l))
  | .editWord w => .quiet (s.offerEdit w)
  | .event a w => offerWord a w s
  | .configureReplica c => .quiet (s.setReplica { s.replica with cfg := c })
  | .configureMaster c => .quiet (s.setMaster { s.master with cfg := c })
  | .reset .replica => fetchWord .replica (encodeEvent .reset) s
  | .reset .master => fetchWord .masterTick (encodeEvent .reset) s
  | .turn a => fetchTurn a s
  | .call i => if i.isCall then .run i s else .refused .notACall

/-- The engine whose event was taken has started its run (R136; log entry 7). -/
def State.markStarted (s : State) : Option Engine → State
  | none => s
  | some .replica => s.setReplica { s.replica with started := true }
  | some .master => s.setMaster { s.master with started := true }

/-- What step adds around an instruction: the mark that the run of its engine has started. -/
def afterInstr (i : Instr) : Host.Outcome State Fault Refusal → Host.Outcome State Fault Refusal
  | .next s => .next (s.markStarted i.engine)
  | .fault r => .fault r
  | .refused r => .refused r

/-! Placing a word. -/

/-- A frame to stand in `r_frame` or `r_reply` where a placed step needs one and there is none (log entry 21). -/
def placedFrame : Frame := Codec.withChecksum ⟨0#8, 0#8, 0#8, 0#8, 0#8⟩

/-- REPLICA in the given phase, its buffers as R33 has them there; unchanged where it is in that phase already. -/
def Replica.readyIn (ph : RPhase) (r : Replica) : Replica :=
  if r.phase = ph then r
  else { r with
    phase := ph, buf := [], echo := [], frame := if ph = .process then some placedFrame else none,
    reply := if ph = .echo then some (r.reply.getD placedFrame) else r.reply }

/-- MASTER.TICK in the given phase, its buffers as R33 has them there; unchanged where it is in that phase already. -/
def Master.readyIn (ph : MPhase) (m : Master) : Master :=
  if m.phase = ph then m
  else { m with
    phase := ph, resp := [], txFrame := if ph = .resp then some (m.txFrame.getD placedFrame) else m.txFrame }

/-- The state with this input next. -/
def State.withInput (inp : Input) (s : State) : State := { s with inputs := inp :: s.inputs }

/-- The word heads the EDIT port, and MASTER.EDIT's turn is the next input. -/
def State.placeEditWord (w : EventWord) (s : State) : State :=
  (s.setMaster { s.master with editPort := w :: s.master.editPort }).withInput (.turn .masterEdit)

/-- The event's byte heads the FIFO; for a timeout the FIFO is empty; no other event touches it (R45, R46). -/
def placedFifo (e : Event) (fifo : List Byte) : List Byte :=
  match e with
  | .rxByte b => b :: fifo
  | .rxTimeout => []
  | .step => fifo
  | .tick => fifo
  | .edit _ _ => fifo
  | .editReject _ => fifo
  | .reset => fifo

/-- The state in which the event is before the agent of the port, in the port's phase, and its turn is the next input
(log entry 21). A RESET comes as an input of its own, at the start of a run. -/
def State.place (p : Port) (e : Event) (s : State) : State :=
  match p with
  | .replica ph =>
    if e = .reset then (s.setReplica { s.replica with started := false }).withInput (.reset .replica)
    else
      let r := s.replica.readyIn ph
      (s.setReplica { r with rxFifo := placedFifo e r.rxFifo }).withInput (.turn .replica)
  | .tick ph =>
    if e = .reset then (s.setMaster { s.master with started := false }).withInput (.reset .master)
    else
      let m := s.master.readyIn ph
      (s.setMaster { m with rxFifo := placedFifo e m.rxFifo, tickOffered := m.tickOffered || e == .tick }).withInput
        (.turn .masterTick)
  | .edit => s.placeEditWord (encodeEvent e)

/-- The state in which an instruction is what the next step runs; a call, which no word spells, is a call input. -/
def State.placeInstr (i : Instr) (s : State) : State :=
  match i.port, i.event with
  | some p, some e => s.place p e
  | _, _ => s.withInput (.call i)

/-- The state in which the instruction that a table word spells is what the next step runs. A word that the decoder
refuses is offered at the EDIT port, so that the next step refuses it. -/
def State.placeTableWord (nbits w : Nat) (s : State) : State :=
  match decodeTableWord nbits w with
  | some i => s.placeInstr i
  | none => s.placeEditWord (BitVec.ofNat 16 w)

end Sys2Proof.Machine
end

