-- ==== Sys2Proof/Machine/Step.lean ====
section
/-!
DEFINITION. One step of the machine: the next input is fetched and, where it selects an instruction, that instruction runs.
-/

namespace Sys2Proof.Machine

/-- What a fetched input comes to. -/
def runFetched : Fetched → Host.Outcome State Fault Refusal
  | .run i s => afterInstr i (exec i s)
  | .quiet s => .next s
  | .refused r => .refused r

/-- One step: the first of the inputs still to come is taken. Where none is left every agent waits (R132, R134), and the
state stays as it is (log entry 2). -/
def step (s : State) : Host.Outcome State Fault Refusal :=
  match s.inputs with
  | [] => .next s
  | inp :: rest => runFetched (fetch inp { s with inputs := rest })

/-- The state with a table row's word placed where the next step fetches it (log entry 21). -/
def State.withFetchWord (s : State) (nbits w : Nat) : State := s.placeTableWord nbits w

end Sys2Proof.Machine
end

