-- ==== Sys2Proof/Safety.lean ====
section
/-!
DEFINITION. What counts as a safe run, in the terms the statements use: legal banks (R20), the invariants of R33, the fault
state (R95), and several steps in a row.
-/

namespace Sys2Proof

/-- A Settings value whose enum codes R20 calls legal; every other field's type holds legal codes only. -/
abbrev Settings.legal (v : Settings) : Prop := Codec.legalMode v.mode.toNat = true ∧ Codec.legalFan v.fanSpeed.toNat = true

namespace Machine

/-- The first three items of R33. Outside HALTED the intake buffer is within R28's bound. -/
def Replica.Inv (r : Replica) : Prop :=
  match r.phase with
  | .intake => r.buf.length ≤ 5 ∧ r.frame = none ∧ r.echo = []
  | .process => r.buf = [] ∧ r.frame.isSome ∧ r.echo = []
  | .echo => r.buf = [] ∧ r.frame = none ∧ r.echo.length ≤ 5 ∧ r.reply.isSome
  | .halted => True

/-- The last two items of R33. -/
def Master.Inv (m : Master) : Prop :=
  match m.phase with
  | .idle => m.resp = []
  | .resp => m.resp.length ≤ 11 ∧ m.txFrame.isSome

/-- Both banks hold legal codes only (R20). -/
abbrev Master.LegalBanks (m : Master) : Prop := m.lastSent.legal ∧ m.pending.legal

/-- R33, of both instances. -/
def State.Inv (s : State) : Prop := s.replica.Inv ∧ s.master.Inv

/-- HALTED is the fault state (R95). -/
abbrev State.FaultFree (s : State) : Prop := s.replica.phase ≠ .halted

/-- `k` steps one after the other, up to the first fault or refusal. -/
def run : Nat → State → Host.Outcome State Fault Refusal
  | 0, s => .next s
  | k + 1, s =>
    match step s with
    | .next t => run k t
    | .fault f => .fault f
    | .refused r => .refused r

end Machine

end Sys2Proof
end

