-- ==== Sys2Proof/Certificates/Slice0/Obligations.lean ====
section
/-!
DEFINITION. The statements for the provers. Sys2Proof.Claims holds the words they are written in: values spelled as the
numbered rules spell them, not as the model computes them.
-/

namespace Sys2Proof.Claims

open Sys2Proof Sys2Proof.Machine

/-- `sum8` of a payload XOR 0x55, computed on natural numbers (R15, R76). -/
def check (p : Payload) : Byte :=
  BitVec.ofNat 8 ((p.b0.toNat + p.b1.toNat + p.b2.toNat + p.b3.toNat + p.b4.toNat) % 256 ^^^ 0x55)

/-- A payload followed by its checksum (R68). -/
def sealed (p : Payload) : Frame := ⟨p, check p⟩

/-- The payload of R59's layout for legal values, every reserved bit 0: each field times the weight of its lowest bit. -/
def layout (f : Fields) : Payload :=
  ⟨BitVec.ofNat 8 (128 * f.config + 16 * f.mode + 8 * f.resistorHeating + 4 * f.running + f.changed),
   BitVec.ofNat 8 f.rawRoomTemperature,
   BitVec.ofNat 8 (128 * f.plasma + 16 * f.fanSpeed + f.rawSetTemperature),
   BitVec.ofNat 8 (32 * f.swivel),
   BitVec.ofNat 8 f.swirl⟩

/-- ENCODE's result as R77 gives it: the first field out of range in layout order, or the frame. -/
def encodeResult (f : Fields) : EncodeResult :=
  if 1 < f.config then .fieldOutOfRange .config
  else if 4 < f.mode then .fieldOutOfRange .mode
  else if 1 < f.resistorHeating then .fieldOutOfRange .resistorHeating
  else if 1 < f.running then .fieldOutOfRange .running
  else if 1 < f.changed then .fieldOutOfRange .changed
  else if 255 < f.rawRoomTemperature then .fieldOutOfRange .rawRoomTemperature
  else if 1 < f.plasma then .fieldOutOfRange .plasma
  else if f.fanSpeed ∉ [0, 1, 2, 4] then .fieldOutOfRange .fanSpeed
  else if 15 < f.rawSetTemperature then .fieldOutOfRange .rawSetTemperature
  else if 1 < f.swivel then .fieldOutOfRange .swivel
  else if 1 < f.swirl then .fieldOutOfRange .swirl
  else .ok (sealed (layout f))

/-- The name of a mode code (R61, R64). -/
def modeName (n : Nat) : ModeName := [ModeName.cool, .dh, .fan, .auto, .heat].getD n .unrecognized

/-- The name of a fan_speed code (R62, R64). -/
def fanName (n : Nat) : FanName := [FanName.low, .medium, .high, .unrecognized, .power].getD n .unrecognized

/-- The fields that R59's bit positions give a frame's six bytes, with the names and the temperatures (R78 to R80). -/
def FieldsOf (f : Frame) (d : DecodedFrame) : Prop :=
  let b0 := f.payload.b0.toNat
  let b1 := f.payload.b1.toNat
  let b2 := f.payload.b2.toNat
  let b3 := f.payload.b3.toNat
  let b4 := f.payload.b4.toNat
  d.data.toNat = b0 * 2 ^ 32 + b1 * 2 ^ 24 + b2 * 2 ^ 16 + b3 * 2 ^ 8 + b4 ∧
  d.config.toNat = b0 / 128 ∧ d.modeRaw.toNat = b0 / 16 % 8 ∧ d.mode = modeName (b0 / 16 % 8) ∧
  d.resistorHeating.toNat = b0 / 8 % 2 ∧ d.running.toNat = b0 / 4 % 2 ∧ d.unknown1.toNat = b0 / 2 % 2 ∧
  d.changed.toNat = b0 % 2 ∧
  d.rawRoomTemperature.toNat = b1 ∧ d.roomTemperatureC = (b1 : Rat) / 2 + 10 ∧
  d.plasma.toNat = b2 / 128 ∧ d.fanSpeedRaw.toNat = b2 / 16 % 8 ∧ d.fanSpeed = fanName (b2 / 16 % 8) ∧
  d.rawSetTemperature.toNat = b2 % 16 ∧ d.setTemperatureC = ((b2 % 16 : Nat) : Int) + 16 ∧
  d.unknown3.toNat = b3 / 64 ∧ d.swivel.toNat = b3 / 32 % 2 ∧ d.unknown4.toNat = b3 % 32 ∧
  d.unknown5.toNat = b4 / 2 ∧ d.swirl.toNat = b4 % 2 ∧ d.checksum = f.checksum

/-- The bytes of a row's reply (R9, R10). -/
def replyBytes (e : ReplyEByte) : ReplyPayload → Payload
  | .literal q => Payload.ofWord q
  | .primary => ⟨0xD1#8, 0x21#8, if e = .e0 then 0xE0#8 else 0xE2#8, 0#8, 0#8⟩

/-- `(x AND M) = (P AND M)` (R67). -/
def RowMatches (row : ReplyRow) (x : Payload) : Prop := x.word &&& row.mask = row.pattern &&& row.mask

/-- `q` is the reply payload that R91 selects for `x`: that of the first matching row in table order, or the last row's
where no row before it matches. -/
def Selects (c : ReplicaParams) (x q : Payload) : Prop :=
  (∃ before row after, c.replyTable.rows = before ++ row :: after ∧ (∀ r ∈ before, ¬ RowMatches r x) ∧
      RowMatches row x ∧ q = replyBytes c.replyEByte row.reply) ∨
  ((∀ r ∈ c.replyTable.rows, ¬ RowMatches r x) ∧ q = replyBytes c.replyEByte c.replyTable.lastReply)

/-- The two rows the source gives (R67). -/
def sourceTable : ReplyTable := ⟨[⟨0x9400000000#40, 0xFFFFFFFFFF#40, .primary⟩], .literal 0x8826000000#40⟩

/-- 94 00 00 00 00. -/
def poll : Payload := ⟨0x94#8, 0#8, 0#8, 0#8, 0#8⟩

/-- SETTINGS_DEFAULT as codes (R22). -/
def defaults : Settings := ⟨0#3, 0#1, 0#1, 33#8, 0#1, 2#3, 2#4, 0#1, 0#1⟩

/-- 00 21 22 00 00 16. -/
def defaultKeepAlive : Frame := ⟨⟨0x00#8, 0x21#8, 0x22#8, 0x00#8, 0x00#8⟩, 0x16#8⟩

/-- The inputs by which MASTER.EDIT may take an edit: its turn, and a word offered to it. -/
def OffersEdit (inp : Input) : Prop := inp = .turn .masterEdit ∨ ∃ w, inp = .event .masterEdit w

/-- What M_EDIT of one attribute does (R101): a legal code replaces that field of `m_last_sent` and the result becomes
`m_pending`; any other code is reported and changes nothing else. -/
def Edits (i : Byte → Instr) (legal : Nat → Prop) (replace : Byte → Settings → Settings) : Prop :=
  ∀ (v : Byte) (s : State),
    (legal v.toNat →
      exec (i v) s = .next { s with master := { s.master with pending := replace v s.master.lastSent } }) ∧
    (¬ legal v.toNat →
      exec (i v) s = .next { s with master := { s.master with evt := s.master.evt ++ [.userInputError .badValue] } })

/-- Whitespace only, in the model's reading of whitespace (log entry 13). -/
def Blank (l : Text) : Prop := ∀ c ∈ l, Parser.isSpace c = true

/-- No whitespace at either end. -/
def Trimmed (t : Text) : Prop :=
  (∀ c, t.head? = some c → Parser.isSpace c = false) ∧ (∀ c, t.getLast? = some c → Parser.isSpace c = false)

/-- The nine attribute names, in FID order (R73, R104). -/
def attributeNames : List String :=
  ["mode", "resistor_heating", "running", "room_temperature", "plasma", "fan_speed", "set_temperature", "swivel",
   "swirl"]

/-- PARSE_BOOL (R105). -/
def boolCode (v : Text) : Byte :=
  if v.map Char.toLower ∈ ["y".toList, "yes".toList, "on".toList, "true".toList] then 1#8 else 0#8

/-- PARSE_ENUM for mode (R106). -/
def modeCode (v : Text) : Option Byte :=
  let u := v.map Char.toUpper
  if u = "COOL".toList then some 0#8 else if u = "DH".toList then some 1#8 else if u = "FAN".toList then some 2#8
  else if u = "AUTO".toList then some 3#8 else if u = "HEAT".toList then some 4#8 else none

/-- PARSE_ENUM for fan_speed (R106). -/
def fanCode (v : Text) : Option Byte :=
  let u := v.map Char.toUpper
  if u = "LOW".toList then some 0#8 else if u = "MEDIUM".toList then some 1#8 else if u = "HIGH".toList then some 2#8
  else if u = "POWER".toList then some 4#8 else none

/-- The value code of the attribute with number `n` (R103). -/
def codeOf (n : Nat) (v : Text) : Option Byte :=
  if n = 0 then modeCode v
  else if n = 3 then Parser.roomValue v
  else if n = 5 then fanCode v
  else if n = 6 then Parser.setValue v
  else some (boolCode v)

/-- The EDIT word of an attribute number and a code, or EDIT_REJECT(BAD_VALUE) (R69, R103). -/
def wordOf (n : Nat) : Option Byte → EventWord
  | some c => BitVec.ofNat 16 (0x4000 + 256 * n + c.toNat)
  | none => 0x5003#16

/-- A text of R109's grammar: an optional sign (`some true` is `-`), the digits before the point, the point with the
digits after it, and the exponent with its letter, sign and digits. -/
structure Decimal where
  sign : Option Bool
  whole : List (Fin 10)
  frac : Option (List (Fin 10))
  exp : Option (Bool × Option Bool × List (Fin 10))

/-- The digits as characters. -/
def digitText (ds : List (Fin 10)) : Text := ds.map fun d => Char.ofNat (48 + d.val)

/-- The number the digits spell. -/
def digitNat (ds : List (Fin 10)) : Nat := ds.foldl (fun n d => 10 * n + d.val) 0

/-- The sign as characters. -/
def signText : Option Bool → Text
  | none => []
  | some false => ['+']
  | some true => ['-']

/-- `^[+-]?([0-9]+(\.[0-9]*)?|\.[0-9]+)([eE][+-]?[0-9]+)?$` (R109). -/
def Decimal.InGrammar (d : Decimal) : Prop :=
  (d.whole ≠ [] ∨ ∃ f, d.frac = some f ∧ f ≠ []) ∧ ∀ u sg ds, d.exp = some (u, sg, ds) → ds ≠ []

/-- The text. -/
def Decimal.text (d : Decimal) : Text :=
  signText d.sign ++ digitText d.whole ++ (match d.frac with | none => [] | some f => '.' :: digitText f) ++
    (match d.exp with
      | none => []
      | some (upper, sg, ds) => (if upper then 'E' else 'e') :: (signText sg ++ digitText ds))

/-- The exponent's value. -/
def Decimal.exponent (d : Decimal) : Int :=
  match d.exp with
  | none => 0
  | some (_, sg, ds) => if sg = some true then -(digitNat ds : Int) else digitNat ds

/-- The exact rational value. -/
def Decimal.value (d : Decimal) : Rat :=
  (if d.sign = some true then -1 else 1) * (digitNat (d.whole ++ d.frac.getD []) : Rat) *
    (10 : Rat) ^ (d.exponent - ((d.frac.getD []).length : Int))

/-- The event word `1000 | b` (R70). -/
def rxWord (b : Byte) : EventWord := BitVec.ofNat 16 (0x1000 + b.toNat)

/-- The event word `4000 | fid<<8 | v` (R70, R71). -/
def editWord (fid : BitVec 4) (v : Byte) : EventWord := BitVec.ofNat 16 (0x4000 + 256 * fid.toNat + v.toNat)

/-- The words that R72 reserves, on the number of the word. -/
def Reserved (w : EventWord) : Prop :=
  let kind := w.toNat / 4096
  let fid := w.toNat / 256 % 16
  let data := w.toNat % 256
  (6 ≤ kind ∧ kind ≤ 14) ∨ (kind ≠ 4 ∧ fid ≠ 0) ∨ (kind ∈ [0, 2, 3, 15] ∧ data ≠ 0) ∨ (kind = 5 ∧ data ∉ [1, 2, 3])

/-- The state with other PERIOD_N and RX_TIMEOUT_T values latched. -/
def retime (t1 n t2 : Seconds) (s : State) : State :=
  { s with
    replica := { s.replica with params := { s.replica.params with rxTimeoutT := t1 } }
    master := { s.master with params := { s.master.params with periodN := n, rxTimeoutT := t2 } } }

/-- The outcome with its next state changed. -/
def mapNext (g : State → State) : Host.Outcome State Fault Refusal → Host.Outcome State Fault Refusal
  | .next t => .next (g t)
  | .fault f => .fault f
  | .refused r => .refused r

/-- The M_EDIT instructions: the row of a field id, or the row of the unknown ids written with any id. -/
def IsEdit (i : Instr) : Prop := ∃ fid v, i = editInstr fid v ∨ i = .mEditUnknownFid fid v

end Sys2Proof.Claims

open Sys2Proof Sys2Proof.Machine

/-! CODEC. -/

/-- R76: CHECKSUM of every payload. -/
def Obligations.ChecksumReturnsSumXor55 : Prop := ∀ p : Payload, Codec.checksum p = Claims.check p

/-- R77: ENCODE of every record: the frame, or the first field out of range in layout order. -/
def Obligations.EncodePacksFieldsOrNamesTheFirstBad : Prop := ∀ f : Fields, Codec.encode f = Claims.encodeResult f

/-- R78: DECODE of every byte sequence: the length first, then the checksum, then every field. -/
def Obligations.DecodeReadsEveryFieldOrRefuses : Prop :=
  (∀ x : List Byte, x.length ≠ 6 → Codec.decode x = .badLength x.length) ∧
  (∀ f : Frame, f.checksum ≠ Claims.check f.payload →
    Codec.decode f.toBytes = .checksumMismatch (Claims.check f.payload) f.checksum f) ∧
  (∀ f : Frame, f.checksum = Claims.check f.payload →
    ∃ d, Claims.FieldsOf f d ∧ Codec.decode f.toBytes = .ok d)

/-- Round trip ("[derived: from rules R76 to R78]", 40_codec.md section 6): what ENCODE packs DECODE gives back, reserved
fields 0; no payload with its checksum is a mismatch. -/
def Obligations.DecodeGivesBackWhatEncodePacked : Prop :=
  (∀ (f : Fields) (fr : Frame), Codec.encode f = .ok fr →
    ∃ d, Codec.decode fr.toBytes = .ok d ∧ d.config.toNat = f.config ∧ d.modeRaw.toNat = f.mode ∧
      d.resistorHeating.toNat = f.resistorHeating ∧ d.running.toNat = f.running ∧ d.changed.toNat = f.changed ∧
      d.rawRoomTemperature.toNat = f.rawRoomTemperature ∧ d.plasma.toNat = f.plasma ∧
      d.fanSpeedRaw.toNat = f.fanSpeed ∧ d.rawSetTemperature.toNat = f.rawSetTemperature ∧
      d.swivel.toNat = f.swivel ∧ d.swirl.toNat = f.swirl ∧
      d.unknown1 = 0#1 ∧ d.unknown3 = 0#2 ∧ d.unknown4 = 0#5 ∧ d.unknown5 = 0#7) ∧
  (∀ b : Payload, ∃ d, Codec.decode (b.toBytes ++ [Codec.checksum b]) = .ok d)

/-- Error detection (items 1 to 3 of 40_codec.md section 6, "[derived: from rule R76]"): what the checksum catches and what it
does not. -/
def Obligations.ChecksumCatchesSingleErrorsOnly : Prop :=
  ∀ p : Payload,
    (∀ k : Byte, k ≠ Codec.checksum p →
      Codec.decode (p.toBytes ++ [k]) = .checksumMismatch (Codec.checksum p) k ⟨p, k⟩) ∧
    (∀ n : Nat, n < 40 → ∀ q : Payload, q.word = p.word ^^^ (1#40 <<< n) →
      Codec.checksum q ≠ Codec.checksum p ∧
      Codec.decode (q.toBytes ++ [Codec.checksum p]) =
        .checksumMismatch (Codec.checksum q) (Codec.checksum p) ⟨q, Codec.checksum p⟩) ∧
    (∀ q : Payload,
      (q.b0.toNat + q.b1.toNat + q.b2.toNat + q.b3.toNat + q.b4.toNat) % 256 =
        (p.b0.toNat + p.b1.toNat + p.b2.toNat + p.b3.toNat + p.b4.toNat) % 256 →
      ∃ d, Codec.decode (q.toBytes ++ [Codec.checksum p]) = .ok d)

/-- Decoded frames are compared by their data words ("[derived: from rules R76 and R78]", 40_codec.md section 6). -/
def Obligations.DecodedFramesEqualIffDataWordsEqual : Prop :=
  ∀ (x y : List Byte) (d e : DecodedFrame), Codec.decode x = .ok d → Codec.decode y = .ok e →
    (d = e ↔ d.data = e.data)

/-- R79, R81: the room temperature conversions are exact, and nothing between two codes is taken. -/
def Obligations.RoomTemperatureConversionsAreExact : Prop :=
  (∀ r : Byte, Codec.roomTempDecode r = (r.toNat : Rat) / 2 + 10) ∧
  (∀ (t : Rat) (r : Byte), Codec.roomTempEncode t = some r ↔ 2 * (t - 10) = (r.toNat : Rat)) ∧
  (∀ t : Rat, (∀ r : Byte, 2 * (t - 10) ≠ (r.toNat : Rat)) → Codec.roomTempEncode t = none)

/-- R80, R82: the set temperature conversions are exact, and nothing between two codes is taken. -/
def Obligations.SetTemperatureConversionsAreExact : Prop :=
  (∀ r : BitVec 4, Codec.setTempDecode r = (r.toNat : Int) + 16) ∧
  (∀ (t : Rat) (r : BitVec 4), Codec.setTempEncode t = some r ↔ t - 16 = (r.toNat : Rat)) ∧
  (∀ t : Rat, (∀ r : BitVec 4, t - 16 ≠ (r.toNat : Rat)) → Codec.setTempEncode t = none)

/-- R83, R84: the Settings conversions. `k` is the value of MASTER_CONFIG_BIT. -/
def Obligations.SettingsConversionsCopyTheFields : Prop :=
  (∀ (k : BitVec 1) (v : Settings) (c : BitVec 1), Codec.settingsEncode k v c =
    { config := k.toNat, mode := v.mode.toNat, resistorHeating := v.resistorHeating.toNat,
      running := v.running.toNat, changed := c.toNat, rawRoomTemperature := v.roomTemperature.toNat,
      plasma := v.plasma.toNat, fanSpeed := v.fanSpeed.toNat, rawSetTemperature := v.setTemperature.toNat,
      swivel := v.swivel.toNat, swirl := v.swirl.toNat }) ∧
  (∀ d : DecodedFrame,
    (d.mode = .unrecognized ∨ d.fanSpeed = .unrecognized → Codec.fieldsToSettings d = none) ∧
    (d.mode ≠ .unrecognized ∧ d.fanSpeed ≠ .unrecognized → Codec.fieldsToSettings d = some
      { mode := d.modeRaw, resistorHeating := d.resistorHeating, running := d.running,
        roomTemperature := d.rawRoomTemperature, plasma := d.plasma, fanSpeed := d.fanSpeedRaw,
        setTemperature := d.rawSetTemperature, swivel := d.swivel, swirl := d.swirl }))

/-- R91: SELECT_REPLY under every reply table. -/
def Obligations.SelectReplyTakesTheFirstMatchingRow : Prop :=
  ∀ (c : ReplicaParams) (x : Payload), Claims.Selects c x (selectReply c x)

/-- Each stand-alone call completes in every state, leaves the value of its function in `result` and changes nothing else.
That a call is an instruction and its value stands in `result` is the model's form (log entry 5). -/
def Obligations.CallsLeaveTheirValueInResult : Prop :=
  ∀ s : State,
    (∀ p, exec (.checksum p) s = .next { s with result := some (.byte (Codec.checksum p)) }) ∧
    (∀ f, exec (.encode f) s = .next { s with result := some (.encoded (Codec.encode f)) }) ∧
    (∀ x, exec (.decode x) s = .next { s with result := some (.decoded (Codec.decode x)) }) ∧
    (∀ r, exec (.roomTempDecode r) s = .next { s with result := some (.roomTemperature (Codec.roomTempDecode r)) }) ∧
    (∀ r, exec (.setTempDecode r) s = .next { s with result := some (.setTemperature (Codec.setTempDecode r)) }) ∧
    (∀ t, exec (.roomTempEncode t) s = .next { s with result := some (.roomCode (Codec.roomTempEncode t)) }) ∧
    (∀ t, exec (.setTempEncode t) s = .next { s with result := some (.setCode (Codec.setTempEncode t)) }) ∧
    (∀ v c, exec (.settingsEncode v c) s = .next { s with
      result := some (.fields (Codec.settingsEncode s.master.params.masterConfigBit v c)) }) ∧
    (∀ d, exec (.fieldsToSettings d) s = .next { s with result := some (.settings (Codec.fieldsToSettings d)) }) ∧
    exec .selectReplyRow1 s =
      .next { s with result := some (.reply (selectReply s.replica.params Claims.poll)) } ∧
    (∀ x, exec (.selectReplyRow2 x) s = .next { s with result := some (.reply (selectReply s.replica.params x)) }) ∧
    (∀ l, exec (.parseEditLine l) s = .next { s with result := some (.eventWord (parseEditLine l)) })

/-! REPLICA. -/

/-- R88: one intake byte, in every enabled state, and its word. -/
def Obligations.IntakeTakesOneByte : Prop :=
  (∀ (s : State) (b : Byte) (rest : List Byte), s.replica.phase = .intake → s.replica.rxFifo = b :: rest →
    (s.replica.buf.length < 5 →
      exec (.rRxByte b) s =
        .next { s with replica := { s.replica with buf := s.replica.buf ++ [b], rxFifo := rest } }) ∧
    (∀ b0 b1 b2 b3 b4, s.replica.buf = [b0, b1, b2, b3, b4] →
      exec (.rRxByte b) s = .next { s with replica := { s.replica with
        buf := [], rxFifo := rest, frame := some ⟨⟨b0, b1, b2, b3, b4⟩, b⟩, phase := .process } })) ∧
  (∀ b : Byte, decodeAt (.replica .intake) (Claims.rxWord b) = .instr (.rRxByte b))

/-- R89: resynchronisation discards the buffer and does nothing else; and its word. -/
def Obligations.IntakeTimeoutDiscardsThePartialFrame : Prop :=
  (∀ s : State, s.replica.phase = .intake → s.replica.rxFifo = [] → s.replica.buf.length < 6 →
    exec .rRxTimeout s = .next { s with replica := { s.replica with buf := [] } }) ∧
  decodeAt (.replica .intake) 0x2000#16 = .instr .rRxTimeout

/-- R90: every intake step keeps the buffer below 6 bytes; an overflowed intake reports its buffer and halts, instead of
any other step of REPLICA. -/
def Obligations.IntakeOverflowHalts : Prop :=
  (∀ (s t : State) (b : Byte), s.replica.buf.length < 6 →
    exec (.rRxByte b) s = .next t ∨ exec .rRxTimeout s = .next t → t.replica.buf.length < 6) ∧
  (∀ s : State, s.replica.phase = .intake → 6 ≤ s.replica.buf.length →
    fetch (.turn .replica) s = .run .intakeOverflow s ∧
    exec .intakeOverflow s = .next { s with replica := { s.replica with
      evt := s.replica.evt ++ [.intakeOverflow s.replica.buf], phase := .halted } })

/-- R92: decode and act on the frame, then the reply; the three ways through; and its word. -/
def Obligations.ProcessReportsAndAnswersTheFrame : Prop :=
  decodeAt (.replica .process) 0x0000#16 = .instr .rProcess ∧
  ∀ (s : State) (f : Frame), s.replica.phase = .process → s.replica.frame = some f →
    ∃ q, Claims.Selects s.replica.params f.payload q ∧
    (f.checksum = Claims.check f.payload →
      ∃ d, Claims.FieldsOf f d ∧
        exec .rProcess s = .next { s with replica := { s.replica with
          evt := if s.replica.last = some d.data then s.replica.evt else s.replica.evt ++ [.frameObserved d],
          last := some d.data, tx := s.replica.tx ++ [Claims.sealed q], reply := some (Claims.sealed q),
          echo := [], frame := none, phase := .echo } }) ∧
    (f.checksum ≠ Claims.check f.payload → s.replica.params.replyOnBadChecksum = false →
      exec .rProcess s = .next { s with replica := { s.replica with
        evt := s.replica.evt ++ [.checksumMismatch (Claims.check f.payload) f.checksum f],
        frame := none, phase := .intake } }) ∧
    (f.checksum ≠ Claims.check f.payload → s.replica.params.replyOnBadChecksum = true →
      exec .rProcess s = .next { s with replica := { s.replica with
        evt := s.replica.evt ++ [.checksumMismatch (Claims.check f.payload) f.checksum f],
        tx := s.replica.tx ++ [Claims.sealed q], reply := some (Claims.sealed q),
        echo := [], frame := none, phase := .echo } })

/-- The source's table: the three reply frames of 30_encoding.md section 3 ("[derived: from 40_codec.md rule R76]"), by the raw
payload. -/
def Obligations.SourceTableRepliesAreTheThreeFrames : Prop :=
  ∀ (s : State) (f : Frame), s.replica.phase = .process → s.replica.frame = some f →
    f.checksum = Claims.check f.payload → s.replica.params.replyTable = Claims.sourceTable →
    ∃ t, exec .rProcess s = .next t ∧
      t.replica.tx = s.replica.tx ++
        [if f.payload = Claims.poll then
          (match s.replica.params.replyEByte with
            | .e0 => ⟨⟨0xD1#8, 0x21#8, 0xE0#8, 0#8, 0#8⟩, 0x87#8⟩
            | .e2 => ⟨⟨0xD1#8, 0x21#8, 0xE2#8, 0#8, 0#8⟩, 0x81#8⟩)
        else ⟨⟨0x88#8, 0x26#8, 0#8, 0#8, 0#8⟩, 0xFB#8⟩]

/-- R93: one echo byte; the 6th is followed by the comparison of all 6 bytes; and its word. -/
def Obligations.EchoByteComparesAtSixBytes : Prop :=
  (∀ (s : State) (b : Byte) (rest : List Byte), s.replica.phase = .echo → s.replica.rxFifo = b :: rest →
    (s.replica.echo.length ≠ 5 →
      exec (.rEchoByte b) s =
        .next { s with replica := { s.replica with echo := s.replica.echo ++ [b], rxFifo := rest } }) ∧
    (∀ b0 b1 b2 b3 b4 sent, s.replica.echo = [b0, b1, b2, b3, b4] → s.replica.reply = some sent →
      exec (.rEchoByte b) s = .next { s with replica := { s.replica with
        evt := if sent = ⟨⟨b0, b1, b2, b3, b4⟩, b⟩ then s.replica.evt
          else s.replica.evt ++ [.echoMismatch sent ⟨⟨b0, b1, b2, b3, b4⟩, b⟩],
        rxFifo := rest, echo := [], phase := .intake } })) ∧
  (∀ b : Byte, decodeAt (.replica .echo) (Claims.rxWord b) = .instr (.rEchoByte b))

/-- R94: a timeout in the echo read changes nothing; that it is what REPLICA's turn fetches there; and its word. -/
def Obligations.EchoTimeoutChangesNothing : Prop :=
  (∀ s : State, s.replica.phase = .echo → s.replica.rxFifo = [] →
    exec .rEchoTimeout s = .next s ∧ fetch (.turn .replica) s = .run .rEchoTimeout s) ∧
  decodeAt (.replica .echo) 0x2000#16 = .instr .rEchoTimeout

/-- HALTED has no step, and no step of the machine leaves it once the run has started (41_replica.md section 4). That an event without a
step leaves the state as it is rests on log entry 3, the started mark on log entry 7. -/
def Obligations.HaltedReplicaStaysHalted : Prop :=
  (∀ (s : State) (i : Instr), s.replica.phase = .halted → i.engine = some .replica → i ≠ .reset .replica →
    exec i s = .next s) ∧
  (∀ s t : State, s.replica.phase = .halted → s.replica.started = true → step s = .next t →
    t.replica.phase = .halted ∧ t.replica.tx = s.replica.tx ∧ t.replica.evt = s.replica.evt ∧
    s.replica.rxFifo <+: t.replica.rxFifo)

/-- REPLICA's enabling table (41_replica.md section 4, "[derived: from rules R88 to R95]"): which step its turn fetches in
each phase, which words wait, and which words its decoder refuses. The overflowed intake is R90's. -/
def Obligations.ReplicaEnablingTable : Prop :=
  ∀ s : State,
    (∀ b rest, s.replica.phase = .intake → s.replica.buf.length < 6 → s.replica.rxFifo = b :: rest →
      fetch (.turn .replica) s = .run (.rRxByte b) s) ∧
    (s.replica.phase = .intake → s.replica.buf.length < 6 → s.replica.rxFifo = [] →
      fetch (.turn .replica) s = .run .rRxTimeout s) ∧
    (s.replica.phase = .process → fetch (.turn .replica) s = .run .rProcess s) ∧
    (∀ b rest, s.replica.phase = .echo → s.replica.rxFifo = b :: rest →
      fetch (.turn .replica) s = .run (.rEchoByte b) s) ∧
    (s.replica.phase = .echo → s.replica.rxFifo = [] → fetch (.turn .replica) s = .run .rEchoTimeout s) ∧
    (s.replica.phase = .halted → fetch (.turn .replica) s = .quiet s) ∧
    (∀ ph, ph ≠ .process → decodeAt (.replica ph) 0x0000#16 = .waits) ∧
    (∀ ph (b : Byte), ph = .process ∨ ph = .halted →
      decodeAt (.replica ph) (Claims.rxWord b) = .waits ∧ decodeAt (.replica ph) 0x2000#16 = .waits) ∧
    (∀ ph, decodeAt (.replica ph) 0x3000#16 = .rejected .wrongAgent) ∧
    (∀ ph (fid : BitVec 4) (v : Byte), decodeAt (.replica ph) (Claims.editWord fid v) = .rejected .wrongAgent) ∧
    (∀ ph, decodeAt (.replica ph) 0x5001#16 = .rejected .wrongAgent ∧
      decodeAt (.replica ph) 0x5002#16 = .rejected .wrongAgent ∧
      decodeAt (.replica ph) 0x5003#16 = .rejected .wrongAgent)

/-- An event offered where it is not enabled changes nothing: the byte stays in the FIFO (20_memory.md section 3,
41_replica.md section 4). That the step then answers the same state is the model's choice (log entry 3), and so is that an
overflowed intake takes neither byte nor timeout (log entry 24). -/
def Obligations.ReplicaEventsNotEnabledWait : Prop :=
  ∀ (s : State) (b : Byte),
    (s.replica.phase ≠ .intake ∨ s.replica.rxFifo.head? ≠ some b ∨ 6 ≤ s.replica.buf.length →
      exec (.rRxByte b) s = .next s) ∧
    (s.replica.phase ≠ .intake ∨ s.replica.rxFifo ≠ [] ∨ 6 ≤ s.replica.buf.length →
      exec .rRxTimeout s = .next s) ∧
    (s.replica.phase ≠ .intake ∨ s.replica.buf.length < 6 → exec .intakeOverflow s = .next s) ∧
    (s.replica.phase ≠ .process → exec .rProcess s = .next s) ∧
    (s.replica.phase ≠ .echo ∨ s.replica.rxFifo.head? ≠ some b → exec (.rEchoByte b) s = .next s) ∧
    (s.replica.phase ≠ .echo ∨ s.replica.rxFifo ≠ [] → exec .rEchoTimeout s = .next s)

/-! MASTER.TICK. -/

/-- R97: one bus tick: the choice of the settings and of the changed bit, the commit, the write; or the abort; and its
word. What becomes of TIMER's offer in the abort is left open here (log entry 29). -/
def Obligations.TickSendsPendingOrKeepAlive : Prop :=
  decodeAt (.tick .idle) 0x3000#16 = .instr .mTick ∧
  ∀ s : State, s.master.phase = .idle → s.master.tickOffered = true →
    let differs := s.master.pending ≠ s.master.lastSent
    let v := if differs then s.master.pending else s.master.lastSent
    let fields : Fields :=
      { config := s.master.params.masterConfigBit.toNat, mode := v.mode.toNat,
        resistorHeating := v.resistorHeating.toNat, running := v.running.toNat, changed := if differs then 1 else 0,
        rawRoomTemperature := v.roomTemperature.toNat, plasma := v.plasma.toNat, fanSpeed := v.fanSpeed.toNat,
        rawSetTemperature := v.setTemperature.toNat, swivel := v.swivel.toNat, swirl := v.swirl.toNat }
    (∀ fr, Claims.encodeResult fields = .ok fr →
      exec .mTick s = .next { s with master := { s.master with
        lastSent := v, tx := s.master.tx ++ [fr], txFrame := some fr, resp := [], phase := .resp,
        tickOffered := false } }) ∧
    (∀ fld, Claims.encodeResult fields = .fieldOutOfRange fld →
      ∃ offered, exec .mTick s = .next { s with master := { s.master with
        evt := s.master.evt ++ [.fieldOutOfRange fld], tickOffered := offered } })

/-- The first frame of a run without an edit, with MASTER_CONFIG_BIT 0, is 00 21 22 00 00 16 (70_reset_and_hazards.md
section 1, "[derived: from 42_master_tick.md rule R97 and 10_state.md rule R22]"), and so is every later one: however many
steps follow RESET, by whatever inputs but an edit taken. A tick on such banks does send it. The list of inputs and the
started mark are the model's (log entries 2, 7 and 30). -/
def Obligations.FirstFrameIsTheDefaultKeepAlive : Prop :=
  (∀ (n : Nat) (s t : State) (rest : List Input), s.master.started = false → s.master.cfg.masterConfigBit = 0#1 →
    s.inputs = .reset .master :: rest → (∀ inp ∈ rest, ¬ Claims.OffersEdit inp) → run n s = .next t →
    ∃ sent, t.master.tx = s.master.tx ++ sent ∧ ∀ f ∈ sent, f = Claims.defaultKeepAlive) ∧
  (∀ s : State, s.master.phase = .idle → s.master.tickOffered = true → s.master.lastSent = Claims.defaults →
    s.master.pending = Claims.defaults → s.master.params.masterConfigBit = 0#1 →
    ∃ t, exec .mTick s = .next t ∧ t.master.tx = s.master.tx ++ [Claims.defaultKeepAlive])

/-- With legal banks a tick always transmits, and each difference between the banks is sent with changed = 1 on exactly
one tick ("[derived: from 42_master_tick.md rules R97 and R99]", 70_reset_and_hazards.md section 2): the changed tick leaves
the banks equal, and a tick on equal banks sends changed = 0. -/
def Obligations.ChangedBitIsSentOnExactlyOneTick : Prop :=
  ∀ s : State, s.master.phase = .idle → s.master.tickOffered = true → s.master.LegalBanks →
    ∃ t fr, exec .mTick s = .next t ∧ t.master.tx = s.master.tx ++ [fr] ∧ t.master.txFrame = some fr ∧
      t.master.phase = .resp ∧ t.master.evt = s.master.evt ∧
      t.master.lastSent = s.master.pending ∧ t.master.pending = s.master.pending ∧
      fr.checksum = Claims.check fr.payload ∧
      fr.payload.b0.toNat / 128 = s.master.params.masterConfigBit.toNat ∧
      (fr.payload.b0.toNat % 2 = 1 ↔ s.master.pending ≠ s.master.lastSent)

/-- R98: one response byte; the 12th surfaces all twelve; and its word. -/
def Obligations.ResponseByteSurfacesTwelve : Prop :=
  (∀ (s : State) (b : Byte) (rest : List Byte), s.master.phase = .resp → s.master.rxFifo = b :: rest →
    (s.master.resp.length ≠ 11 →
      exec (.mRespByte b) s =
        .next { s with master := { s.master with resp := s.master.resp ++ [b], rxFifo := rest } }) ∧
    (s.master.resp.length = 11 →
      exec (.mRespByte b) s = .next { s with master := { s.master with
        evt := s.master.evt ++ [.response (s.master.resp ++ [b])], resp := [], rxFifo := rest, phase := .idle } })) ∧
  (∀ b : Byte, decodeAt (.tick .resp) (Claims.rxWord b) = .instr (.mRespByte b))

/-- R99: a timeout reports the bytes received so far and ends the read; the banks are not rolled back; and its word. -/
def Obligations.ResponseTimeoutReportsShortRead : Prop :=
  (∀ s : State, s.master.phase = .resp → s.master.rxFifo = [] →
    exec .mRespTimeout s = .next { s with master := { s.master with
      evt := s.master.evt ++ [.shortRead s.master.resp], resp := [], phase := .idle } }) ∧
  decodeAt (.tick .resp) 0x2000#16 = .instr .mRespTimeout

/-- MASTER.TICK's enabling table (42_master_tick.md): which step its turn fetches in each phase, which words wait, the held
tick, and the refused STEP word; and MASTER.EDIT's events in every phase, handed over from the EDIT port (60_exceptions.md
section 4). That a RESET word in the EDIT port is fetched there as RESET of MASTER and leaves the port is the model's choice
(log entry 34), and so is the form of a turn (log entry 2). -/
def Obligations.MasterTickEnablingTable : Prop :=
  ∀ s : State,
    (s.master.phase = .idle → s.master.tickOffered = true → fetch (.turn .masterTick) s = .run .mTick s) ∧
    (s.master.phase = .idle → s.master.tickOffered = false → fetch (.turn .masterTick) s = .quiet s) ∧
    (∀ b rest, s.master.phase = .resp → s.master.rxFifo = b :: rest →
      fetch (.turn .masterTick) s = .run (.mRespByte b) s) ∧
    (s.master.phase = .resp → s.master.rxFifo = [] → fetch (.turn .masterTick) s = .run .mRespTimeout s) ∧
    (∀ b : Byte, decodeAt (.tick .idle) (Claims.rxWord b) = .waits) ∧
    decodeAt (.tick .idle) 0x2000#16 = .waits ∧ decodeAt (.tick .resp) 0x3000#16 = .waits ∧
    (∀ t, s.master.phase = .resp → s.master.tickOffered = true → step s = .next t → t.master.tickOffered = true) ∧
    (∀ w ws i, s.master.editPort = w :: ws → decodeAt .edit w = .instr i →
      fetch (.turn .masterEdit) s = .run i { s with master := { s.master with editPort := ws } }) ∧
    (∀ ph, decodeAt (.tick ph) 0x0000#16 = .rejected .wrongAgent) ∧
    decodeAt .edit 0x0000#16 = .rejected .wrongAgent

/-- An event offered where it is not enabled changes nothing: the byte stays in the FIFO and the tick is held
(20_memory.md section 3, 42_master_tick.md). That the step then answers the same state is the model's choice (log
entry 3). -/
def Obligations.MasterEventsNotEnabledWait : Prop :=
  ∀ (s : State) (b : Byte),
    (s.master.phase ≠ .idle ∨ s.master.tickOffered = false → exec .mTick s = .next s) ∧
    (s.master.phase ≠ .resp ∨ s.master.rxFifo.head? ≠ some b → exec (.mRespByte b) s = .next s) ∧
    (s.master.phase ≠ .resp ∨ s.master.rxFifo ≠ [] → exec .mRespTimeout s = .next s)

/-! MASTER.EDIT. -/

/-- R101: M_EDIT of each attribute and of an unknown field id, for every code, in every state; and their words. -/
def Obligations.EditReplacesOneFieldOfLastSent : Prop :=
  Claims.Edits .mEditMode (· ≤ 4) (fun v s => { s with mode := BitVec.ofNat 3 v.toNat }) ∧
  Claims.Edits .mEditResistorHeating (· ≤ 1) (fun v s => { s with resistorHeating := BitVec.ofNat 1 v.toNat }) ∧
  Claims.Edits .mEditRunning (· ≤ 1) (fun v s => { s with running := BitVec.ofNat 1 v.toNat }) ∧
  Claims.Edits .mEditRoomTemperature (· ≤ 255) (fun v s => { s with roomTemperature := v }) ∧
  Claims.Edits .mEditPlasma (· ≤ 1) (fun v s => { s with plasma := BitVec.ofNat 1 v.toNat }) ∧
  Claims.Edits .mEditFanSpeed (· ∈ [0, 1, 2, 4]) (fun v s => { s with fanSpeed := BitVec.ofNat 3 v.toNat }) ∧
  Claims.Edits .mEditSetTemperature (· ≤ 15) (fun v s => { s with setTemperature := BitVec.ofNat 4 v.toNat }) ∧
  Claims.Edits .mEditSwivel (· ≤ 1) (fun v s => { s with swivel := BitVec.ofNat 1 v.toNat }) ∧
  Claims.Edits .mEditSwirl (· ≤ 1) (fun v s => { s with swirl := BitVec.ofNat 1 v.toNat }) ∧
  (∀ (fid : BitVec 4) (v : Byte) (s : State), 8 < fid.toNat →
    exec (.mEditUnknownFid fid v) s =
      .next { s with master := { s.master with evt := s.master.evt ++ [.userInputError .unknownAttribute] } }) ∧
  (∀ v : Byte,
    decodeAt .edit (Claims.editWord 0#4 v) = .instr (.mEditMode v) ∧
    decodeAt .edit (Claims.editWord 1#4 v) = .instr (.mEditResistorHeating v) ∧
    decodeAt .edit (Claims.editWord 2#4 v) = .instr (.mEditRunning v) ∧
    decodeAt .edit (Claims.editWord 3#4 v) = .instr (.mEditRoomTemperature v) ∧
    decodeAt .edit (Claims.editWord 4#4 v) = .instr (.mEditPlasma v) ∧
    decodeAt .edit (Claims.editWord 5#4 v) = .instr (.mEditFanSpeed v) ∧
    decodeAt .edit (Claims.editWord 6#4 v) = .instr (.mEditSetTemperature v) ∧
    decodeAt .edit (Claims.editWord 7#4 v) = .instr (.mEditSwivel v) ∧
    decodeAt .edit (Claims.editWord 8#4 v) = .instr (.mEditSwirl v)) ∧
  (∀ (fid : BitVec 4) (v : Byte), 8 < fid.toNat →
    decodeAt .edit (Claims.editWord fid v) = .instr (.mEditUnknownFid fid v))

/-- R102: each M_EDIT_REJECT reports its reason and changes nothing else; and their words. -/
def Obligations.EditRejectReportsItsReason : Prop :=
  (∀ s : State,
    exec .mEditRejectNoEquals s =
      .next { s with master := { s.master with evt := s.master.evt ++ [.userInputError .noEquals] } } ∧
    exec .mEditRejectUnknownAttribute s =
      .next { s with master := { s.master with evt := s.master.evt ++ [.userInputError .unknownAttribute] } } ∧
    exec .mEditRejectBadValue s =
      .next { s with master := { s.master with evt := s.master.evt ++ [.userInputError .badValue] } }) ∧
  decodeAt .edit 0x5001#16 = .instr .mEditRejectNoEquals ∧
  decodeAt .edit 0x5002#16 = .instr .mEditRejectUnknownAttribute ∧
  decodeAt .edit 0x5003#16 = .instr .mEditRejectBadValue

/-- Of two edits taken between two ticks only the last survives (70_reset_and_hazards.md section 2, "[derived: from
43_master_edit.md rule R101]"): after any first edit, the second, where it is taken, gives the pending bank it would have
given alone. -/
def Obligations.OnlyTheLastEditSurvives : Prop :=
  ∀ (s s1 t1 t2 : State) (i j : Instr), Claims.IsEdit i → Claims.IsEdit j →
    exec i s = .next s1 → exec j s1 = .next t1 → exec j s = .next t2 → t1.master.evt = s1.master.evt →
    t1.master.pending = t2.master.pending

/-- An edit to the last-sent value makes the banks equal, whatever was pending (43_master_edit.md section 1, a corner case of
M_EDIT). -/
def Obligations.EditToLastSentValueCancels : Prop :=
  ∀ (s : State) (fid : BitVec 4), fid.toNat ≤ 8 → s.master.lastSent.legal →
    ∀ fld, EditField.ofFid fid = some fld →
      ∃ t, exec (editInstr fid (s.master.lastSent.get fld)) s = .next t ∧
        t.master.pending = s.master.lastSent ∧ t.master.lastSent = s.master.lastSent

/-- The word of every line (43_master_edit.md section 2). Which characters are whitespace is the model's choice (log
entry 13). -/
def Obligations.ParseEditLineGivesOneWord : Prop :=
  ∀ p t q : Text, Claims.Blank p → Claims.Blank q → Claims.Trimmed t →
    ('=' ∉ t → parseEditLine (p ++ t ++ q) = 0x5001#16) ∧
    (∀ a v, t = a ++ '=' :: v → '=' ∉ a →
      ((∀ name ∈ Claims.attributeNames, a ≠ name.toList) → parseEditLine (p ++ t ++ q) = 0x5002#16) ∧
      (∀ n, (h : n < Claims.attributeNames.length) → a = (Claims.attributeNames[n]).toList →
        parseEditLine (p ++ t ++ q) = Claims.wordOf n (Claims.codeOf n v)))

/-- R109: PARSE_DECIMAL takes exactly the texts of the grammar, each with its exact value. -/
def Obligations.ParseDecimalIsExactOnTheGrammar : Prop :=
  (∀ d : Claims.Decimal, d.InGrammar → Parser.parseDecimal d.text = some d.value) ∧
  (∀ (v : Text) (q : Rat), Parser.parseDecimal v = some q →
    ∃ d : Claims.Decimal, d.InGrammar ∧ d.text = v ∧ d.value = q)

/-- R107, R108: a temperature text is taken exactly where it is in the grammar and its value is that of a code. -/
def Obligations.TemperatureValuesTakeExactCodesOnly : Prop :=
  ∀ v : Text,
    (∀ c : Byte, Parser.roomValue v = some c ↔
      ∃ d : Claims.Decimal, d.InGrammar ∧ d.text = v ∧ d.value = (c.toNat : Rat) / 2 + 10) ∧
    (∀ c : Byte, Parser.setValue v = some c ↔
      c.toNat ≤ 15 ∧ ∃ d : Claims.Decimal, d.InGrammar ∧ d.text = v ∧ d.value = (c.toNat : Rat) + 16)

/-! RESET. -/

/-- What RESET leaves (70_reset_and_hazards.md section 1), in an instance whose run has not started, and that it takes every
real period and timeout that is legal (00_scope.md section 4, 10_state.md section 5). The started mark, the form of a
duration and what becomes of the streams and of the environment's fields are the model's (log entries 6, 7, 11, 16 and
23). -/
def Obligations.ResetLeavesTheResetValues : Prop :=
  (∀ (s : State) (names : Nat → ℝ) (x : ℝ), s.replica.started = false →
    s.replica.cfg.rxTimeoutT.Denotes names x → 0 < x →
    exec (.reset .replica) s = .next { s with replica :=
      { phase := .intake, buf := [], frame := none, last := none, reply := none, echo := [],
        params := s.replica.cfg, rxFifo := s.replica.rxFifo, tx := s.replica.tx, evt := s.replica.evt,
        cfg := s.replica.cfg, started := false } }) ∧
  (∀ (s : State) (names : Nat → ℝ) (n x : ℝ), s.master.started = false →
    s.master.cfg.periodN.Denotes names n → s.master.cfg.rxTimeoutT.Denotes names x → 2 ≤ n → 0 < x →
    exec (.reset .master) s = .next { s with master :=
      { lastSent := Claims.defaults, pending := Claims.defaults, phase := .idle, txFrame := none, resp := [],
        params := s.master.cfg, rxFifo := s.master.rxFifo, tx := s.master.tx, evt := s.master.evt,
        tickOffered := s.master.tickOffered, editPort := s.master.editPort, cfg := s.master.cfg,
        started := false } }) ∧
  (∀ n x : ℝ, 2 ≤ n → 0 < x → ∃ (names : Nat → ℝ) (d e : Seconds), d.Denotes names n ∧ e.Denotes names x ∧
    ∀ s : State, s.master.started = false → s.master.cfg.periodN = d → s.master.cfg.rxTimeoutT = e →
      ∃ t, exec (.reset .master) s = .next t ∧ t.master.params = s.master.cfg)

/-- R38, R22: the values the spec gives State.reset, the parameters at their defaults where the spec gives one. -/
def Obligations.ResetStateHoldsTheSpecValues : Prop :=
  let r := State.reset.replica
  let m := State.reset.master
  r.phase = .intake ∧ r.buf = [] ∧ r.frame = none ∧ r.last = none ∧ r.reply = none ∧ r.echo = [] ∧
  r.params.replyEByte = .e0 ∧ r.params.replyTable = Claims.sourceTable ∧ r.params.replyOnBadChecksum = false ∧
  m.lastSent = Claims.defaults ∧ m.pending = Claims.defaults ∧ m.phase = .idle ∧ m.txFrame = none ∧ m.resp = [] ∧
  m.params.masterConfigBit = 0#1

/-- RESET occurs only as the first event of a run (70_reset_and_hazards.md section 1). That it is held afterwards, and the
mark it reads, are the model's form of that rule (log entry 7). -/
def Obligations.ResetIsTheFirstEventOnly : Prop :=
  (∀ s : State, s.replica.started = true → exec (.reset .replica) s = .next s) ∧
  (∀ s : State, s.master.started = true → exec (.reset .master) s = .next s) ∧
  (∀ s t : State, step s = .next t →
    (s.replica.started = true → t.replica.started = true) ∧ (s.master.started = true → t.master.started = true))

/-- A configuration that is not legal is refused (70_reset_and_hazards.md section 1, 10_state.md section 5), in an instance
whose run has not started (the mark is the model's, log entry 7; refusing at RESET is log entry 11; the form of a
duration is log entry 23). -/
def Obligations.ResetRefusesIllegalConfigurations : Prop :=
  (∀ (s : State) (names : Nat → ℝ) (n x : ℝ), s.master.started = false →
    s.master.cfg.periodN.Denotes names n → s.master.cfg.rxTimeoutT.Denotes names x → n < 2 ∨ x ≤ 0 →
    exec (.reset .master) s = .refused (.illegalConfiguration .master)) ∧
  (∀ (s : State) (names : Nat → ℝ) (x : ℝ), s.replica.started = false →
    s.replica.cfg.rxTimeoutT.Denotes names x → x ≤ 0 →
    exec (.reset .replica) s = .refused (.illegalConfiguration .replica))

/-! Decoding and the step. -/

/-- R72: which words spell no event and are refused at every port, and that every other word spells exactly one. -/
def Obligations.ReservedWordsAreRefused : Prop :=
  ∀ w : EventWord,
    (Claims.Reserved w → ∀ p, ∃ r, decodeAt p w = .rejected r) ∧
    (¬ Claims.Reserved w → ∃ e, decodeEvent w = .ok e ∧ encodeEvent e = w)

/-- A reserved word at the EDIT port stops the step by name (30_encoding.md section 4; the refusal's name is the model's, log
entry 18). -/
def Obligations.StepRefusesReservedEditWords : Prop :=
  ∀ (s : State) (w : EventWord) (ws : List EventWord) (rest : List Input),
    s.inputs = .turn .masterEdit :: rest → s.master.editPort = w :: ws → Claims.Reserved w →
    ∃ r, step s = .refused (.eventWord w r)

/-- Decoding an encoded instruction gives it back, for every well-formed instruction; every step of an agent but
INTAKE_OVERFLOW has a word. -/
def Obligations.DecodeEncodeGivesTheInstructionBack : Prop :=
  ∀ i : Instr, WellFormed i = true →
    (∀ p w, i.port = some p → encode i = some (.event w) → decodeAt p w = .instr i) ∧
    (∀ x, encode i = some (.replyPayload x) → decodeReplyPayload x = i) ∧
    (i.isCall = false → i ≠ .intakeOverflow → ∃ p w, i.port = some p ∧ encode i = some (.event w))

/-- What the decoder reads at any port is well formed, and its encoding is the word. -/
def Obligations.EncodeDecodeGivesTheWordBack : Prop :=
  ∀ (p : Port) (w : EventWord) (i : Instr), decodeAt p w = .instr i →
    WellFormed i = true ∧ encode i = some (.event w)

/-- A few words written out from the event-word table (30_encoding.md section 4). -/
def Obligations.WrittenOutWordsDecode : Prop :=
  decodeAt (.replica .intake) 0b0001000011000001#16 = .instr (.rRxByte 0xC1#8) ∧
  decodeAt (.replica .process) 0b0000000000000000#16 = .instr .rProcess ∧
  decodeAt (.tick .idle) 0b0011000000000000#16 = .instr .mTick ∧
  decodeAt .edit 0b0100001100100001#16 = .instr (.mEditRoomTemperature 33#8) ∧
  decodeAt .edit 0b0101000000000010#16 = .instr .mEditRejectUnknownAttribute ∧
  decodeAt (.tick .idle) 0b1111000000000000#16 = .instr (.reset .master)

/-- A step runs the instruction that the agent's event word decodes to; around it the step takes the input, hands the
EDIT port's word over, and marks the engine's run as started (log entries 2, 7 and 30; of a RESET word in the EDIT port,
34). -/
def Obligations.StepRunsTheDecodedInstruction : Prop :=
  ∀ (s : State) (a : Agent) (rest : List Input) (w : EventWord) (i : Instr),
    s.inputs = .turn a :: rest → ¬ (a = .replica ∧ s.replica.phase = .intake ∧ 6 ≤ s.replica.buf.length) →
    s.eventWord? a = some w → decodeAt (s.port a) w = .instr i →
    let u : State :=
      if a = .masterEdit then
        { s with inputs := rest, master := { s.master with editPort := s.master.editPort.tail } }
      else { s with inputs := rest }
    (∀ t, exec i u = .next t → step s = .next (t.markStarted i.engine)) ∧
    (∀ f, exec i u = .fault f → step s = .fault f) ∧
    (∀ r, exec i u = .refused r → step s = .refused r)

/-- The other inputs: the environment's acts (20_memory.md section 3, 60_exceptions.md sections 8 and 9), an event word offered
to an agent (30_encoding.md section 4), a RESET, and a call. The list of inputs is the model's form (log entry 2), and so are
the started mark (7 and 30), the call and its result (5 and 27), the CFG port as data (11), the refusals' names (11, 18
and 27) and that a word changes nothing that has no step, or that waits at the EDIT port for others before it (3),
and a RESET word offered to MASTER.EDIT (34). -/
def Obligations.StepTakesTheEnvironmentsActs : Prop :=
  ∀ (s : State) (rest : List Input),
    (∀ b, s.inputs = .arrive .replica b :: rest →
      step s = .next { s with inputs := rest, replica := { s.replica with rxFifo := s.replica.rxFifo ++ [b] } }) ∧
    (∀ b, s.inputs = .arrive .master b :: rest →
      step s = .next { s with inputs := rest, master := { s.master with rxFifo := s.master.rxFifo ++ [b] } }) ∧
    (s.inputs = .timer :: rest →
      step s = .next { s with inputs := rest, master := { s.master with tickOffered := true } }) ∧
    (∀ l, s.inputs = .consoleLine l :: rest →
      step s = .next { s with
        inputs := rest, master := { s.master with editPort := s.master.editPort ++ [parseEditLine l] } }) ∧
    (∀ w, s.inputs = .editWord w :: rest →
      step s = .next { s with inputs := rest, master := { s.master with editPort := s.master.editPort ++ [w] } }) ∧
    (∀ c, s.inputs = .configureReplica c :: rest →
      step s = .next { s with inputs := rest, replica := { s.replica with cfg := c } }) ∧
    (∀ c, s.inputs = .configureMaster c :: rest →
      step s = .next { s with inputs := rest, master := { s.master with cfg := c } }) ∧
    (∀ e, s.inputs = .reset e :: rest →
      (∀ t, exec (.reset e) { s with inputs := rest } = .next t → step s = .next (t.markStarted (some e))) ∧
      (∀ r, exec (.reset e) { s with inputs := rest } = .refused r → step s = .refused r) ∧
      ∀ f, step s ≠ .fault f) ∧
    (∀ a w, s.inputs = .event a w :: rest →
      (∀ i, decodeAt (s.port a) w = .instr i → a ≠ .masterEdit ∨ w = 0xF000#16 →
        (∀ t, exec i { s with inputs := rest } = .next t → step s = .next (t.markStarted i.engine)) ∧
        (∀ f, exec i { s with inputs := rest } = .fault f → step s = .fault f) ∧
        (∀ r, exec i { s with inputs := rest } = .refused r → step s = .refused r)) ∧
      (∀ i, decodeAt (s.port a) w = .instr i → a = .masterEdit → w ≠ 0xF000#16 →
        (∀ ws t, s.master.editPort = w :: ws →
          exec i { s with inputs := rest, master := { s.master with editPort := ws } } = .next t →
          step s = .next (t.markStarted (some .master))) ∧
        (s.master.editPort.head? ≠ some w → step s = .next { s with inputs := rest })) ∧
      (decodeAt (s.port a) w = .waits → step s = .next { s with inputs := rest }) ∧
      (∀ r, decodeAt (s.port a) w = .rejected r → step s = .refused (.eventWord w r))) ∧
    (∀ i, s.inputs = .call i :: rest →
      (i.isCall = true → step s = exec i { s with inputs := rest }) ∧
      (i.isCall = false → step s = .refused .notACall))

/-! The whole machine. -/

/-- Every step keeps the invariants of both engines (10_state.md section 4, "[derived: from rules R88 to R94 of 41_replica.md
and R97 to R99 of 42_master_tick.md]"). -/
def Obligations.EveryStepKeepsTheEngineInvariants : Prop :=
  ∀ s t : State, s.Inv → step s = .next t → t.Inv

/-- Every step keeps the banks legal (10_state.md section 2: "No step writes one into a bank"). -/
def Obligations.EveryStepKeepsTheBanksLegal : Prop :=
  ∀ s t : State, s.master.LegalBanks → step s = .next t → t.master.LegalBanks

/-- The invariants hold at State.reset. -/
def Obligations.ResetStateMeetsTheInvariants : Prop :=
  State.reset.Inv ∧ State.reset.master.LegalBanks ∧ State.reset.FaultFree

/-- Under byte-at-a-time intake HALTED is not reached ("[derived: from rule R88]", 41_replica.md section 1), and no step
faults; the two faults occur exactly in the states that the invariants rule out (log entry 17). -/
def Obligations.InvariantStatesNeverHaltOrFault : Prop :=
  (∀ s : State, s.Inv → s.FaultFree → (∀ t, step s = .next t → t.FaultFree) ∧ (∀ f, step s ≠ .fault f)) ∧
  (∀ (i : Instr) (s : State) (f : Fault), exec i s = .fault f ↔
    (i = .rProcess ∧ s.replica.phase = .process ∧ s.replica.frame = none ∧ f = .processWithoutFrame) ∨
    (∃ b rest, i = .rEchoByte b ∧ s.replica.phase = .echo ∧ s.replica.rxFifo = b :: rest ∧
      s.replica.echo.length = 5 ∧ s.replica.reply = none ∧ f = .echoWithoutReply))

/-- Every step appends at most one record to each output stream and removes none (60_exceptions.md sections 2 and 4,
10_state.md section 5). -/
def Obligations.EveryStepAppendsAtMostOneRecord : Prop :=
  ∀ s t : State, step s = .next t →
    (t.replica.evt = s.replica.evt ∨ ∃ e, t.replica.evt = s.replica.evt ++ [e]) ∧
    (t.replica.tx = s.replica.tx ∨ ∃ f, t.replica.tx = s.replica.tx ++ [f]) ∧
    (t.master.evt = s.master.evt ∨ ∃ e, t.master.evt = s.master.evt ++ [e]) ∧
    (t.master.tx = s.master.tx ∨ ∃ f, t.master.tx = s.master.tx ++ [f])

/-- MASTER transmits only from IDLE, REPLICA only from PROCESS (70_reset_and_hazards.md section 3, "[derived: from
42_master_tick.md rule R97 and 41_replica.md rule R92]"); every frame sent carries its checksum. -/
def Obligations.EnginesTransmitOnlyInTheirPhase : Prop :=
  ∀ s t : State, step s = .next t →
    (t.replica.tx ≠ s.replica.tx →
      s.replica.phase = .process ∧ t.replica.phase = .echo ∧
      ∃ q, t.replica.tx = s.replica.tx ++ [Claims.sealed q] ∧ t.replica.reply = some (Claims.sealed q)) ∧
    (t.master.tx ≠ s.master.tx →
      s.master.phase = .idle ∧ t.master.phase = .resp ∧
      ∃ q, t.master.tx = s.master.tx ++ [Claims.sealed q] ∧ t.master.txFrame = some (Claims.sealed q))

/-- An instruction of one engine leaves the other as it is, and a call leaves both (20_memory.md section 5, 10_state.md
section 1; the result of a call is log entry 5). -/
def Obligations.InstructionsLeaveTheOtherEngine : Prop :=
  ∀ (i : Instr) (s t : State), exec i s = .next t →
    (i.engine ≠ some .replica → t.replica = s.replica) ∧ (i.engine ≠ some .master → t.master = s.master) ∧
    (i.isCall = false → t.result = s.result) ∧ t.inputs = s.inputs

/-- Which instructions write the two banks (10_state.md section 2). -/
def Obligations.OnlyTickAndEditWriteTheBanks : Prop :=
  ∀ (i : Instr) (s t : State), exec i s = .next t →
    (t.master.lastSent ≠ s.master.lastSent → i = .mTick ∨ i = .reset .master) ∧
    (t.master.pending ≠ s.master.pending → Claims.IsEdit i ∨ i = .reset .master)

/-- A step changes a receive FIFO only by taking its head or by a byte arriving at its tail (20_memory.md sections 3 and 4),
and the EDIT port likewise; in a started run an edit becomes pending only by taking the word that heads the EDIT port, so
that edits are taken in the order of delivery (60_exceptions.md section 4; the mark is the model's, log entry 7). -/
def Obligations.FifosLoseOnlyTheirHead : Prop :=
  ∀ s t : State, step s = .next t →
    (t.replica.rxFifo = s.replica.rxFifo ∨ (∃ b, s.replica.rxFifo = b :: t.replica.rxFifo) ∨
      ∃ b, t.replica.rxFifo = s.replica.rxFifo ++ [b]) ∧
    (t.master.rxFifo = s.master.rxFifo ∨ (∃ b, s.master.rxFifo = b :: t.master.rxFifo) ∨
      ∃ b, t.master.rxFifo = s.master.rxFifo ++ [b]) ∧
    (t.master.editPort = s.master.editPort ∨ (∃ w, s.master.editPort = w :: t.master.editPort) ∨
      ∃ w, t.master.editPort = s.master.editPort ++ [w]) ∧
    (s.master.started = true → t.master.pending ≠ s.master.pending →
      ∃ fid v, s.master.editPort = Claims.editWord fid v :: t.master.editPort ∧ fid.toNat ≤ 8)

/-- Once a run has started no step writes the parameters (10_state.md section 5, 20_memory.md section 5; the mark is the
model's, log entry 7). -/
def Obligations.ParametersAreFixedDuringARun : Prop :=
  ∀ s t : State, step s = .next t →
    (s.replica.started = true → t.replica.params = s.replica.params) ∧
    (s.master.started = true → t.master.params = s.master.params)

/-- No instruction but RESET depends on PERIOD_N or on RX_TIMEOUT_T (00_scope.md section 4). -/
def Obligations.TimingParametersHaveNoEffect : Prop :=
  ∀ (i : Instr) (s : State) (t1 n t2 : Seconds), (∀ e, i ≠ .reset e) →
    exec i (Claims.retime t1 n t2 s) = Claims.mapNext (Claims.retime t1 n t2) (exec i s)

/-- The intake over six turns: the six bytes at the head of the FIFO become the frame to process (41_replica.md section 1;
turns and marks are log entries 2 and 7). -/
def Obligations.SixIntakeTurnsCollectAFrame : Prop :=
  ∀ (s : State) (f : Frame) (fifo : List Byte) (rest : List Input),
    s.replica.phase = .intake → s.replica.buf = [] → s.replica.rxFifo = f.toBytes ++ fifo →
    s.inputs = List.replicate 6 (.turn .replica) ++ rest →
    run 6 s = .next { s with inputs := rest, replica := { s.replica with
      rxFifo := fifo, frame := some f, phase := .process, started := true } }

/-- The response read over twelve turns: the twelve bytes at the head of the FIFO are surfaced, whatever they are
(70_reset_and_hazards.md section 2, "[derived: from 42_master_tick.md rule R98]"; turns and marks are log entries 2 and
7). -/
def Obligations.TwelveResponseTurnsSurfaceTheBytes : Prop :=
  ∀ (s : State) (bytes fifo : List Byte) (rest : List Input),
    s.master.phase = .resp → s.master.resp = [] → bytes.length = 12 → s.master.rxFifo = bytes ++ fifo →
    s.inputs = List.replicate 12 (.turn .masterTick) ++ rest →
    run 12 s = .next { s with inputs := rest, master := { s.master with
      rxFifo := fifo, evt := s.master.evt ++ [.response bytes], phase := .idle, started := true } }

/-- In ECHO REPLICA waits however many timeouts pass (70_reset_and_hazards.md section 2, "[derived: from 41_replica.md rule
R94]"; turns and marks are log entries 2 and 7). -/
def Obligations.EchoWaitDoesNotTimeOut : Prop :=
  ∀ (n : Nat) (s : State) (rest : List Input),
    s.replica.phase = .echo → s.replica.rxFifo = [] → s.replica.started = true →
    s.inputs = List.replicate n (.turn .replica) ++ rest →
    run n s = .next { s with inputs := rest }
end

