-- ==== Sys2Proof/Laws/Bits.lean ====
section
/-!
SUPPORT. Laws of the byte-order and bit-field helpers: a payload and its data word determine each other, a frame and its six
bytes do, and the three fields of an event word are read back.
-/

namespace Sys2Proof

theorem Payload.ofWord_word (p : Payload) : Payload.ofWord p.word = p := by
  obtain ⟨b0, b1, b2, b3, b4⟩ := p
  simp only [Payload.ofWord, Payload.word, Payload.mk.injEq]
  refine ⟨?_, ?_, ?_, ?_, ?_⟩ <;> (ext i hi; simp) <;> grind

theorem Payload.word_ofWord (d : DataWord) : (Payload.ofWord d).word = d := by
  simp only [Payload.ofWord, Payload.word]
  ext i hi
  simp only [BitVec.getElem_append, BitVec.getElem_extractLsb']
  grind

theorem Payload.word_injective {p q : Payload} (h : p.word = q.word) : p = q := by
  rw [← Payload.ofWord_word p, ← Payload.ofWord_word q, h]

@[simp] theorem Frame.ofBytes?_toBytes (f : Frame) : Frame.ofBytes? f.toBytes = some f := rfl

/-- Exactly six bytes spell a frame. -/
theorem Frame.ofBytes?_eq_some {l : List Byte} {f : Frame} : Frame.ofBytes? l = some f ↔ l = f.toBytes := by
  constructor
  · intro h
    match l, h with
    | [b0, b1, b2, b3, b4, k], h =>
      simp only [Frame.ofBytes?, Option.some.injEq] at h
      subst h; rfl
  · rintro rfl; rfl

theorem Frame.ofBytes?_isSome {l : List Byte} : (Frame.ofBytes? l).isSome = true ↔ l.length = 6 := by
  constructor
  · intro h
    obtain ⟨f, hf⟩ := Option.isSome_iff_exists.mp h
    rw [Frame.ofBytes?_eq_some.mp hf]; rfl
  · intro h
    match l, h with
    | [b0, b1, b2, b3, b4, k], _ => rfl

theorem Frame.ofBytes?_eq_none {l : List Byte} : Frame.ofBytes? l = none ↔ l.length ≠ 6 := by
  rw [← Option.not_isSome_iff_eq_none, not_iff_not, Frame.ofBytes?_isSome]

@[simp] theorem eventKind_eventWord (k f : BitVec 4) (d : Byte) : eventKind (eventWord k f d) = k := by
  unfold eventKind eventWord; ext i hi; simp; grind

@[simp] theorem eventFid_eventWord (k f : BitVec 4) (d : Byte) : eventFid (eventWord k f d) = f := by
  unfold eventFid eventWord; ext i hi; simp; grind

@[simp] theorem eventData_eventWord (k f : BitVec 4) (d : Byte) : eventData (eventWord k f d) = d := by
  unfold eventData eventWord; ext i hi; simp; grind

/-- An event word is its three fields. -/
theorem eventWord_eta (w : EventWord) : eventWord (eventKind w) (eventFid w) (eventData w) = w := by
  unfold eventKind eventFid eventData eventWord
  ext i hi
  simp only [BitVec.getElem_append, BitVec.getElem_extractLsb']
  grind

end Sys2Proof
end

