-- ==== Sys2Proof/Laws/Codec.lean ====
section
/-!
SUPPORT. Laws of CODEC: the codes ENCODE takes, the packed bytes and the fields of a data word as arithmetic on natural
numbers, and DECODE of a frame's six bytes.
-/

namespace Sys2Proof

/-- The data word as a number: byte 0 most significant (R14). -/
theorem Payload.word_toNat (p : Payload) :
    p.word.toNat =
      p.b0.toNat * 2 ^ 32 + p.b1.toNat * 2 ^ 24 + p.b2.toNat * 2 ^ 16 + p.b3.toNat * 2 ^ 8 + p.b4.toNat := by
  have := p.b0.isLt; have := p.b1.isLt; have := p.b2.isLt; have := p.b3.isLt; have := p.b4.isLt
  unfold Payload.word
  simp only [BitVec.toNat_append]
  rw [← Nat.shiftLeft_add_eq_or_of_lt (by assumption), ← Nat.shiftLeft_add_eq_or_of_lt (by assumption),
    ← Nat.shiftLeft_add_eq_or_of_lt (by assumption), ← Nat.shiftLeft_add_eq_or_of_lt (by assumption)]
  simp only [Nat.shiftLeft_eq]
  omega

/-- A slice of a word as arithmetic on its number. -/
theorem slice_toNat {n : Nat} (d : BitVec n) (i w : Nat) :
    (d.extractLsb' i w).toNat = d.toNat / 2 ^ i % 2 ^ w := by
  rw [BitVec.extractLsb'_toNat, Nat.shiftRight_eq_div_pow]

namespace Codec

theorem legalFan_iff (n : Nat) : legalFan n = true ↔ n ∈ [0, 1, 2, 4] := by
  simp [legalFan]; omega

theorem legalMode_iff (n : Nat) : legalMode n = true ↔ n ≤ 4 := by simp [legalMode]

/-- The checksum as a number before it is narrowed (R15, R76). -/
theorem checksum_toNat (p : Payload) :
    (checksum p).toNat =
      (p.b0.toNat + p.b1.toNat + p.b2.toNat + p.b3.toNat + p.b4.toNat) % 256 ^^^ 0x55 := by
  simp [checksum, BitVec.toNat_add, BitVec.toNat_xor]

/-- The field that ENCODE names: it is out of range, and every field before it in layout order is in range (R77). -/
theorem firstIllegal_eq_some {f : Fields} {fld : FieldName} :
    firstIllegal f = some fld ↔ legalValue fld (fieldValue f fld) = false ∧
      ∃ before after, layoutOrder = before ++ fld :: after ∧
        ∀ g ∈ before, legalValue g (fieldValue f g) = true := by
  simp [firstIllegal, List.find?_eq_some_iff_append]

/-- ENCODE names no field where every field is in range (R77). -/
theorem firstIllegal_eq_none {f : Fields} :
    firstIllegal f = none ↔ ∀ g ∈ layoutOrder, legalValue g (fieldValue f g) = true := by
  simp [firstIllegal]

theorem encode_eq_ok {f : Fields} {fr : Frame} :
    encode f = .ok fr ↔ firstIllegal f = none ∧ fr = withChecksum (packFields f) := by
  unfold encode
  cases firstIllegal f <;> simp [eq_comm]

theorem encode_eq_fieldOutOfRange {f : Fields} {fld : FieldName} :
    encode f = .fieldOutOfRange fld ↔ firstIllegal f = some fld := by
  unfold encode
  cases firstIllegal f <;> simp

/-- Byte 0 of R77 as a sum: the five fields do not overlap. -/
theorem pack_byte0 : ∀ a ∈ List.range 2, ∀ b ∈ List.range 5, ∀ c ∈ List.range 2, ∀ d ∈ List.range 2,
    ∀ e ∈ List.range 2, (a <<< 7 ||| b <<< 4 ||| c <<< 3 ||| d <<< 2 ||| 0 <<< 1 ||| e) =
      128 * a + 16 * b + 8 * c + 4 * d + e := by
  decide +kernel

/-- Byte 2 of R77 as a sum. -/
theorem pack_byte2 : ∀ a ∈ List.range 2, ∀ b ∈ List.range 5, ∀ c ∈ List.range 16,
    (a <<< 7 ||| b <<< 4 ||| c) = 128 * a + 16 * b + c := by
  decide +kernel

/-- DECODE of six bytes (R78). -/
theorem decode_toBytes (f : Frame) :
    decode f.toBytes =
      if checksum f.payload = f.checksum then .ok (unpack f.payload.word f.checksum)
      else .checksumMismatch (checksum f.payload) f.checksum f := by
  unfold decode decodeFrame
  rw [Frame.ofBytes?_toBytes]
  by_cases h : checksum f.payload = f.checksum
  · simp only [if_pos h]
  · simp only [if_neg h]

/-- Where DECODE answers a frame, it is the fields of a payload with that payload's checksum (R78). -/
theorem decode_eq_ok {x : List Byte} {d : DecodedFrame} :
    decode x = .ok d ↔
      ∃ p : Payload, x = p.toBytes ++ [checksum p] ∧ d = unpack p.word (checksum p) := by
  constructor
  · intro h
    cases hx : Frame.ofBytes? x with
    | none => simp [decode, hx] at h
    | some f =>
      rw [Frame.ofBytes?_eq_some] at hx
      rw [hx, decode_toBytes] at h
      split_ifs at h with hc
      cases h
      exact ⟨f.payload, by rw [hc, hx]; rfl, by rw [hc]⟩
  · rintro ⟨p, rfl, rfl⟩
    exact (decode_toBytes ⟨p, checksum p⟩).trans (if_pos rfl)

end Codec

/-- A row matches where R67 says so. -/
theorem ReplyRow.isMatch_iff {row : ReplyRow} {x : DataWord} :
    row.isMatch x = true ↔ x &&& row.mask = row.pattern &&& row.mask := by
  simp [ReplyRow.isMatch]

end Sys2Proof
end

