-- ==== Sys2Proof/Laws/Decode.lean ====
section
/-!
SUPPORT. Laws of the decoder and the encoder of event words: an event's word is read back, a word that spells an event is
that event's word, and how a word of each kind is read.
-/

namespace Sys2Proof

theorem RejectReason.ofCode_code (r : RejectReason) : RejectReason.ofCode r.code = some r := by
  cases r <;> rfl

theorem RejectReason.ofCode_eq_some {c : Byte} {r : RejectReason} :
    RejectReason.ofCode c = some r ↔ c = r.code := by
  constructor
  · revert c r; decide
  · rintro rfl; exact RejectReason.ofCode_code r

theorem EditField.ofFid_fid (fld : EditField) : EditField.ofFid fld.fid = some fld := by
  cases fld <;> rfl

theorem EditField.ofFid_eq_some {fid : BitVec 4} {fld : EditField} :
    EditField.ofFid fid = some fld ↔ fid = fld.fid := by
  constructor
  · revert fid fld; decide
  · rintro rfl; exact EditField.ofFid_fid fld

theorem EditField.ofFid_eq_none {fid : BitVec 4} : EditField.ofFid fid = none ↔ 9 ≤ fid.toNat := by
  revert fid; decide

theorem editInstr_fid (fid : BitVec 4) (v : Byte) :
    (editInstr fid v).event = some (.edit fid v) ∧ (editInstr fid v).port = some .edit := by
  unfold editInstr
  cases h : EditField.ofFid fid with
  | none => exact ⟨rfl, rfl⟩
  | some fld =>
    obtain rfl := EditField.ofFid_eq_some.mp h
    cases fld <;> exact ⟨rfl, rfl⟩

/-- The event word of an event spells that event (R69, R70). -/
theorem decodeEvent_encodeEvent (e : Event) : decodeEvent (encodeEvent e) = .ok e := by
  cases e with
  | editReject r => cases r <;> rfl
  | _ => simp [decodeEvent, encodeEvent, decodeBare]

/-- An event's word at a port selects what R70's table says. -/
theorem decodeAt_encodeEvent (p : Port) (e : Event) : decodeAt p (encodeEvent e) = portStep p e := by
  simp [decodeAt, decodeEvent_encodeEvent]

theorem decodeBare_eq_ok {w : EventWord} {e e' : Event} :
    decodeBare w e = .ok e' ↔ eventFid w = 0#4 ∧ eventData w = 0#8 ∧ e = e' := by
  unfold decodeBare
  split_ifs with h1 h2
  · simp [h1]
  · simp [h2]
  · simp_all

/-- No port but MASTER.EDIT's selects an edit or the report of one (R96, R100). -/
theorem decodeAt_not_edit {p : Port} {w : EventWord} {i : Instr} (hp : p ≠ .edit) (h : decodeAt p w = .instr i) :
    i.port ≠ some .edit := by
  unfold decodeAt at h
  cases he : decodeEvent w with
  | error r => rw [he] at h; cases h
  | ok e =>
    rw [he] at h
    cases p with
    | edit => exact absurd rfl hp
    | replica ph => cases e <;> cases ph <;> cases h <;> simp [Instr.port]
    | tick ph => cases e <;> cases ph <;> cases h <;> simp [Instr.port]

/-- A word that is rejected is rejected at every port. -/
theorem decodeAt_of_error {w : EventWord} {r : DecodeReject} (h : decodeEvent w = .error r) (p : Port) :
    decodeAt p w = .rejected r := by
  simp [decodeAt, h]

end Sys2Proof
end

