-- ==== Sys2Proof/Laws/Edit.lean ====
section
/-!
SUPPORT. Laws of the operands of an edit: each field of the replaced Settings value, and that a legal code keeps the value
legal.
-/

namespace Sys2Proof

variable (v : Byte) (s : Settings)

@[simp] theorem Settings.get_set (fld : EditField) (h : fld.legalCode v = true) : (s.set fld v).get fld = v := by
  have hm : ∀ n w : Nat, v.toNat < 2 ^ n → n ≤ w → (v.setWidth n).setWidth 8 = v := by
    intro n w hv _
    apply BitVec.eq_of_toNat_eq
    rw [BitVec.toNat_setWidth, BitVec.toNat_setWidth, Nat.mod_eq_of_lt hv, Nat.mod_eq_of_lt v.isLt]
  cases fld with
  | roomTemperature => rfl
  | mode =>
    have h1 : v.toNat ≤ 4 := (Codec.legalMode_iff _).mp h
    exact hm 3 8 (by omega) (by omega)
  | fanSpeed =>
    have h1 := (Codec.legalFan_iff _).mp h
    exact hm 3 8 (by simp at h1; omega) (by omega)
  | setTemperature =>
    have h1 : v.toNat ≤ 15 := of_decide_eq_true h
    exact hm 4 8 (by omega) (by omega)
  | resistorHeating =>
    have h1 : v.toNat ≤ 1 := of_decide_eq_true h
    exact hm 1 8 (by omega) (by omega)
  | running =>
    have h1 : v.toNat ≤ 1 := of_decide_eq_true h
    exact hm 1 8 (by omega) (by omega)
  | plasma =>
    have h1 : v.toNat ≤ 1 := of_decide_eq_true h
    exact hm 1 8 (by omega) (by omega)
  | swivel =>
    have h1 : v.toNat ≤ 1 := of_decide_eq_true h
    exact hm 1 8 (by omega) (by omega)
  | swirl =>
    have h1 : v.toNat ≤ 1 := of_decide_eq_true h
    exact hm 1 8 (by omega) (by omega)

/-- The other fields stay. -/
theorem Settings.get_set_of_ne {fld g : EditField} (h : g ≠ fld) : (s.set fld v).get g = s.get g := by
  cases fld <;> cases g <;> first | rfl | exact absurd rfl h

/-- A Settings value is its nine codes. -/
theorem Settings.ext_get {s t : Settings} (h : ∀ fld, s.get fld = t.get fld) : s = t := by
  obtain ⟨a1, a2, a3, a4, a5, a6, a7, a8, a9⟩ := s
  obtain ⟨b1, b2, b3, b4, b5, b6, b7, b8, b9⟩ := t
  have hw : ∀ {n : Nat} {a b : BitVec n}, n ≤ 8 → a.setWidth 8 = b.setWidth 8 → a = b := by
    intro n a b hn hab
    apply BitVec.eq_of_toNat_eq
    have := congrArg BitVec.toNat hab
    have ha : a.toNat < 2 ^ 8 := lt_of_lt_of_le a.isLt (Nat.pow_le_pow_right (by omega) hn)
    have hb : b.toNat < 2 ^ 8 := lt_of_lt_of_le b.isLt (Nat.pow_le_pow_right (by omega) hn)
    rwa [BitVec.toNat_setWidth, BitVec.toNat_setWidth, Nat.mod_eq_of_lt ha, Nat.mod_eq_of_lt hb] at this
  obtain rfl := hw (by omega) (h .mode)
  obtain rfl := hw (by omega) (h .resistorHeating)
  obtain rfl := hw (by omega) (h .running)
  obtain rfl : a4 = b4 := h .roomTemperature
  obtain rfl := hw (by omega) (h .plasma)
  obtain rfl := hw (by omega) (h .fanSpeed)
  obtain rfl := hw (by omega) (h .setTemperature)
  obtain rfl := hw (by omega) (h .swivel)
  obtain rfl := hw (by omega) (h .swirl)
  rfl

end Sys2Proof
end

