-- ==== Sys2Proof/Laws/State.lean ====
section
/-!
SUPPORT. The small lemmas of the state and of the operations of Machine/Ops.lean: each field after each update, true by rfl,
so that no later proof unfolds a record update; the meaning of each instruction as one rewriting lemma of exec.
-/

namespace Sys2Proof.Machine

section
variable (s : State) (r : Replica) (m : Master) (c : CallResult)

@[simp] theorem State.setReplica_replica : (s.setReplica r).replica = r := rfl
@[simp] theorem State.setReplica_master : (s.setReplica r).master = s.master := rfl
@[simp] theorem State.setReplica_result : (s.setReplica r).result = s.result := rfl
@[simp] theorem State.setReplica_inputs : (s.setReplica r).inputs = s.inputs := rfl
@[simp] theorem State.setMaster_replica : (s.setMaster m).replica = s.replica := rfl
@[simp] theorem State.setMaster_master : (s.setMaster m).master = m := rfl
@[simp] theorem State.setMaster_result : (s.setMaster m).result = s.result := rfl
@[simp] theorem State.setMaster_inputs : (s.setMaster m).inputs = s.inputs := rfl
@[simp] theorem State.setResult_replica : (s.setResult c).replica = s.replica := rfl
@[simp] theorem State.setResult_master : (s.setResult c).master = s.master := rfl
@[simp] theorem State.setResult_result : (s.setResult c).result = some c := rfl
@[simp] theorem State.setResult_inputs : (s.setResult c).inputs = s.inputs := rfl
@[simp] theorem State.setReplica_self : s.setReplica s.replica = s := rfl
@[simp] theorem State.setMaster_self : s.setMaster s.master = s := rfl
end

section
variable (e : Evt) (f : Frame) (r : Replica)

@[simp] theorem Replica.emit_phase : (r.emit e).phase = r.phase := rfl
@[simp] theorem Replica.emit_buf : (r.emit e).buf = r.buf := rfl
@[simp] theorem Replica.emit_frame : (r.emit e).frame = r.frame := rfl
@[simp] theorem Replica.emit_last : (r.emit e).last = r.last := rfl
@[simp] theorem Replica.emit_reply : (r.emit e).reply = r.reply := rfl
@[simp] theorem Replica.emit_echo : (r.emit e).echo = r.echo := rfl
@[simp] theorem Replica.emit_params : (r.emit e).params = r.params := rfl
@[simp] theorem Replica.emit_rxFifo : (r.emit e).rxFifo = r.rxFifo := rfl
@[simp] theorem Replica.emit_tx : (r.emit e).tx = r.tx := rfl
@[simp] theorem Replica.emit_evt : (r.emit e).evt = r.evt ++ [e] := rfl
@[simp] theorem Replica.emit_cfg : (r.emit e).cfg = r.cfg := rfl
@[simp] theorem Replica.emit_started : (r.emit e).started = r.started := rfl
@[simp] theorem Replica.txWrite_phase : (r.txWrite f).phase = r.phase := rfl
@[simp] theorem Replica.txWrite_buf : (r.txWrite f).buf = r.buf := rfl
@[simp] theorem Replica.txWrite_frame : (r.txWrite f).frame = r.frame := rfl
@[simp] theorem Replica.txWrite_last : (r.txWrite f).last = r.last := rfl
@[simp] theorem Replica.txWrite_reply : (r.txWrite f).reply = r.reply := rfl
@[simp] theorem Replica.txWrite_echo : (r.txWrite f).echo = r.echo := rfl
@[simp] theorem Replica.txWrite_params : (r.txWrite f).params = r.params := rfl
@[simp] theorem Replica.txWrite_rxFifo : (r.txWrite f).rxFifo = r.rxFifo := rfl
@[simp] theorem Replica.txWrite_tx : (r.txWrite f).tx = r.tx ++ [f] := rfl
@[simp] theorem Replica.txWrite_evt : (r.txWrite f).evt = r.evt := rfl
@[simp] theorem Replica.txWrite_cfg : (r.txWrite f).cfg = r.cfg := rfl
@[simp] theorem Replica.txWrite_started : (r.txWrite f).started = r.started := rfl
end

section
variable (e : Evt) (f : Frame) (m : Master)

@[simp] theorem Master.emit_lastSent : (m.emit e).lastSent = m.lastSent := rfl
@[simp] theorem Master.emit_pending : (m.emit e).pending = m.pending := rfl
@[simp] theorem Master.emit_phase : (m.emit e).phase = m.phase := rfl
@[simp] theorem Master.emit_txFrame : (m.emit e).txFrame = m.txFrame := rfl
@[simp] theorem Master.emit_resp : (m.emit e).resp = m.resp := rfl
@[simp] theorem Master.emit_params : (m.emit e).params = m.params := rfl
@[simp] theorem Master.emit_rxFifo : (m.emit e).rxFifo = m.rxFifo := rfl
@[simp] theorem Master.emit_tx : (m.emit e).tx = m.tx := rfl
@[simp] theorem Master.emit_evt : (m.emit e).evt = m.evt ++ [e] := rfl
@[simp] theorem Master.emit_tickOffered : (m.emit e).tickOffered = m.tickOffered := rfl
@[simp] theorem Master.emit_editPort : (m.emit e).editPort = m.editPort := rfl
@[simp] theorem Master.emit_cfg : (m.emit e).cfg = m.cfg := rfl
@[simp] theorem Master.emit_started : (m.emit e).started = m.started := rfl
@[simp] theorem Master.txWrite_lastSent : (m.txWrite f).lastSent = m.lastSent := rfl
@[simp] theorem Master.txWrite_pending : (m.txWrite f).pending = m.pending := rfl
@[simp] theorem Master.txWrite_phase : (m.txWrite f).phase = m.phase := rfl
@[simp] theorem Master.txWrite_txFrame : (m.txWrite f).txFrame = m.txFrame := rfl
@[simp] theorem Master.txWrite_resp : (m.txWrite f).resp = m.resp := rfl
@[simp] theorem Master.txWrite_params : (m.txWrite f).params = m.params := rfl
@[simp] theorem Master.txWrite_rxFifo : (m.txWrite f).rxFifo = m.rxFifo := rfl
@[simp] theorem Master.txWrite_tx : (m.txWrite f).tx = m.tx ++ [f] := rfl
@[simp] theorem Master.txWrite_evt : (m.txWrite f).evt = m.evt := rfl
@[simp] theorem Master.txWrite_tickOffered : (m.txWrite f).tickOffered = m.tickOffered := rfl
@[simp] theorem Master.txWrite_editPort : (m.txWrite f).editPort = m.editPort := rfl
@[simp] theorem Master.txWrite_cfg : (m.txWrite f).cfg = m.cfg := rfl
@[simp] theorem Master.txWrite_started : (m.txWrite f).started = m.started := rfl
end

section
variable (s : State)

@[simp] theorem State.replicaOutcome_ok (r : Replica) : s.replicaOutcome (.ok r) = .next (s.setReplica r) := rfl
@[simp] theorem State.replicaOutcome_error (f : Fault) : s.replicaOutcome (.error f) = .fault f := rfl
@[simp] theorem State.markStarted_none : s.markStarted none = s := rfl
@[simp] theorem State.markStarted_replica :
    s.markStarted (some .replica) = s.setReplica { s.replica with started := true } := rfl
@[simp] theorem State.markStarted_master :
    s.markStarted (some .master) = s.setMaster { s.master with started := true } := rfl
end

/-- What RxTake can do on REPLICA's FIFO: exactly the head byte leaves it (R45). -/
theorem Replica.rxTake_eq_some {b : Byte} {r r' : Replica} :
    r.rxTake b = some r' ↔ ∃ rest, r.rxFifo = b :: rest ∧ r' = { r with rxFifo := rest } := by
  unfold Replica.rxTake
  cases h : r.rxFifo with
  | nil => simp [takeHead]
  | cons a rest =>
    by_cases hab : a = b
    · subst hab; simp [takeHead, eq_comm]
    · simp [takeHead, hab]

/-- Where the head is another byte, or there is none, no RxTake yields `b` (R45). -/
theorem Replica.rxTake_eq_none {b : Byte} {r : Replica} : r.rxTake b = none ↔ r.rxFifo.head? ≠ some b := by
  unfold Replica.rxTake
  cases h : r.rxFifo with
  | nil => simp [takeHead]
  | cons a rest => by_cases hab : a = b <;> simp [takeHead, hab]

/-- What RxTake can do on MASTER's FIFO (R45). -/
theorem Master.rxTake_eq_some {b : Byte} {m m' : Master} :
    m.rxTake b = some m' ↔ ∃ rest, m.rxFifo = b :: rest ∧ m' = { m with rxFifo := rest } := by
  unfold Master.rxTake
  cases h : m.rxFifo with
  | nil => simp [takeHead]
  | cons a rest =>
    by_cases hab : a = b
    · subst hab; simp [takeHead, eq_comm]
    · simp [takeHead, hab]

/-- Where the head is another byte, or there is none, no RxTake yields `b` (R45). -/
theorem Master.rxTake_eq_none {b : Byte} {m : Master} : m.rxTake b = none ↔ m.rxFifo.head? ≠ some b := by
  unfold Master.rxTake
  cases h : m.rxFifo with
  | nil => simp [takeHead]
  | cons a rest => by_cases hab : a = b <;> simp [takeHead, hab]

/-- The step of a state with an input to come. -/
theorem step_cons {s : State} {inp : Input} {rest : List Input} (h : s.inputs = inp :: rest) :
    step s = runFetched (fetch inp { s with inputs := rest }) := by
  unfold step; rw [h]

/-- The step of a state with no input to come. -/
theorem step_nil {s : State} (h : s.inputs = []) : step s = .next s := by
  unfold step; rw [h]

/-- What step adds around an instruction, where it answers a next state. -/
theorem afterInstr_eq_next {i : Instr} {o : Host.Outcome State Fault Refusal} {t : State} :
    afterInstr i o = .next t ↔ ∃ u, o = .next u ∧ t = u.markStarted i.engine := by
  cases o <;> simp [afterInstr, eq_comm]

/-- What a fetched input can come to, where the step answers a next state. -/
theorem runFetched_eq_next {g : Fetched} {t : State} :
    runFetched g = .next t ↔
      (∃ i u v, g = .run i u ∧ exec i u = .next v ∧ t = v.markStarted i.engine) ∨ g = .quiet t := by
  cases g with
  | run i u => simp [runFetched, afterInstr_eq_next]
  | quiet u => simp [runFetched]
  | refused r => simp [runFetched]

/-- Everything a step can do where it answers a next state: nothing, an act of the environment or a hold, or one
instruction with the mark that its engine's run has started. -/
theorem step_eq_next {s t : State} :
    step s = .next t ↔
      (s.inputs = [] ∧ t = s) ∨
      ∃ inp rest, s.inputs = inp :: rest ∧
        ((∃ i u v, fetch inp { s with inputs := rest } = .run i u ∧ exec i u = .next v ∧
            t = v.markStarted i.engine) ∨
          fetch inp { s with inputs := rest } = .quiet t) := by
  cases h : s.inputs with
  | nil => simp [step_nil h, eq_comm]
  | cons inp rest => simp [step_cons h, runFetched_eq_next]

end Sys2Proof.Machine
end

