-- ==== Sys2Proof/Laws/Exec.lean ====
section
/-!
SUPPORT. The meaning of each instruction as one rewriting lemma of exec, in terms of the one component it writes.
-/

namespace Sys2Proof.Machine

variable (s : State)

@[simp] theorem exec_checksum (p : Payload) :
    exec (.checksum p) s = .next (s.setResult (.byte (Codec.checksum p))) := rfl
@[simp] theorem exec_encode (f : Fields) :
    exec (.encode f) s = .next (s.setResult (.encoded (Codec.encode f))) := rfl
@[simp] theorem exec_decode (x : List Byte) :
    exec (.decode x) s = .next (s.setResult (.decoded (Codec.decode x))) := rfl
@[simp] theorem exec_roomTempDecode (r : Byte) :
    exec (.roomTempDecode r) s = .next (s.setResult (.roomTemperature (Codec.roomTempDecode r))) := rfl
@[simp] theorem exec_setTempDecode (r : BitVec 4) :
    exec (.setTempDecode r) s = .next (s.setResult (.setTemperature (Codec.setTempDecode r))) := rfl
@[simp] theorem exec_roomTempEncode (t : Rat) :
    exec (.roomTempEncode t) s = .next (s.setResult (.roomCode (Codec.roomTempEncode t))) := rfl
@[simp] theorem exec_setTempEncode (t : Rat) :
    exec (.setTempEncode t) s = .next (s.setResult (.setCode (Codec.setTempEncode t))) := rfl
@[simp] theorem exec_settingsEncode (v : Settings) (c : BitVec 1) :
    exec (.settingsEncode v c) s =
      .next (s.setResult (.fields (Codec.settingsEncode s.master.params.masterConfigBit v c))) := rfl
@[simp] theorem exec_fieldsToSettings (d : DecodedFrame) :
    exec (.fieldsToSettings d) s = .next (s.setResult (.settings (Codec.fieldsToSettings d))) := rfl
@[simp] theorem exec_selectReplyRow1 :
    exec .selectReplyRow1 s = .next (s.setResult (.reply (selectReply s.replica.params pollPayload))) := rfl
@[simp] theorem exec_selectReplyRow2 (x : Payload) :
    exec (.selectReplyRow2 x) s = .next (s.setResult (.reply (selectReply s.replica.params x))) := rfl
@[simp] theorem exec_parseEditLine (l : Text) :
    exec (.parseEditLine l) s = .next (s.setResult (.eventWord (parseEditLine l))) := rfl

@[simp] theorem exec_rRxByte (b : Byte) :
    exec (.rRxByte b) s = .next (s.setReplica (s.replica.rxByte b)) := rfl
@[simp] theorem exec_rRxTimeout : exec .rRxTimeout s = .next (s.setReplica s.replica.rxTimeout) := rfl
@[simp] theorem exec_intakeOverflow : exec .intakeOverflow s = .next (s.setReplica s.replica.overflow) := rfl
@[simp] theorem exec_rProcess : exec .rProcess s = s.replicaOutcome s.replica.process := rfl
@[simp] theorem exec_rEchoByte (b : Byte) :
    exec (.rEchoByte b) s = s.replicaOutcome (s.replica.echoByte b) := rfl
@[simp] theorem exec_rEchoTimeout : exec .rEchoTimeout s = .next s := rfl

@[simp] theorem exec_mTick : exec .mTick s = .next (s.setMaster s.master.tick) := rfl
@[simp] theorem exec_mRespByte (b : Byte) :
    exec (.mRespByte b) s = .next (s.setMaster (s.master.respByte b)) := rfl
@[simp] theorem exec_mRespTimeout : exec .mRespTimeout s = .next (s.setMaster s.master.respTimeout) := rfl

@[simp] theorem exec_mEditMode (v : Byte) :
    exec (.mEditMode v) s = .next (s.setMaster (s.master.edit .mode v)) := rfl
@[simp] theorem exec_mEditResistorHeating (v : Byte) :
    exec (.mEditResistorHeating v) s = .next (s.setMaster (s.master.edit .resistorHeating v)) := rfl
@[simp] theorem exec_mEditRunning (v : Byte) :
    exec (.mEditRunning v) s = .next (s.setMaster (s.master.edit .running v)) := rfl
@[simp] theorem exec_mEditRoomTemperature (v : Byte) :
    exec (.mEditRoomTemperature v) s = .next (s.setMaster (s.master.edit .roomTemperature v)) := rfl
@[simp] theorem exec_mEditPlasma (v : Byte) :
    exec (.mEditPlasma v) s = .next (s.setMaster (s.master.edit .plasma v)) := rfl
@[simp] theorem exec_mEditFanSpeed (v : Byte) :
    exec (.mEditFanSpeed v) s = .next (s.setMaster (s.master.edit .fanSpeed v)) := rfl
@[simp] theorem exec_mEditSetTemperature (v : Byte) :
    exec (.mEditSetTemperature v) s = .next (s.setMaster (s.master.edit .setTemperature v)) := rfl
@[simp] theorem exec_mEditSwivel (v : Byte) :
    exec (.mEditSwivel v) s = .next (s.setMaster (s.master.edit .swivel v)) := rfl
@[simp] theorem exec_mEditSwirl (v : Byte) :
    exec (.mEditSwirl v) s = .next (s.setMaster (s.master.edit .swirl v)) := rfl
@[simp] theorem exec_mEditRejectNoEquals :
    exec .mEditRejectNoEquals s = .next (s.setMaster (s.master.rejectEdit .noEquals)) := rfl
@[simp] theorem exec_mEditRejectUnknownAttribute :
    exec .mEditRejectUnknownAttribute s = .next (s.setMaster (s.master.rejectEdit .unknownAttribute)) := rfl
@[simp] theorem exec_mEditRejectBadValue :
    exec .mEditRejectBadValue s = .next (s.setMaster (s.master.rejectEdit .badValue)) := rfl

/-- M_EDIT of any field id: the edit of its attribute, or the report that it has none (R71, R101). -/
theorem exec_editInstr (fid : BitVec 4) (v : Byte) :
    exec (editInstr fid v) s = .next (s.setMaster (match EditField.ofFid fid with
      | some fld => s.master.edit fld v
      | none => s.master.rejectEdit .unknownAttribute)) := by
  unfold editInstr
  cases h : EditField.ofFid fid with
  | none => simp [exec, execMEditUnknownFid, h, State.rejectOutcome]
  | some fld => cases fld <;> rfl

/-- M_EDIT's constructor for an unknown field id, written with any id. -/
theorem exec_mEditUnknownFid (fid : BitVec 4) (v : Byte) :
    exec (.mEditUnknownFid fid v) s = exec (editInstr fid v) s := by
  rw [exec_editInstr]
  cases h : EditField.ofFid fid <;>
    simp [exec, execMEditUnknownFid, h, State.rejectOutcome, State.editOutcome]

/-- RESET of REPLICA: held, done or refused (R133, R135, R136). -/
theorem exec_reset_replica :
    exec (.reset .replica) s =
      if s.replica.started then .next s
      else if s.replica.cfg.legal then .next (s.setReplica s.replica.doReset)
      else .refused (.illegalConfiguration .replica) := rfl

/-- RESET of MASTER: held, done or refused (R133, R135, R136). -/
theorem exec_reset_master :
    exec (.reset .master) s =
      if s.master.started then .next s
      else if s.master.cfg.legal then .next (s.setMaster s.master.doReset)
      else .refused (.illegalConfiguration .master) := rfl

end Sys2Proof.Machine
end

