-- ==== Sys2Proof/Laws/Fetch.lean ====
section
/-!
SUPPORT. What an input can come to: the state in which a fetched instruction runs, and the acts that run none.
-/

namespace Sys2Proof.Machine

variable {s u : State} {a : Agent} {i : Instr} {w : EventWord}

@[simp] theorem State.handOver_inputs (s : State) (a : Agent) : (s.handOver a).inputs = s.inputs := by
  cases a <;> rfl

@[simp] theorem State.handOver_replica (s : State) (a : Agent) : (s.handOver a).replica = s.replica := by
  cases a <;> rfl

theorem fetchWord_eq_run : fetchWord a w s = .run i u ↔ decodeAt (s.port a) w = .instr i ∧ u = s.handOver a := by
  unfold fetchWord
  cases decodeAt (s.port a) w <;> simp [eq_comm]

theorem fetchWord_eq_quiet : fetchWord a w s = .quiet u ↔ decodeAt (s.port a) w = .waits ∧ u = s := by
  unfold fetchWord
  cases decodeAt (s.port a) w <;> simp [eq_comm]

theorem fetchWord_eq_refused {r : Refusal} :
    fetchWord a w s = .refused r ↔ ∃ d, decodeAt (s.port a) w = .rejected d ∧ r = .eventWord w d := by
  unfold fetchWord
  cases decodeAt (s.port a) w <;> simp [eq_comm]

theorem State.takeOffered_of_not_edit (h : i.port ≠ some .edit) : s.takeOffered i w = some s := if_neg h

theorem State.takeOffered_of_head (h : i.port = some .edit) (hw : s.master.editPort.head? = some w) :
    s.takeOffered i w = some (s.handOver .masterEdit) := (if_pos h).trans (if_pos hw)

theorem State.takeOffered_of_not_head (h : i.port = some .edit) (hw : s.master.editPort.head? ≠ some w) :
    s.takeOffered i w = none := (if_pos h).trans (if_neg hw)

theorem offerWord_eq_run :
    offerWord a w s = .run i u ↔ decodeAt (s.port a) w = .instr i ∧ s.takeOffered i w = some u := by
  unfold offerWord
  cases decodeAt (s.port a) w with
  | instr j =>
    cases ht : s.takeOffered j w <;> simp only [ht, Decoded.instr.injEq, Fetched.run.injEq, reduceCtorEq, false_iff] <;>
      aesop
  | waits => simp
  | rejected r => simp

/-- A word that runs nothing leaves the state as it is: it has no step in the phase, or waits for others (R122). -/
theorem offerWord_eq_quiet : offerWord a w s = .quiet u ↔
    (decodeAt (s.port a) w = .waits ∨ ∃ i, decodeAt (s.port a) w = .instr i ∧ s.takeOffered i w = none) ∧ u = s := by
  unfold offerWord
  cases decodeAt (s.port a) w with
  | instr j => cases ht : s.takeOffered j w <;> simp [ht, eq_comm]
  | waits => simp [eq_comm]
  | rejected r => simp

theorem offerWord_eq_refused {r : Refusal} :
    offerWord a w s = .refused r ↔ ∃ d, decodeAt (s.port a) w = .rejected d ∧ r = .eventWord w d := by
  unfold offerWord
  cases decodeAt (s.port a) w with
  | instr j => cases ht : s.takeOffered j w <;> simp [ht]
  | waits => simp
  | rejected r => simp [eq_comm]

/-- A turn outside an overflowed intake decodes the agent's word, if it has one (R96, R100). -/
theorem fetchTurn_of_word
    (h : ¬(a = .replica ∧ s.replica.phase = .intake ∧ s.replica.overflowed = true))
    (hw : s.eventWord? a = some w) : fetchTurn a s = fetchWord a w s := by
  unfold fetchTurn; rw [if_neg h, hw]

theorem fetchTurn_of_no_word
    (h : ¬(a = .replica ∧ s.replica.phase = .intake ∧ s.replica.overflowed = true))
    (hw : s.eventWord? a = none) : fetchTurn a s = .quiet s := by
  unfold fetchTurn; rw [if_neg h, hw]

/-- Everything a turn can run: INTAKE_OVERFLOW, or what the agent's word decodes to. -/
theorem fetchTurn_eq_run (h : fetchTurn a s = .run i u) :
    (i = .intakeOverflow ∧ u = s ∧ a = .replica ∧ s.replica.phase = .intake ∧ s.replica.overflowed = true) ∨
    ∃ w, s.eventWord? a = some w ∧ decodeAt (s.port a) w = .instr i ∧ u = s.handOver a := by
  unfold fetchTurn at h
  split_ifs at h with hc
  · cases h; exact .inl ⟨rfl, rfl, hc⟩
  · cases hw : s.eventWord? a with
    | none => rw [hw] at h; cases h
    | some w => rw [hw] at h; exact .inr ⟨w, rfl, fetchWord_eq_run.mp h⟩

/-- A turn that runs nothing leaves the state as it is. -/
theorem fetchTurn_eq_quiet (h : fetchTurn a s = .quiet u) : u = s := by
  unfold fetchTurn at h
  split_ifs at h with hc
  cases hw : s.eventWord? a with
  | none => rw [hw] at h; cases h; rfl
  | some w => rw [hw] at h; exact (fetchWord_eq_quiet.mp h).2

/-- The word that an instruction of MASTER.EDIT runs on heads the EDIT port, and is handed over; every other instruction
runs in the state as it is, but for a RESET word that stands in the EDIT port (R122). -/
theorem fetch_eq_run_port {inp : Input} (h : fetch inp s = .run i u) :
    (i.port ≠ some .edit ∧ u = s) ∨
    ∃ w ws, s.master.editPort = w :: ws ∧ decodeAt .edit w = .instr i ∧
      u = s.setMaster { s.master with editPort := ws } := by
  cases inp with
  | reset e =>
    cases e with
    | replica =>
      obtain ⟨hd, rfl⟩ := fetchWord_eq_run (a := .replica) (w := encodeEvent .reset).mp h
      exact .inl ⟨decodeAt_not_edit (by simp [State.port]) hd, rfl⟩
    | master =>
      obtain ⟨hd, rfl⟩ := fetchWord_eq_run (a := .masterTick) (w := encodeEvent .reset).mp h
      exact .inl ⟨decodeAt_not_edit (by simp [State.port]) hd, rfl⟩
  | turn a =>
    rcases fetchTurn_eq_run h with ⟨rfl, rfl, -⟩ | ⟨w, hw, hd, rfl⟩
    · exact .inl ⟨by simp [Instr.port], rfl⟩
    · cases a with
      | replica => exact .inl ⟨decodeAt_not_edit (by simp [State.port]) hd, rfl⟩
      | masterTick => exact .inl ⟨decodeAt_not_edit (by simp [State.port]) hd, rfl⟩
      | masterEdit =>
        obtain ⟨ws, hws⟩ := List.head?_eq_some_iff.mp hw
        exact .inr ⟨w, ws, hws, hd, by rw [State.handOver, hws]; rfl⟩
  | event a w =>
    obtain ⟨hd, hu⟩ := offerWord_eq_run.mp h
    by_cases hp : i.port = some .edit
    · have ha : s.port a = .edit := by_contra fun ha => decodeAt_not_edit ha hd hp
      rw [ha] at hd
      by_cases hw : s.master.editPort.head? = some w
      · rw [State.takeOffered_of_head hp hw] at hu
        obtain ⟨ws, hws⟩ := List.head?_eq_some_iff.mp hw
        exact .inr ⟨w, ws, hws, hd, by rw [← Option.some.inj hu, State.handOver, hws]; rfl⟩
      · rw [State.takeOffered_of_not_head hp hw] at hu; cases hu
    · rw [State.takeOffered_of_not_edit hp] at hu
      exact .inl ⟨hp, (Option.some.inj hu).symm⟩
  | call j =>
    simp only [fetch] at h
    split_ifs at h with hc
    cases h
    exact .inl ⟨by cases i <;> simp [Instr.isCall] at hc <;> simp [Instr.port], rfl⟩
  | arrive e b => cases h
  | timer => cases h
  | consoleLine l => cases h
  | editWord w => cases h
  | configureReplica c => cases h
  | configureMaster c => cases h

/-- The state in which a fetched instruction runs: as it was, or with the EDIT port's first word handed over. -/
theorem fetch_eq_run_state {inp : Input} (h : fetch inp s = .run i u) :
    u = s ∨ u = s.setMaster { s.master with editPort := s.master.editPort.tail } := by
  rcases fetch_eq_run_port h with ⟨-, rfl⟩ | ⟨w, ws, hw, -, rfl⟩
  · exact .inl rfl
  · exact .inr (by rw [hw]; rfl)

/-- Everything an input that runs no instruction can do (R44, R127, R129). -/
theorem fetch_eq_quiet {inp : Input} (h : fetch inp s = .quiet u) :
    u = s ∨ (∃ e b, u = s.arrive e b) ∨ u = s.setMaster { s.master with tickOffered := true } ∨
      (∃ w, u = s.offerEdit w) ∨ (∃ c, u = s.setReplica { s.replica with cfg := c }) ∨
      ∃ c, u = s.setMaster { s.master with cfg := c } := by
  cases inp with
  | arrive e b => cases h; exact .inr (.inl ⟨e, b, rfl⟩)
  | timer => cases h; exact .inr (.inr (.inl rfl))
  | consoleLine l => cases h; exact .inr (.inr (.inr (.inl ⟨_, rfl⟩)))
  | editWord w => cases h; exact .inr (.inr (.inr (.inl ⟨_, rfl⟩)))
  | configureReplica c => cases h; exact .inr (.inr (.inr (.inr (.inl ⟨c, rfl⟩))))
  | configureMaster c => cases h; exact .inr (.inr (.inr (.inr (.inr ⟨c, rfl⟩))))
  | reset e =>
    cases e with
    | replica => exact .inl (fetchWord_eq_quiet (a := .replica) (w := encodeEvent .reset).mp h).2
    | master => exact .inl (fetchWord_eq_quiet (a := .masterTick) (w := encodeEvent .reset).mp h).2
  | turn a => exact .inl (fetchTurn_eq_quiet h)
  | event a w => exact .inl (offerWord_eq_quiet.mp h).2
  | call j =>
    simp only [fetch] at h
    split_ifs at h

end Sys2Proof.Machine
end

