-- ==== Sys2Proof/Laws/Master.lean ====
section
/-!
SUPPORT. What each operation of MASTER can do, said once: its value where it is enabled, that it holds elsewhere, and the
cases of its result.
-/

namespace Sys2Proof.Machine

variable {m : Master} {b : Byte}

theorem Master.changed_eq_true : m.changed = true ↔ m.pending ≠ m.lastSent := by simp [Master.changed]

theorem Master.changed_eq_false : m.changed = false ↔ m.pending = m.lastSent := by simp [Master.changed]

/-- The settings a tick sends are the pending bank, changed or not: equal banks hold one value (R97). -/
theorem Master.toSend_eq_pending (m : Master) : m.toSend = m.pending := by
  unfold Master.toSend
  split_ifs with h
  · rfl
  · exact (Master.changed_eq_false.mp (by simpa using h)).symm

/-- The commit makes the last-sent bank equal to the pending one (R97, R139). -/
theorem Master.commit_eq (m : Master) : m.commit = { m with lastSent := m.pending } := by
  unfold Master.commit
  split_ifs with h
  · rfl
  · have hb := Master.changed_eq_false.mp (by simpa using h)
    cases m; simp_all

/-- The two ways through a tick (R97). -/
theorem Master.fire_cases (m : Master) :
    (∃ f, m.tickFrame = .ok f ∧ m.fire = { m with
      lastSent := m.pending, tx := m.tx ++ [f], txFrame := some f, resp := [], phase := .resp,
      tickOffered := false }) ∨
    (∃ fld, m.tickFrame = .fieldOutOfRange fld ∧
      m.fire = { m.emit (.fieldOutOfRange fld) with tickOffered := false }) := by
  unfold Master.fire
  cases h : m.tickFrame with
  | ok f => exact .inl ⟨f, rfl, by simp [Master.commit_eq, Master.txWrite]⟩
  | fieldOutOfRange fld => exact .inr ⟨fld, rfl, rfl⟩

theorem Master.tick_enabled (hp : m.phase = .idle) (ht : m.tickOffered = true) : m.tick = m.fire := by
  simp [Master.tick, hp, ht]

/-- M_TICK either holds or fires (R97, R100). -/
theorem Master.tick_cases (m : Master) :
    m.tick = m ∨ (m.phase = .idle ∧ m.tickOffered = true ∧ m.tick = m.fire) := by
  unfold Master.tick
  split_ifs with h
  · exact .inr ⟨h.1, h.2, rfl⟩
  · exact .inl rfl

/-- The response step: a 12th byte ends the read, any other is appended (R98). -/
theorem Master.collect_cases (b : Byte) (m : Master) :
    (m.resp.length = 11 ∧
      m.collect b = { m.emit (.response (m.resp ++ [b])) with resp := [], phase := .idle }) ∨
    (m.resp.length ≠ 11 ∧ m.collect b = { m with resp := m.resp ++ [b] }) := by
  unfold Master.collect
  split_ifs with h
  · exact .inl ⟨by simpa using h, rfl⟩
  · exact .inr ⟨by simpa using h, rfl⟩

theorem Master.respByte_enabled {rest : List Byte} (hp : m.phase = .resp) (hf : m.rxFifo = b :: rest) :
    m.respByte b = ({ m with rxFifo := rest } : Master).collect b := by
  have h : m.rxTake b = some { m with rxFifo := rest } := Master.rxTake_eq_some.mpr ⟨rest, hf, rfl⟩
  simp [Master.respByte, hp, h]

theorem Master.respByte_held (h : m.phase ≠ .resp ∨ m.rxFifo.head? ≠ some b) : m.respByte b = m := by
  unfold Master.respByte
  split_ifs with hc
  · rw [Master.rxTake_eq_none.mpr (h.resolve_left (not_not.mpr hc))]
  · rfl

/-- M_RESP_BYTE either holds or takes the head of the FIFO into the response buffer (R98). -/
theorem Master.respByte_cases (b : Byte) (m : Master) :
    m.respByte b = m ∨ ∃ rest, m.phase = .resp ∧ m.rxFifo = b :: rest ∧
      m.respByte b = ({ m with rxFifo := rest } : Master).collect b := by
  by_cases h : m.phase ≠ .resp ∨ m.rxFifo.head? ≠ some b
  · exact .inl (Master.respByte_held h)
  · simp only [not_or, not_not] at h
    obtain ⟨rest, h2⟩ := List.head?_eq_some_iff.mp h.2
    exact .inr ⟨rest, h.1, h2, Master.respByte_enabled h.1 h2⟩

/-- M_RESP_TIMEOUT either holds or ends the read (R99). -/
theorem Master.respTimeout_cases (m : Master) :
    m.respTimeout = m ∨ (m.phase = .resp ∧ m.rxFifo = [] ∧
      m.respTimeout = { m.emit (.shortRead m.resp) with resp := [], phase := .idle }) := by
  unfold Master.respTimeout
  split_ifs with h
  · exact .inr ⟨h.1, h.2, rfl⟩
  · exact .inl rfl

/-- An edit either replaces one field, with a legal code, or reports (R101). -/
theorem Master.edit_cases (fld : EditField) (v : Byte) (m : Master) :
    (fld.legalCode v = true ∧ m.edit fld v = { m with pending := m.lastSent.set fld v }) ∨
    (fld.legalCode v = false ∧ m.edit fld v = m.emit (.userInputError .badValue)) := by
  unfold Master.edit
  cases h : fld.legalCode v <;> simp

end Sys2Proof.Machine
end

