-- ==== Sys2Proof/Laws/Parser.lean ====
section
/-!
SUPPORT. Laws of the parts of PARSE_EDIT_LINE: stripping, the split at the first `=`, the attribute names, digits, and the
exact value of a scaled integer.
-/

namespace Sys2Proof.Parser

theorem dropWhile_append_of_all {p t : Text} (hp : ∀ c ∈ p, isSpace c = true)
    (ht : ∀ c, t.head? = some c → isSpace c = false) : (p ++ t).dropWhile isSpace = t := by
  induction p with
  | nil =>
    cases t with
    | nil => rfl
    | cons c cs => simp [ht c rfl]
  | cons a p ih =>
    have ha : isSpace a = true := hp a (by simp)
    simpa [ha] using ih fun c hc => hp c (by simp [hc])

/-- Stripping whitespace from both ends of a text that has none at its own ends (R103). -/
theorem strip_append {p t q : Text} (hp : ∀ c ∈ p, isSpace c = true) (hq : ∀ c ∈ q, isSpace c = true)
    (h1 : ∀ c, t.head? = some c → isSpace c = false) (h2 : ∀ c, t.getLast? = some c → isSpace c = false) :
    strip (p ++ t ++ q) = t := by
  unfold strip
  cases t with
  | nil =>
    have : (p ++ [] ++ q).dropWhile isSpace = [] := by
      rw [List.dropWhile_eq_nil_iff]
      intro c hc
      simp only [List.append_nil, List.mem_append] at hc
      exact hc.elim (hp c) (hq c)
    rw [this]; rfl
  | cons a as =>
    rw [List.append_assoc, dropWhile_append_of_all hp (by simpa using h1), List.reverse_append,
      dropWhile_append_of_all (by simpa using hq) (by rw [List.head?_reverse]; exact h2), List.reverse_reverse]

theorem splitAtEquals_eq_none {l : Text} (h : '=' ∉ l) : splitAtEquals l = none := by
  induction l with
  | nil => rfl
  | cons c cs ih =>
    simp only [List.mem_cons, not_or] at h
    rw [splitAtEquals, if_neg (Ne.symm h.1), ih h.2]

/-- The split is at the first `=` (R103). -/
theorem splitAtEquals_append {a v : Text} (h : '=' ∉ a) : splitAtEquals (a ++ '=' :: v) = some (a, v) := by
  induction a with
  | nil => rfl
  | cons c cs ih =>
    simp only [List.mem_cons, not_or] at h
    rw [List.cons_append, splitAtEquals, if_neg (Ne.symm h.1), ih h.2]

/-- An attribute's own name, and no other text, is its name (R104). -/
theorem attributeId_eq_some {a : Text} {fld : EditField} : attributeId a = some fld ↔ a = attributeName fld := by
  constructor
  · intro h
    have := List.find?_some h
    exact (eq_of_beq this).symm
  · rintro rfl; cases fld <;> decide

theorem attributeId_eq_none {a : Text} : attributeId a = none ↔ ∀ fld, a ≠ attributeName fld := by
  constructor
  · rintro h fld rfl
    rw [attributeId_eq_some.mpr rfl] at h; cases h
  · intro h
    cases hf : attributeId a with
    | none => rfl
    | some fld => exact absurd (attributeId_eq_some.mp hf) (h fld)

/-- The ASCII digits by their code (R109). -/
theorem isDigit_iff {c : Char} : isDigit c = true ↔ 48 ≤ c.toNat ∧ c.toNat ≤ 57 := by
  unfold isDigit
  rw [Bool.and_eq_true, decide_eq_true_eq, decide_eq_true_eq]
  exact Iff.rfl

theorem digitsValue_append (n : Nat) (a b : Text) : digitsValue n (a ++ b) = digitsValue (digitsValue n a) b := by
  induction a generalizing n with
  | nil => rfl
  | cons c cs ih => exact ih _

/-- `scale` is multiplication with a power of ten, exactly (R109). -/
theorem scale_eq (m e : Int) : scale m e = (m : Rat) * (10 : Rat) ^ e := by
  unfold scale
  split_ifs with h
  · obtain ⟨n, rfl⟩ := Int.eq_ofNat_of_zero_le h
    simp [Rat.mkRat_one]
  · obtain ⟨n, rfl⟩ : ∃ n : Nat, e = -(n : Int) := ⟨(-e).toNat, by omega⟩
    rw [Rat.mkRat_eq_div]
    simp [div_eq_mul_inv]

end Sys2Proof.Parser
end

