-- ==== Sys2Proof/Laws/PerInstr.lean ====
section
/-!
SUPPORT. The statements made for every instruction, one lemma per constructor.
-/

namespace Sys2Proof.Laws.WordSpellsItsEvent

/-- An instruction has an event exactly where it has a port, and the word it is encoded as is then an event word that the
decoder takes for that event (R69, R70). -/
def Statement (i : Instr) : Prop :=
  (i.event.isSome = i.port.isSome) ∧
    ∀ w, encode i = some (.event w) → ∃ e, i.event = some e ∧ decodeEvent w = .ok e

/-- The proof that each of the lemmas below cites. -/
theorem of_event {i : Instr} (h : i.event.isSome = i.port.isSome) : Statement i := by
  refine ⟨h, fun w hw => ?_⟩
  unfold encode at hw
  cases he : i.event with
  | none => rw [he] at hw; simp at hw
  | some e =>
    rw [he] at hw
    cases hw
    exact ⟨e, rfl, decodeEvent_encodeEvent e⟩

theorem checksum (p : Payload) : Statement (.checksum p) := of_event rfl
theorem encode (f : Fields) : Statement (.encode f) := of_event rfl
theorem decode (x : List Byte) : Statement (.decode x) := of_event rfl
theorem roomTempDecode (r : Byte) : Statement (.roomTempDecode r) := of_event rfl
theorem setTempDecode (r : BitVec 4) : Statement (.setTempDecode r) := of_event rfl
theorem roomTempEncode (t : Rat) : Statement (.roomTempEncode t) := of_event rfl
theorem setTempEncode (t : Rat) : Statement (.setTempEncode t) := of_event rfl
theorem settingsEncode (v : Settings) (c : BitVec 1) : Statement (.settingsEncode v c) := of_event rfl
theorem fieldsToSettings (d : DecodedFrame) : Statement (.fieldsToSettings d) := of_event rfl
theorem selectReplyRow1 : Statement .selectReplyRow1 := of_event rfl
theorem selectReplyRow2 (x : Payload) : Statement (.selectReplyRow2 x) := of_event rfl
theorem rRxByte (b : Byte) : Statement (.rRxByte b) := of_event rfl
theorem rRxTimeout : Statement .rRxTimeout := of_event rfl
theorem intakeOverflow : Statement .intakeOverflow := of_event rfl
theorem rProcess : Statement .rProcess := of_event rfl
theorem rEchoByte (b : Byte) : Statement (.rEchoByte b) := of_event rfl
theorem rEchoTimeout : Statement .rEchoTimeout := of_event rfl
theorem mTick : Statement .mTick := of_event rfl
theorem mRespByte (b : Byte) : Statement (.mRespByte b) := of_event rfl
theorem mRespTimeout : Statement .mRespTimeout := of_event rfl
theorem mEditMode (v : Byte) : Statement (.mEditMode v) := of_event rfl
theorem mEditResistorHeating (v : Byte) : Statement (.mEditResistorHeating v) := of_event rfl
theorem mEditRunning (v : Byte) : Statement (.mEditRunning v) := of_event rfl
theorem mEditRoomTemperature (v : Byte) : Statement (.mEditRoomTemperature v) := of_event rfl
theorem mEditPlasma (v : Byte) : Statement (.mEditPlasma v) := of_event rfl
theorem mEditFanSpeed (v : Byte) : Statement (.mEditFanSpeed v) := of_event rfl
theorem mEditSetTemperature (v : Byte) : Statement (.mEditSetTemperature v) := of_event rfl
theorem mEditSwivel (v : Byte) : Statement (.mEditSwivel v) := of_event rfl
theorem mEditSwirl (v : Byte) : Statement (.mEditSwirl v) := of_event rfl
theorem mEditUnknownFid (fid : BitVec 4) (v : Byte) : Statement (.mEditUnknownFid fid v) := of_event rfl
theorem mEditRejectNoEquals : Statement .mEditRejectNoEquals := of_event rfl
theorem mEditRejectUnknownAttribute : Statement .mEditRejectUnknownAttribute := of_event rfl
theorem mEditRejectBadValue : Statement .mEditRejectBadValue := of_event rfl
theorem parseEditLine (l : Text) : Statement (.parseEditLine l) := of_event rfl
theorem reset (e : Engine) : Statement (.reset e) := of_event (by cases e <;> rfl)

end Sys2Proof.Laws.WordSpellsItsEvent
end

