-- ==== Sys2Proof/Laws/Replica.lean ====
section
/-!
SUPPORT. What each operation of REPLICA can do, said once: its value where it is enabled, that it holds elsewhere, and the
cases of its result.
-/

namespace Sys2Proof.Machine

variable {r r' : Replica} {b : Byte}

theorem Replica.overflowed_eq_false : r.overflowed = false ↔ r.buf.length < 6 := by
  simp [Replica.overflowed]

theorem Replica.overflowed_eq_true : r.overflowed = true ↔ 6 ≤ r.buf.length := by
  simp [Replica.overflowed]

/-- The intake step: a 6th byte completes the frame, any other is appended (R88). -/
theorem Replica.collect_cases (b : Byte) (r : Replica) :
    (∃ f : Frame, r.buf ++ [b] = f.toBytes ∧
      r.collect b = { r with frame := some f, buf := [], phase := .process }) ∨
    (r.buf.length ≠ 5 ∧ r.collect b = { r with buf := r.buf ++ [b] }) := by
  unfold Replica.collect
  cases h : Frame.ofBytes? (r.buf ++ [b]) with
  | some f => exact .inl ⟨f, Frame.ofBytes?_eq_some.mp h, rfl⟩
  | none => exact .inr ⟨by simpa using Frame.ofBytes?_eq_none.mp h, rfl⟩

theorem Replica.rxByte_enabled {rest : List Byte} (hp : r.phase = .intake) (ho : r.overflowed = false)
    (hf : r.rxFifo = b :: rest) : r.rxByte b = ({ r with rxFifo := rest } : Replica).collect b := by
  have h : r.rxTake b = some { r with rxFifo := rest } := Replica.rxTake_eq_some.mpr ⟨rest, hf, rfl⟩
  simp [Replica.rxByte, hp, ho, h]

theorem Replica.rxByte_held (h : r.phase ≠ .intake ∨ r.overflowed = true ∨ r.rxFifo.head? ≠ some b) :
    r.rxByte b = r := by
  unfold Replica.rxByte
  split_ifs with hc
  · rcases h with h | h | h
    · exact absurd hc.1 h
    · simp [h] at hc
    · rw [Replica.rxTake_eq_none.mpr h]
  · rfl

/-- R_RX_BYTE either holds or takes the head of the FIFO into the buffer (R88). -/
theorem Replica.rxByte_cases (b : Byte) (r : Replica) :
    r.rxByte b = r ∨ ∃ rest, r.phase = .intake ∧ r.buf.length < 6 ∧ r.rxFifo = b :: rest ∧
      r.rxByte b = ({ r with rxFifo := rest } : Replica).collect b := by
  by_cases h : r.phase ≠ .intake ∨ r.overflowed = true ∨ r.rxFifo.head? ≠ some b
  · exact .inl (Replica.rxByte_held h)
  · simp only [not_or, not_not, Bool.not_eq_true] at h
    obtain ⟨h1, h2, h3⟩ := h
    obtain ⟨rest, h3⟩ := List.head?_eq_some_iff.mp h3
    exact .inr ⟨rest, h1, Replica.overflowed_eq_false.mp h2, h3, Replica.rxByte_enabled h1 h2 h3⟩

/-- R_RX_TIMEOUT either holds or discards the buffer (R89). -/
theorem Replica.rxTimeout_cases (r : Replica) :
    r.rxTimeout = r ∨ (r.phase = .intake ∧ r.rxFifo = [] ∧ r.rxTimeout = { r with buf := [] }) := by
  unfold Replica.rxTimeout
  split_ifs with h
  · exact .inr ⟨h.1, h.2.2, rfl⟩
  · exact .inl rfl

/-- INTAKE_OVERFLOW either holds or reports and halts (R90). -/
theorem Replica.overflow_cases (r : Replica) :
    r.overflow = r ∨ (r.phase = .intake ∧ 6 ≤ r.buf.length ∧
      r.overflow = { r.emit (.intakeOverflow r.buf) with phase := .halted }) := by
  unfold Replica.overflow
  split_ifs with h
  · exact .inr ⟨h.1, Replica.overflowed_eq_true.mp h.2, rfl⟩
  · exact .inl rfl

/-- The report of a decoded frame: nothing, or one record and the new `r_last` (R92). -/
theorem Replica.observe_eq (d : DecodedFrame) (r : Replica) :
    r.observe d = { r with
      evt := if r.last = some d.data then r.evt else r.evt ++ [.frameObserved d], last := some d.data } := by
  unfold Replica.observe
  split_ifs with h
  · rw [← h]
  · rfl

/-- The three ways through the decoding of a frame (R92). -/
theorem Replica.processFrame_cases (f : Frame) (r : Replica) :
    (Codec.checksum f.payload = f.checksum ∧
      r.processFrame f = (r.observe (Codec.unpack f.payload.word f.checksum)).sendReply f.payload) ∨
    (Codec.checksum f.payload ≠ f.checksum ∧ r.params.replyOnBadChecksum = true ∧
      r.processFrame f =
        (r.emit (.checksumMismatch (Codec.checksum f.payload) f.checksum f)).sendReply f.payload) ∨
    (Codec.checksum f.payload ≠ f.checksum ∧ r.params.replyOnBadChecksum = false ∧
      r.processFrame f = { r.emit (.checksumMismatch (Codec.checksum f.payload) f.checksum f) with
        frame := none, phase := .intake }) := by
  unfold Replica.processFrame Codec.decodeFrame
  by_cases h : Codec.checksum f.payload = f.checksum
  · simp [h]
  · cases hp : r.params.replyOnBadChecksum <;> simp [h]

/-- R_PROCESS faults only without a frame; else it holds or processes the frame (R92). -/
theorem Replica.process_eq_ok :
    r.process = .ok r' ↔
      (r.phase ≠ .process ∧ r' = r) ∨ ∃ f, r.phase = .process ∧ r.frame = some f ∧ r' = r.processFrame f := by
  unfold Replica.process
  split_ifs with h
  · cases hf : r.frame <;> simp [h, eq_comm]
  · simp [h, eq_comm]

theorem Replica.process_eq_error {e : Fault} :
    r.process = .error e ↔ r.phase = .process ∧ r.frame = none ∧ e = .processWithoutFrame := by
  unfold Replica.process
  split_ifs with h
  · cases hf : r.frame <;> simp [h, eq_comm]
  · simp [h]

/-- The check of an echo: at most one record, then INTAKE (R93). -/
theorem Replica.checkEcho_eq (sent got : Frame) (r : Replica) :
    r.checkEcho sent got = { r with
      evt := if got = sent then r.evt else r.evt ++ [.echoMismatch sent got], echo := [], phase := .intake } := by
  unfold Replica.checkEcho
  split_ifs <;> rfl

/-- The echo step: a 6th byte is compared, any other is appended; it faults only without a reply (R93). -/
theorem Replica.collectEcho_eq_ok :
    r.collectEcho b = .ok r' ↔
      (r.echo.length ≠ 5 ∧ r' = { r with echo := r.echo ++ [b] }) ∨
      ∃ got sent : Frame, r.echo ++ [b] = got.toBytes ∧ r.reply = some sent ∧ r' = r.checkEcho sent got := by
  unfold Replica.collectEcho
  cases h : Frame.ofBytes? (r.echo ++ [b]) with
  | none =>
    have h1 : r.echo.length ≠ 5 := by simpa using Frame.ofBytes?_eq_none.mp h
    have h2 : ∀ g : Frame, r.echo ++ [b] ≠ g.toBytes := by
      intro g hg; rw [Frame.ofBytes?_eq_some.mpr hg] at h; cases h
    simp [h1, h2, eq_comm]
  | some got =>
    have h1 := Frame.ofBytes?_eq_some.mp h
    have h2 : r.echo.length = 5 := by simpa [Frame.toBytes] using congrArg List.length h1
    have h3 : ∀ g : Frame, r.echo ++ [b] = g.toBytes ↔ g = got := by
      intro g; rw [← Frame.ofBytes?_eq_some, h]; simp [eq_comm]
    cases hr : r.reply <;> simp [h2, h3, eq_comm]

theorem Replica.collectEcho_eq_error {e : Fault} :
    r.collectEcho b = .error e ↔ r.echo.length = 5 ∧ r.reply = none ∧ e = .echoWithoutReply := by
  unfold Replica.collectEcho
  cases h : Frame.ofBytes? (r.echo ++ [b]) with
  | none =>
    have h1 : r.echo.length ≠ 5 := by simpa using Frame.ofBytes?_eq_none.mp h
    simp [h1]
  | some got =>
    have h2 : r.echo.length = 5 := by
      simpa [Frame.toBytes] using congrArg List.length (Frame.ofBytes?_eq_some.mp h)
    cases hr : r.reply <;> simp [h2, eq_comm]

theorem Replica.echoByte_enabled {rest : List Byte} (hp : r.phase = .echo) (hf : r.rxFifo = b :: rest) :
    r.echoByte b = ({ r with rxFifo := rest } : Replica).collectEcho b := by
  have h : r.rxTake b = some { r with rxFifo := rest } := Replica.rxTake_eq_some.mpr ⟨rest, hf, rfl⟩
  simp [Replica.echoByte, hp, h]

theorem Replica.echoByte_held (h : r.phase ≠ .echo ∨ r.rxFifo.head? ≠ some b) : r.echoByte b = .ok r := by
  unfold Replica.echoByte
  split_ifs with hc
  · rw [Replica.rxTake_eq_none.mpr (h.resolve_left (not_not.mpr hc))]
  · rfl

/-- R_ECHO_BYTE either holds or takes the head of the FIFO into the echo buffer (R93). -/
theorem Replica.echoByte_cases (b : Byte) (r : Replica) :
    r.echoByte b = .ok r ∨ ∃ rest, r.phase = .echo ∧ r.rxFifo = b :: rest ∧
      r.echoByte b = ({ r with rxFifo := rest } : Replica).collectEcho b := by
  by_cases h : r.phase ≠ .echo ∨ r.rxFifo.head? ≠ some b
  · exact .inl (Replica.echoByte_held h)
  · simp only [not_or, not_not] at h
    obtain ⟨rest, h2⟩ := List.head?_eq_some_iff.mp h.2
    exact .inr ⟨rest, h.1, h2, Replica.echoByte_enabled h.1 h2⟩

end Sys2Proof.Machine
end

