-- ==== Sys2Proof/Laws/Run.lean ====
section
/-!
SUPPORT. Laws of several steps in a row.
-/

namespace Sys2Proof.Machine

theorem run_zero (s : State) : run 0 s = .next s := rfl

/-- The first of several steps. -/
theorem run_succ {s t : State} (k : Nat) (h : step s = .next t) : run (k + 1) s = run k t := by
  rw [run, h]

end Sys2Proof.Machine
end

