-- ==== Sys2Proof/Laws/Seconds.lean ====
section
/-!
SUPPORT. The legality tests of a duration say of the real number it stands for what R7 and R36 say, and every real number
is stood for.
-/

namespace Sys2Proof

variable {names : Nat → ℝ} {d : Seconds} {x : ℝ}

/-- R7: the test of PERIOD_N is `N ≥ 2`. -/
theorem Seconds.atLeastTwo_iff (h : d.Denotes names x) : d.atLeastTwo = true ↔ 2 ≤ x := by
  cases d with
  | rational q => cases h; simp only [atLeastTwo, decide_eq_true_eq]; exact_mod_cast Iff.rfl
  | irrational n k =>
    obtain ⟨-, rfl⟩ := h
    have h0 := Int.fract_nonneg (names k)
    have h1 := Int.fract_lt_one (names k)
    simp only [atLeastTwo, decide_eq_true_eq]
    refine ⟨fun hn => ?_, fun hx => ?_⟩
    · have : (2 : ℝ) ≤ n := by exact_mod_cast hn
      linarith
    · have : (1 : ℝ) < n := by linarith
      have : (1 : Int) < n := by exact_mod_cast this
      omega

/-- R36: the test of RX_TIMEOUT_T is `T > 0`. -/
theorem Seconds.positive_iff (h : d.Denotes names x) : d.positive = true ↔ 0 < x := by
  cases d with
  | rational q => cases h; simp only [positive, decide_eq_true_eq]; exact_mod_cast Iff.rfl
  | irrational n k =>
    obtain ⟨hi, rfl⟩ := h
    have h1 := Int.fract_lt_one (names k)
    have h0 : 0 < Int.fract (names k) :=
      lt_of_le_of_ne (Int.fract_nonneg _) fun h => hi ⟨⌊names k⌋, by
        have := Int.floor_add_fract (names k)
        rw [← h, add_zero] at this
        simpa using this⟩
    simp only [positive, decide_eq_true_eq]
    refine ⟨fun hn => ?_, fun hx => ?_⟩
    · have : (0 : ℝ) ≤ n := by exact_mod_cast hn
      linarith
    · have : (-1 : ℝ) < n := by linarith
      have : (-1 : Int) < n := by exact_mod_cast this
      omega

/-- Any two real numbers are stood for under the same names. -/
theorem Seconds.exists_denotes (x y : ℝ) :
    ∃ (names : Nat → ℝ) (d e : Seconds), d.Denotes names x ∧ e.Denotes names y := by
  have one : ∀ (names : Nat → ℝ) (k : Nat) (z : ℝ), names k = z → ∃ d : Seconds, d.Denotes names z := by
    intro names k z hz
    by_cases hi : Irrational z
    · exact ⟨.irrational ⌊z⌋ k, by rw [hz]; exact hi, by rw [hz, Int.floor_add_fract]⟩
    · obtain ⟨q, hq⟩ := not_not.mp hi
      exact ⟨.rational q, hq.symm⟩
  obtain ⟨d, hd⟩ := one (fun k => if k = 0 then x else y) 0 x rfl
  obtain ⟨e, he⟩ := one (fun k => if k = 0 then x else y) 1 y rfl
  exact ⟨_, d, e, hd, he⟩

end Sys2Proof
end

