-- ==== Sys2Proof/Laws/Steps.lean ====
section
/-!
SUPPORT. Everything an instruction, and everything a step, can do to each engine, said once: the later proofs split on these
cases and never unfold a meaning.
-/

namespace Sys2Proof.Machine

/-- What one of REPLICA's own steps can make of a REPLICA instance. -/
inductive ReplicaEffect (r : Replica) : Replica → Prop
  | held : ReplicaEffect r r
  | byteIn (b : Byte) (rest : List Byte) : r.phase = .intake → r.buf.length < 6 → r.rxFifo = b :: rest →
      ReplicaEffect r (({ r with rxFifo := rest } : Replica).collect b)
  | resync : r.phase = .intake → r.rxFifo = [] → ReplicaEffect r { r with buf := [] }
  | halt : r.phase = .intake → 6 ≤ r.buf.length →
      ReplicaEffect r { r.emit (.intakeOverflow r.buf) with phase := .halted }
  | processed (f : Frame) : r.phase = .process → r.frame = some f → ReplicaEffect r (r.processFrame f)
  | echoIn (b : Byte) (rest : List Byte) (r' : Replica) : r.phase = .echo → r.rxFifo = b :: rest →
      ({ r with rxFifo := rest } : Replica).collectEcho b = .ok r' → ReplicaEffect r r'

/-- What the instruction `i` of MASTER can make of a MASTER instance. -/
inductive MasterEffect (i : Instr) (m : Master) : Master → Prop
  | held : MasterEffect i m m
  | fired : i = .mTick → m.phase = .idle → m.tickOffered = true → MasterEffect i m m.fire
  | byteIn (b : Byte) (rest : List Byte) : m.phase = .resp → m.rxFifo = b :: rest →
      MasterEffect i m (({ m with rxFifo := rest } : Master).collect b)
  | shortRead : m.phase = .resp → m.rxFifo = [] →
      MasterEffect i m { m.emit (.shortRead m.resp) with resp := [], phase := .idle }
  | edited (fid : BitVec 4) (v : Byte) (fld : EditField) : i.event = some (.edit fid v) →
      EditField.ofFid fid = some fld → fld.legalCode v = true →
      MasterEffect i m { m with pending := m.lastSent.set fld v }
  | reported (r : RejectReason) : i.port = some .edit → MasterEffect i m (m.emit (.userInputError r))

theorem edit_effect {i : Instr} {fid : BitVec 4} {v : Byte} {fld : EditField} (m : Master)
    (he : i.event = some (.edit fid v)) (hp : i.port = some .edit) (hf : EditField.ofFid fid = some fld) :
    MasterEffect i m (m.edit fld v) := by
  rcases Master.edit_cases fld v m with ⟨h1, h2⟩ | ⟨-, h2⟩ <;> rw [h2]
  · exact .edited fid v fld he hf h1
  · exact .reported _ hp

/-- Everything an instruction can do where it answers a next state: a call writes `result`, an engine's instruction makes
an effect on that engine, a RESET is held or done. -/
theorem exec_eq_next {i : Instr} {s t : State} (h : exec i s = .next t) :
    (i.isCall = true ∧ i.engine = none ∧ ∃ c, t = s.setResult c) ∨
    (i.engine = some .replica ∧ (∀ e, i ≠ .reset e) ∧ ∃ r, t = s.setReplica r ∧ ReplicaEffect s.replica r) ∨
    (i.engine = some .master ∧ (∀ e, i ≠ .reset e) ∧ ∃ m, t = s.setMaster m ∧ MasterEffect i s.master m) ∨
    (i = .reset .replica ∧ (t = s ∨
      (s.replica.started = false ∧ s.replica.cfg.legal = true ∧ t = s.setReplica s.replica.doReset))) ∨
    (i = .reset .master ∧ (t = s ∨
      (s.master.started = false ∧ s.master.cfg.legal = true ∧ t = s.setMaster s.master.doReset))) := by
  have ed : ∀ (j : Instr) (fld : EditField) (v : Byte), j = editInstr fld.fid v → exec j s = .next t →
      ∃ m, t = s.setMaster m ∧ MasterEffect j s.master m := by
    rintro j fld v rfl h
    rw [exec_editInstr, EditField.ofFid_fid] at h
    cases h
    exact ⟨_, rfl, edit_effect _ (editInstr_fid _ v).1 (editInstr_fid _ v).2 (EditField.ofFid_fid fld)⟩
  cases i with
  | reset e =>
    cases e with
    | replica =>
      refine .inr (.inr (.inr (.inl ⟨rfl, ?_⟩)))
      rw [exec_reset_replica] at h
      split_ifs at h with h1 h2
      · cases h; exact .inl rfl
      · cases h; exact .inr ⟨by simpa using h1, h2, rfl⟩
    | master =>
      refine .inr (.inr (.inr (.inr ⟨rfl, ?_⟩)))
      rw [exec_reset_master] at h
      split_ifs at h with h1 h2
      · cases h; exact .inl rfl
      · cases h; exact .inr ⟨by simpa using h1, h2, rfl⟩
  | rRxByte b =>
    cases h
    refine .inr (.inl ⟨rfl, by simp, _, rfl, ?_⟩)
    rcases Replica.rxByte_cases b s.replica with h | ⟨rest, h1, h2, h3, h4⟩
    · rw [h]; exact .held
    · rw [h4]; exact .byteIn b rest h1 h2 h3
  | rRxTimeout =>
    cases h
    refine .inr (.inl ⟨rfl, by simp, _, rfl, ?_⟩)
    rcases Replica.rxTimeout_cases s.replica with h | ⟨h1, h2, h3⟩
    · rw [h]; exact .held
    · rw [h3]; exact .resync h1 h2
  | intakeOverflow =>
    cases h
    refine .inr (.inl ⟨rfl, by simp, _, rfl, ?_⟩)
    rcases Replica.overflow_cases s.replica with h | ⟨h1, h2, h3⟩
    · rw [h]; exact .held
    · rw [h3]; exact .halt h1 h2
  | rProcess =>
    refine .inr (.inl ⟨rfl, by simp, ?_⟩)
    rw [exec_rProcess] at h
    cases hp : s.replica.process with
    | error e => rw [hp] at h; cases h
    | ok r =>
      rw [hp] at h; cases h
      refine ⟨_, rfl, ?_⟩
      rcases Replica.process_eq_ok.mp hp with ⟨-, rfl⟩ | ⟨f, h1, h2, rfl⟩
      · exact .held
      · exact .processed f h1 h2
  | rEchoByte b =>
    refine .inr (.inl ⟨rfl, by simp, ?_⟩)
    rw [exec_rEchoByte] at h
    cases hp : s.replica.echoByte b with
    | error e => rw [hp] at h; cases h
    | ok r =>
      rw [hp] at h; cases h
      refine ⟨_, rfl, ?_⟩
      rcases Replica.echoByte_cases b s.replica with h1 | ⟨rest, h1, h2, h3⟩
      · rw [h1] at hp; cases hp; exact .held
      · rw [h3] at hp; exact .echoIn b rest _ h1 h2 hp
  | rEchoTimeout => cases h; exact .inr (.inl ⟨rfl, by simp, _, rfl, .held⟩)
  | mTick =>
    cases h
    refine .inr (.inr (.inl ⟨rfl, by simp, _, rfl, ?_⟩))
    rcases Master.tick_cases s.master with h | ⟨h1, h2, h3⟩
    · rw [h]; exact .held
    · rw [h3]; exact .fired rfl h1 h2
  | mRespByte b =>
    cases h
    refine .inr (.inr (.inl ⟨rfl, by simp, _, rfl, ?_⟩))
    rcases Master.respByte_cases b s.master with h | ⟨rest, h1, h2, h3⟩
    · rw [h]; exact .held
    · rw [h3]; exact .byteIn b rest h1 h2
  | mRespTimeout =>
    cases h
    refine .inr (.inr (.inl ⟨rfl, by simp, _, rfl, ?_⟩))
    rcases Master.respTimeout_cases s.master with h | ⟨h1, h2, h3⟩
    · rw [h]; exact .held
    · rw [h3]; exact .shortRead h1 h2
  | mEditMode v => exact .inr (.inr (.inl ⟨rfl, by simp, ed _ .mode v rfl h⟩))
  | mEditResistorHeating v => exact .inr (.inr (.inl ⟨rfl, by simp, ed _ .resistorHeating v rfl h⟩))
  | mEditRunning v => exact .inr (.inr (.inl ⟨rfl, by simp, ed _ .running v rfl h⟩))
  | mEditRoomTemperature v => exact .inr (.inr (.inl ⟨rfl, by simp, ed _ .roomTemperature v rfl h⟩))
  | mEditPlasma v => exact .inr (.inr (.inl ⟨rfl, by simp, ed _ .plasma v rfl h⟩))
  | mEditFanSpeed v => exact .inr (.inr (.inl ⟨rfl, by simp, ed _ .fanSpeed v rfl h⟩))
  | mEditSetTemperature v => exact .inr (.inr (.inl ⟨rfl, by simp, ed _ .setTemperature v rfl h⟩))
  | mEditSwivel v => exact .inr (.inr (.inl ⟨rfl, by simp, ed _ .swivel v rfl h⟩))
  | mEditSwirl v => exact .inr (.inr (.inl ⟨rfl, by simp, ed _ .swirl v rfl h⟩))
  | mEditUnknownFid fid v =>
    refine .inr (.inr (.inl ⟨rfl, by simp, ?_⟩))
    rw [exec_mEditUnknownFid, exec_editInstr] at h
    cases h
    refine ⟨_, rfl, ?_⟩
    split
    · exact edit_effect _ rfl rfl ‹_›
    · exact .reported _ rfl
  | mEditRejectNoEquals => cases h; exact .inr (.inr (.inl ⟨rfl, by simp, _, rfl, .reported _ rfl⟩))
  | mEditRejectUnknownAttribute => cases h; exact .inr (.inr (.inl ⟨rfl, by simp, _, rfl, .reported _ rfl⟩))
  | mEditRejectBadValue => cases h; exact .inr (.inr (.inl ⟨rfl, by simp, _, rfl, .reported _ rfl⟩))
  | _ => cases h; exact .inl ⟨rfl, rfl, _, rfl⟩

/-- What a step of the machine can make of a REPLICA instance. -/
inductive ReplicaChange (r : Replica) : Replica → Prop
  | same : ReplicaChange r r
  | arrived (b : Byte) : ReplicaChange r { r with rxFifo := r.rxFifo ++ [b] }
  | configured (c : ReplicaParams) : ReplicaChange r { r with cfg := c }
  | stepped (r' : Replica) : ReplicaEffect r r' → ReplicaChange r { r' with started := true }
  | reset : r.started = false → r.cfg.legal = true → ReplicaChange r { r.doReset with started := true }

/-- What becomes of the EDIT port where the instruction `i` of MASTER runs: MASTER.EDIT takes the word that heads it, and no
other (R122). -/
def PortTaken (m : Master) (i : Instr) (p : List EventWord) : Prop :=
  (i.port ≠ some .edit ∧ p = m.editPort) ∨ ∃ w, m.editPort = w :: p ∧ decodeAt .edit w = .instr i

/-- What a step of the machine can make of a MASTER instance. -/
inductive MasterChange (m : Master) : Master → Prop
  | same : MasterChange m m
  | arrived (b : Byte) : MasterChange m { m with rxFifo := m.rxFifo ++ [b] }
  | ticked : MasterChange m { m with tickOffered := true }
  | offered (w : EventWord) : MasterChange m { m with editPort := m.editPort ++ [w] }
  | configured (c : MasterParams) : MasterChange m { m with cfg := c }
  | stepped (i : Instr) (p : List EventWord) (m' : Master) : PortTaken m i p →
      MasterEffect i { m with editPort := p } m' → MasterChange m { m' with started := true }
  | reset (p : List EventWord) : PortTaken m (.reset .master) p → m.started = false →
      m.cfg.legal = true →
      MasterChange m { ({ m with editPort := p } : Master).doReset with started := true }

/-- The instructions that the EDIT port selects are MASTER's. -/
theorem decodeAt_edit_engine {w : EventWord} {i : Instr} (h : decodeAt .edit w = .instr i) :
    i.engine = some .master := by
  unfold decodeAt at h
  cases he : decodeEvent w with
  | error r => rw [he] at h; cases h
  | ok e =>
    rw [he] at h
    cases e with
    | edit fid v =>
      cases h
      unfold editInstr
      split <;> rfl
    | editReject r => cases h; cases r <;> rfl
    | reset => cases h; rfl
    | step => cases h
    | rxByte b => cases h
    | rxTimeout => cases h
    | tick => cases h

/-- The state in which a fetched instruction runs, for an instruction that is not MASTER's: as it was. -/
theorem fetch_eq_run_of_engine {inp : Input} {s u : State} {i : Instr} (h : fetch inp s = .run i u)
    (he : i.engine ≠ some .master) : u = s := by
  rcases fetch_eq_run_port h with ⟨-, hu⟩ | ⟨w, ws, -, hd, -⟩
  · exact hu
  · exact absurd (decodeAt_edit_engine hd) he

/-- Everything a step can do to the two engines. -/
theorem step_changes {s t : State} (h : step s = .next t) :
    ReplicaChange s.replica t.replica ∧ MasterChange s.master t.master := by
  rcases step_eq_next.mp h with ⟨-, rfl⟩ | ⟨inp, rest, -, ⟨i, u, v, h1, h2, rfl⟩ | hq⟩
  · exact ⟨.same, .same⟩
  · have hu : u.replica = s.replica := by rcases fetch_eq_run_state h1 with rfl | rfl <;> rfl
    have hm : i.engine ≠ some .master → u.master = s.master := fun he => by
      rw [fetch_eq_run_of_engine h1 he]
    obtain ⟨p, hp, hx⟩ : ∃ p, PortTaken s.master i p ∧ u.master = { s.master with editPort := p } := by
      rcases fetch_eq_run_port h1 with ⟨h3, rfl⟩ | ⟨w, ws, h3, h4, rfl⟩
      · exact ⟨_, .inl ⟨h3, rfl⟩, rfl⟩
      · exact ⟨ws, .inr ⟨w, h3, h4⟩, rfl⟩
    rcases exec_eq_next h2 with ⟨-, he, c, rfl⟩ | ⟨he, -, r, rfl, hr⟩ | ⟨he, -, m, rfl, hme⟩ |
      ⟨rfl, rfl | ⟨hs, hl, rfl⟩⟩ | ⟨rfl, rfl | ⟨hs, hl, rfl⟩⟩
    · rw [he, State.markStarted_none, State.setResult_replica, State.setResult_master, hu, hm (by simp [he])]
      exact ⟨.same, .same⟩
    · rw [he, State.markStarted_replica, State.setReplica_master, State.setReplica_master, hm (by simp [he])]
      exact ⟨.stepped _ (hu ▸ hr), .same⟩
    · rw [he, State.markStarted_master, State.setMaster_replica, State.setMaster_replica, hu]
      exact ⟨.same, .stepped i p _ hp (hx ▸ hme)⟩
    · show ReplicaChange s.replica { v.replica with started := true } ∧ MasterChange s.master v.master
      rw [hu, hm (by simp [Instr.engine])]
      exact ⟨.stepped _ .held, .same⟩
    · show ReplicaChange s.replica { u.replica.doReset with started := true } ∧
        MasterChange s.master u.master
      rw [hu] at hs hl ⊢
      rw [hm (by simp [Instr.engine])]
      exact ⟨.reset hs hl, .same⟩
    · show ReplicaChange s.replica v.replica ∧ MasterChange s.master { v.master with started := true }
      rw [hu, hx]
      exact ⟨.same, .stepped (.reset .master) p _ hp .held⟩
    · show ReplicaChange s.replica u.replica ∧ MasterChange s.master { u.master.doReset with started := true }
      rw [hx] at hs hl ⊢
      rw [hu]
      exact ⟨.same, .reset p hp hs hl⟩
  · rcases fetch_eq_quiet hq with rfl | ⟨e, b, rfl⟩ | rfl | ⟨w, rfl⟩ | ⟨c, rfl⟩ | ⟨c, rfl⟩
    · exact ⟨.same, .same⟩
    · cases e
      · exact ⟨.arrived b, .same⟩
      · exact ⟨.same, .arrived b⟩
    · exact ⟨.same, .ticked⟩
    · exact ⟨.same, .offered w⟩
    · exact ⟨.configured c, .same⟩
    · exact ⟨.same, .configured c⟩

end Sys2Proof.Machine
end

