-- ==== Sys2Proof/Machine/Script.lean ====
section
/-!
DEFINITION. Event scripts, the block's assembly syntax (30_encoding.md rule R75), as statements: the event words a statement
expands to, the inputs by which they come to one engine, and what its assertions ask of the output streams.
-/

namespace Sys2Proof.Machine

/-- A component of an EVT record's payload (R110, R112). -/
inductive EvtValue where
  | decoded (d : DecodedFrame)
  | byte (b : Byte)
  | bytes (l : List Byte)
  | field (fld : FieldName)
  | reason (r : RejectReason)
  deriving DecidableEq, Repr

/-- The recorded payload of a record, component by component (R110, R112). -/
def Evt.payload : Evt → List EvtValue
  | .frameObserved d => [.decoded d]
  | .checksumMismatch expected found raw => [.byte expected, .byte found, .bytes raw.toBytes]
  | .echoMismatch sent got => [.bytes sent.toBytes, .bytes got.toBytes]
  | .response l => [.bytes l]
  | .shortRead l => [.bytes l]
  | .fieldOutOfRange fld => [.field fld]
  | .userInputError r => [.reason r]
  | .intakeOverflow buf => [.bytes buf]

/-- A statement of a script (R75). -/
inductive Stmt where
  | reset
  | rx (bytes : List Byte)
  | timeout
  | step
  | tick
  | edit (line : Text)
  | expectTx (f : Frame)
  /-- The record's code and the components written after it, in order; those left out are not asserted (log entry 33). -/
  | expectEvt (code : Byte) (values : List EvtValue)
  deriving DecidableEq, Repr

/-- The event words of a statement, in order (R75). An assertion is not an event. -/
def Stmt.words : Stmt → List EventWord
  | .reset => [encodeEvent .reset]
  | .rx bytes => bytes.map fun b => encodeEvent (.rxByte b)
  | .timeout => [encodeEvent .rxTimeout]
  | .step => [encodeEvent .step]
  | .tick => [encodeEvent .tick]
  | .edit line => [parseEditLine line]
  | .expectTx _ => []
  | .expectEvt _ _ => []

/-- The event words of a script. -/
def scriptWords (p : List Stmt) : List EventWord := p.flatMap Stmt.words

/-- The agent of an engine that reads its receive FIFO (R18). -/
def Engine.reader : Engine → Agent
  | .replica => .replica
  | .master => .masterTick

/-- The agent of an engine that the EDIT and EDIT_REJECT words are offered to; REPLICA's decoder refuses them (R96). -/
def Engine.editor : Engine → Agent
  | .replica => .replica
  | .master => .masterEdit

/-- What the environment does before it offers an edit word to an engine: CONSOLE's line goes to MASTER's EDIT port (R18,
R103, R122). -/
def Engine.consoleActs (line : Text) : Engine → List Input
  | .replica => []
  | .master => [.consoleLine line]

/-- What the environment does before it offers a tick to an engine: TIMER's offer is MASTER's (R125, R127). -/
def Engine.timerActs : Engine → List Input
  | .replica => []
  | .master => [.timer]

/-- The inputs by which the events of a statement come to one engine: TRANSPORT appends each byte, TIMER offers the
tick and CONSOLE delivers the line, and the words of the statement are offered to the engine, no other event. A word that
selects no step in the engine's phase, or has others before it, waits: the byte stays in the FIFO, the tick is held, the
edit word stays in the EDIT port (R75, R96, R100, R122). -/
def Stmt.inputs (e : Engine) : Stmt → List Input
  | .reset => [.event (Engine.reader e) (encodeEvent .reset)]
  | .rx bytes => bytes.flatMap fun b => [.arrive e b, .event (Engine.reader e) (encodeEvent (.rxByte b))]
  | .timeout => [.event (Engine.reader e) (encodeEvent .rxTimeout)]
  | .step => [.event (Engine.reader e) (encodeEvent .step)]
  | .tick => Engine.timerActs e ++ [.event (Engine.reader e) (encodeEvent .tick)]
  | .edit line => Engine.consoleActs line e ++ [.event (Engine.editor e) (parseEditLine line)]
  | .expectTx _ => []
  | .expectEvt _ _ => []

/-- The inputs of a script run against one engine. -/
def scriptInputs (e : Engine) (p : List Stmt) : List Input := p.flatMap (Stmt.inputs e)

/-- The frame an assertion expects next on TX. -/
def Stmt.expectedTx : Stmt → Option Frame
  | .expectTx f => some f
  | .reset => none
  | .rx _ => none
  | .timeout => none
  | .step => none
  | .tick => none
  | .edit _ => none
  | .expectEvt _ _ => none

/-- The code and the components an assertion expects next on EVT. -/
def Stmt.expectedEvt : Stmt → Option (Byte × List EvtValue)
  | .expectEvt c vs => some (c, vs)
  | .reset => none
  | .rx _ => none
  | .timeout => none
  | .step => none
  | .tick => none
  | .edit _ => none
  | .expectTx _ => none

/-- Whether a record matches an assertion: its code, and each component written. -/
def Evt.matchesExpected (e : Evt) (c : Byte) (vs : List EvtValue) : Bool := e.code == c && vs.isPrefixOf e.payload

/-- The records match the assertions one by one, from the first. -/
def evtsMatch : List (Byte × List EvtValue) → List Evt → Bool
  | [], _ => true
  | _ :: _, [] => false
  | (c, vs) :: cs, e :: es => e.matchesExpected c vs && evtsMatch cs es

/-- The assertions of a script hold of the records an engine has written: the expected ones, in order, are the first on
each stream (R75, R112). R75 says "the next" record and not at which point of the run an assertion is checked: that it is
checked on the stream as a whole, wherever it stands among the events, is the model's choice (DESIGN CHOICE, log entry
35). -/
def expectationsHold (p : List Stmt) (tx : List Frame) (evt : List Evt) : Bool :=
  (p.filterMap Stmt.expectedTx).isPrefixOf tx && evtsMatch (p.filterMap Stmt.expectedEvt) evt

end Sys2Proof.Machine
end

