-- ==== Sys2Proof/Tests/Slice0.lean ====
section
/-!
SUPPORT. Small tests. Expected values are those of spec/95_test_vectors.md (the vector or program is named at each test)
or of the rule named; words are written out from 30_encoding.md's event-word table. The last part has a witness for each
statement with hypotheses: test_witness_<Name> shows states and operands that meet those of Obligations.<Name>, clause by
clause, at the ends of their ranges.
-/

namespace Sys2Proof.Tests

set_option Elab.async false

open Sys2Proof.Machine

/-- The outcome is a next state with the property. -/
def nextIs (p : State → Bool) : Host.Outcome State Fault Refusal → Bool
  | .next t => p t
  | .fault _ => false
  | .refused _ => false

/-- The outcome is this refusal. -/
def refusedIs (r : Refusal) : Host.Outcome State Fault Refusal → Bool
  | .next _ => false
  | .fault _ => false
  | .refused r' => r == r'

/-- The outcome is this fault. -/
def faultIs (f : Fault) : Host.Outcome State Fault Refusal → Bool
  | .next _ => false
  | .fault f' => f == f'
  | .refused _ => false

/-- The result that a call leaves is this one. -/
def returns (c : CallResult) (i : Instr) : Bool := nextIs (fun t => t.result == some c) (exec i State.reset)

/-- State.reset with REPLICA as given. -/
def withReplica (r : Replica) : State := { State.reset with replica := r }

/-- State.reset with MASTER as given. -/
def withMaster (m : Master) : State := { State.reset with master := m }

/-- A frame from its six bytes. -/
def mkFrame (b0 b1 b2 b3 b4 k : Byte) : Frame := ⟨⟨b0, b1, b2, b3, b4⟩, k⟩

/-- 94 00 00 00 00 C1 (E5). -/
def pollFrame : Frame := mkFrame 0x94#8 0#8 0#8 0#8 0#8 0xC1#8

/-- 94 00 00 00 00 C0 (E3). -/
def badPollFrame : Frame := mkFrame 0x94#8 0#8 0#8 0#8 0#8 0xC0#8

/-- D1 21 E0 00 00 87 (E5). -/
def primaryReply : Frame := mkFrame 0xD1#8 0x21#8 0xE0#8 0#8 0#8 0x87#8

/-- D1 21 E2 00 00 81 (E5). -/
def alternateReply : Frame := mkFrame 0xD1#8 0x21#8 0xE2#8 0#8 0#8 0x81#8

/-- 88 26 00 00 00 FB (E6). -/
def defaultReply : Frame := mkFrame 0x88#8 0x26#8 0#8 0#8 0#8 0xFB#8

/-- 00 21 22 00 00 16 (E7). -/
def keepAlive : Frame := mkFrame 0#8 0x21#8 0x22#8 0#8 0#8 0x16#8

/-- A record with every field 0. -/
def zeroFields : Fields := ⟨0, 0, 0, 0, 0, 0, 0, 0, 0, 0, 0⟩

/-! Ill-formed terms, one for each check of WellFormed. -/

theorem test_wf_refuses_row2_of_poll : WellFormed (.selectReplyRow2 pollPayload) = false := by decide

theorem test_wf_refuses_known_fid : WellFormed (.mEditUnknownFid 8#4 0#8) = false := by decide

theorem test_wf_refuses_inconsistent_frame :
    WellFormed (.fieldsToSettings { Codec.unpack 0#40 0x55#8 with modeRaw := 1#3 }) = false := by decide +kernel

theorem test_wf_takes_decoded_frame : WellFormed (.fieldsToSettings (Codec.unpack 0#40 0x55#8)) = true := by
  decide +kernel

/-! CODEC: V1 to V5. -/

theorem test_checksum_all_ones : returns (.byte 0xAE#8) (.checksum ⟨255#8, 255#8, 255#8, 255#8, 255#8⟩) = true := by
  decide +kernel

theorem test_checksum_wraps : returns (.byte 0x55#8) (.checksum ⟨255#8, 255#8, 2#8, 0#8, 0#8⟩) = true := by
  decide +kernel

/-- V2: every field at its largest legal value. -/
theorem test_encode_largest :
    returns (.encoded (.ok (mkFrame 0xCD#8 0xFF#8 0xCF#8 0x20#8 0x01#8 0xE9#8)))
      (.encode ⟨1, 4, 1, 1, 1, 255, 1, 4, 15, 1, 1⟩) = true := by decide +kernel

/-- V2: mode=7, fan_speed=3: the first in layout order. -/
theorem test_encode_first_illegal :
    returns (.encoded (.fieldOutOfRange .mode)) (.encode { zeroFields with mode := 7, fanSpeed := 3 }) = true := by
  decide +kernel

/-- V3: 02 00 00 DF FE 8A: reserved bits are kept. -/
theorem test_decode_reserved :
    nextIs (fun t => match t.result with
      | some (.decoded (.ok d)) => d.unknown1 == 1#1 && d.unknown3 == 3#2 && d.unknown4 == 31#5 && d.unknown5 == 127#7 &&
          d.swivel == 0#1 && d.swirl == 0#1 && d.config == 0#1 && d.changed == 0#1
      | _ => false)
      (exec (.decode [0x02#8, 0#8, 0#8, 0xDF#8, 0xFE#8, 0x8A#8]) State.reset) = true := by decide +kernel

/-- V3: seven bytes with a bad checksum: the length is checked first. -/
theorem test_decode_length_first :
    returns (.decoded (.badLength 7)) (.decode [0x94#8, 0#8, 0#8, 0#8, 0#8, 0#8, 0#8]) = true := by decide +kernel

/-- V3: D1 21 E0 00 00 87. -/
theorem test_decode_reply_frame :
    nextIs (fun t => match t.result with
      | some (.decoded (.ok d)) => d.config == 1#1 && d.modeRaw == 5#3 && d.mode == .unrecognized && d.changed == 1#1 &&
          d.roomTemperatureC == 53 / 2 && d.plasma == 1#1 && d.fanSpeedRaw == 6#3 && d.fanSpeed == .unrecognized &&
          d.setTemperatureC == 16
      | _ => false)
      (exec (.decode primaryReply.toBytes) State.reset) = true := by decide +kernel

theorem test_room_temp_decode : returns (.roomTemperature (275 / 2)) (.roomTempDecode 255#8) = true := by decide +kernel

theorem test_set_temp_decode : returns (.setTemperature 31) (.setTempDecode 15#4) = true := by decide +kernel

theorem test_room_temp_encode : returns (.roomCode (some 33#8)) (.roomTempEncode (53 / 2)) = true := by decide +kernel

theorem test_room_temp_encode_between : returns (.roomCode none) (.roomTempEncode (263 / 10)) = true := by decide +kernel

theorem test_set_temp_encode : returns (.setCode (some 15#4)) (.setTempEncode 31) = true := by decide +kernel

theorem test_set_temp_encode_high : returns (.setCode none) (.setTempEncode 32) = true := by decide +kernel

/-- V2: Settings {running=1}, c = 1, MASTER_CONFIG_BIT = 1. -/
theorem test_settings_encode_config :
    nextIs (fun t => match t.result with
      | some (.fields f) => Codec.encode f == .ok (mkFrame 0x85#8 0x21#8 0x22#8 0#8 0#8 0x9D#8)
      | _ => false)
      (exec (.settingsEncode { Settings.default with running := 1#1 } 1#1)
        (withMaster { Master.reset with params := { MasterParams.default with masterConfigBit := 1#1 } })) = true := by
  decide +kernel

/-- V5: DECODE(88 26 00 00 00 FB). -/
theorem test_fields_to_settings :
    returns (.settings (some { Settings.default with
      resistorHeating := 1#1, roomTemperature := 38#8, fanSpeed := 0#3, setTemperature := 0#4 }))
      (.fieldsToSettings (Codec.unpack 0x8826000000#40 0xFB#8)) = true := by decide +kernel

/-- V5: DECODE(D1 21 E0 00 00 87): mode code 5. -/
theorem test_fields_to_settings_unrecognized :
    returns (.settings none) (.fieldsToSettings (Codec.unpack 0xD121E00000#40 0x87#8)) = true := by decide +kernel

/-! SELECT_REPLY: V6. -/

theorem test_select_reply_row1 : returns (.reply primaryReply.payload) .selectReplyRow1 = true := by decide +kernel

/-- 96 00 00 00 00: reserved unknown1 differs. -/
theorem test_select_reply_row2 :
    returns (.reply defaultReply.payload) (.selectReplyRow2 ⟨0x96#8, 0#8, 0#8, 0#8, 0#8⟩) = true := by decide +kernel

/-! REPLICA: V7. -/

/-- The 6th byte moves the frame out of the buffer. -/
theorem test_rx_byte_sixth :
    nextIs (fun t => t.replica.phase == .process && t.replica.buf == [] && t.replica.frame == some pollFrame &&
        t.replica.rxFifo == [7#8])
      (exec (.rRxByte 0xC1#8) (withReplica { Replica.reset with
        buf := [0x94#8, 0#8, 0#8, 0#8, 0#8], rxFifo := [0xC1#8, 7#8] })) = true := by decide +kernel

/-- R96: in PROCESS the byte stays in the FIFO. -/
theorem test_rx_byte_waits :
    nextIs (fun t => t.replica.phase == .process && t.replica.rxFifo == [0x94#8] && t.replica.buf == [])
      (exec (.rRxByte 0x94#8) (withReplica { Replica.reset with
        phase := .process, frame := some pollFrame, rxFifo := [0x94#8] })) = true := by decide +kernel

theorem test_rx_timeout_discards :
    nextIs (fun t => t.replica.phase == .intake && t.replica.buf == [] && t.replica.evt == [])
      (exec .rRxTimeout (withReplica { Replica.reset with buf := [0x88#8, 0x26#8, 0#8] })) = true := by decide +kernel

/-- R90. -/
theorem test_intake_overflow :
    nextIs (fun t => t.replica.phase == .halted && t.replica.evt == [.intakeOverflow [1#8, 2#8, 3#8, 4#8, 5#8, 6#8]])
      (exec .intakeOverflow (withReplica { Replica.reset with buf := [1#8, 2#8, 3#8, 4#8, 5#8, 6#8] })) = true := by
  decide +kernel

/-- V7: the first valid frame is observed and answered. -/
theorem test_process_poll :
    nextIs (fun t => t.replica.phase == .echo && t.replica.last == some 0x9400000000#40 &&
        t.replica.reply == some primaryReply && t.replica.tx == [primaryReply] && t.replica.frame == none &&
        t.replica.evt == [.frameObserved (Codec.unpack 0x9400000000#40 0xC1#8)])
      (exec .rProcess (withReplica { Replica.reset with phase := .process, frame := some pollFrame })) = true := by
  decide +kernel

/-- V7 and P3b: a bad checksum, answered with REPLY_E_BYTE = 0xE2. -/
theorem test_process_bad_checksum_answered :
    nextIs (fun t => t.replica.phase == .echo && t.replica.last == none && t.replica.tx == [alternateReply] &&
        t.replica.evt == [.checksumMismatch 0xC1#8 0xC0#8 badPollFrame])
      (exec .rProcess (withReplica { Replica.reset with
        phase := .process, frame := some badPollFrame
        params := { ReplicaParams.default with replyOnBadChecksum := true, replyEByte := .e2 } })) = true := by
  decide +kernel

/-- V7: a bad echo byte. -/
theorem test_echo_mismatch :
    nextIs (fun t => t.replica.phase == .intake && t.replica.echo == [] && t.replica.rxFifo == [] &&
        t.replica.evt == [.echoMismatch defaultReply { defaultReply with checksum := 0xFA#8 }])
      (exec (.rEchoByte 0xFA#8) (withReplica { Replica.reset with
        phase := .echo, reply := some defaultReply, echo := [0x88#8, 0x26#8, 0#8, 0#8, 0#8], rxFifo := [0xFA#8] })) = true := by
  decide +kernel

/-- A state that R33 rules out: the 6th echo byte with no reply to compare it with. -/
theorem test_echo_without_reply :
    faultIs .echoWithoutReply
      (exec (.rEchoByte 1#8) (withReplica { Replica.reset with
        phase := .echo, echo := [1#8, 2#8, 3#8, 4#8, 5#8], rxFifo := [1#8] })) = true := by decide +kernel

theorem test_echo_timeout :
    nextIs (fun t => t.replica.phase == .echo && t.replica.echo == [0xD1#8, 0x21#8])
      (exec .rEchoTimeout (withReplica { Replica.reset with
        phase := .echo, reply := some primaryReply, echo := [0xD1#8, 0x21#8] })) = true := by decide +kernel

/-! MASTER.TICK: V8. -/

/-- The keep-alive of E7. -/
theorem test_tick_keep_alive :
    nextIs (fun t => t.master.phase == .resp && t.master.tx == [keepAlive] && t.master.txFrame == some keepAlive &&
        t.master.tickOffered == false)
      (exec .mTick (withMaster { Master.reset with tickOffered := true })) = true := by decide +kernel

/-- Pending with mode code 5: nothing is transmitted. -/
theorem test_tick_out_of_range :
    nextIs (fun t => t.master.phase == .idle && t.master.tx == [] && t.master.evt == [.fieldOutOfRange .mode] &&
        t.master.lastSent == Settings.default)
      (exec .mTick (withMaster { Master.reset with
        tickOffered := true, pending := { Settings.default with mode := 5#3 } })) = true := by decide +kernel

/-- The 12th byte ends the read. -/
theorem test_resp_byte_twelfth :
    nextIs (fun t => t.master.phase == .idle && t.master.resp == [] &&
        t.master.evt == [.response (keepAlive.toBytes ++ defaultReply.toBytes)])
      (exec (.mRespByte 0xFB#8) (withMaster { Master.reset with
        phase := .resp, txFrame := some keepAlive, rxFifo := [0xFB#8],
        resp := keepAlive.toBytes ++ [0x88#8, 0x26#8, 0#8, 0#8, 0#8] })) = true := by decide +kernel

theorem test_resp_timeout :
    nextIs (fun t => t.master.phase == .idle && t.master.resp == [] && t.master.evt == [.shortRead keepAlive.toBytes])
      (exec .mRespTimeout (withMaster { Master.reset with
        phase := .resp, txFrame := some keepAlive, resp := keepAlive.toBytes })) = true := by decide +kernel

/-! MASTER.EDIT: V10. -/

/-- Re-based on m_last_sent: the fan_speed edit is gone. -/
theorem test_edit_mode_rebases :
    nextIs (fun t => t.master.pending == { Settings.default with mode := 4#3 } && t.master.lastSent == Settings.default)
      (exec (.mEditMode 4#8) (withMaster { Master.reset with
        pending := { Settings.default with fanSpeed := 0#3 } })) = true := by decide +kernel

theorem test_edit_mode_bad :
    nextIs (fun t => t.master.pending == Settings.default && t.master.evt == [.userInputError .badValue])
      (exec (.mEditMode 5#8) State.reset) = true := by decide +kernel

theorem test_edit_heating_bad :
    nextIs (fun t => t.master.evt == [.userInputError .badValue]) (exec (.mEditResistorHeating 2#8) State.reset) = true := by
  decide +kernel

theorem test_edit_running :
    nextIs (fun t => t.master.pending == { Settings.default with running := 1#1 }) (exec (.mEditRunning 1#8) State.reset) =
      true := by decide +kernel

theorem test_edit_room_temperature :
    nextIs (fun t => t.master.pending == { Settings.default with roomTemperature := 255#8 })
      (exec (.mEditRoomTemperature 255#8) State.reset) = true := by decide +kernel

theorem test_edit_plasma :
    nextIs (fun t => t.master.pending == { Settings.default with plasma := 1#1 }) (exec (.mEditPlasma 1#8) State.reset) =
      true := by decide +kernel

theorem test_edit_fan_gap :
    nextIs (fun t => t.master.pending == Settings.default && t.master.evt == [.userInputError .badValue])
      (exec (.mEditFanSpeed 3#8) State.reset) = true := by decide +kernel

theorem test_edit_fan_power :
    nextIs (fun t => t.master.pending == { Settings.default with fanSpeed := 4#3 })
      (exec (.mEditFanSpeed 4#8) State.reset) = true := by decide +kernel

theorem test_edit_set_temperature_bad :
    nextIs (fun t => t.master.evt == [.userInputError .badValue]) (exec (.mEditSetTemperature 16#8) State.reset) = true := by
  decide +kernel

theorem test_edit_swivel :
    nextIs (fun t => t.master.pending == { Settings.default with swivel := 1#1 }) (exec (.mEditSwivel 1#8) State.reset) =
      true := by decide +kernel

theorem test_edit_swirl :
    nextIs (fun t => t.master.pending == { Settings.default with swirl := 1#1 }) (exec (.mEditSwirl 1#8) State.reset) =
      true := by decide +kernel

theorem test_edit_unknown_fid :
    nextIs (fun t => t.master.pending == Settings.default && t.master.evt == [.userInputError .unknownAttribute])
      (exec (.mEditUnknownFid 9#4 5#8) State.reset) = true := by decide +kernel

theorem test_edit_reject_no_equals :
    nextIs (fun t => t.master.evt == [.userInputError .noEquals]) (exec .mEditRejectNoEquals State.reset) = true := by
  decide +kernel

theorem test_edit_reject_unknown :
    nextIs (fun t => t.master.evt == [.userInputError .unknownAttribute])
      (exec .mEditRejectUnknownAttribute State.reset) = true := by decide +kernel

theorem test_edit_reject_bad_value :
    nextIs (fun t => t.master.evt == [.userInputError .badValue]) (exec .mEditRejectBadValue State.reset) = true := by
  decide +kernel

/-! PARSE_EDIT_LINE: V9. -/

theorem test_parse_enum_lines :
    ["mode=heat", "mode=HEAT", "  mode=heat  ", "Mode=heat", "mode = heat", "mode=4", "mode=dry", "mode=",
      "fan_speed=power", "fan_speed=3"].map (fun l => parseEditLine l.toList) =
    [0x4004#16, 0x4004#16, 0x4004#16, 0x5002#16, 0x5002#16, 0x5003#16, 0x5003#16, 0x5003#16, 0x4504#16, 0x5003#16] := by
  decide +kernel

theorem test_parse_bool_lines :
    ["running=YES", "running= yes", "running=1", "running=", "swirl=on", "plasma=true=1"].map
      (fun l => parseEditLine l.toList) =
    [0x4201#16, 0x4200#16, 0x4200#16, 0x4200#16, 0x4801#16, 0x4400#16] := by decide +kernel

theorem test_parse_room_lines :
    ["room_temperature=26.5", "room_temperature=21", "room_temperature=10.", "room_temperature=137.5",
      "room_temperature=2.65e1", "room_temperature=.5e2", "room_temperature=26.3", "room_temperature=138",
      "room_temperature=9.5", "room_temperature=inf", "room_temperature=26,5",
      "room_temperature=26.50000000000000001"].map (fun l => parseEditLine l.toList) =
    [0x4321#16, 0x4316#16, 0x4300#16, 0x43FF#16, 0x4321#16, 0x4350#16, 0x5003#16, 0x5003#16, 0x5003#16, 0x5003#16,
      0x5003#16, 0x5003#16] := by decide +kernel

theorem test_parse_set_lines :
    ["set_temperature=24", "set_temperature=20.0", "set_temperature=2.4e1", "set_temperature=31",
      "set_temperature=20.5", "set_temperature=15", "set_temperature=32", "noequals", "=heat", "changed=yes",
      "config=on"].map (fun l => parseEditLine l.toList) =
    [0x4608#16, 0x4604#16, 0x4608#16, 0x460F#16, 0x5003#16, 0x5003#16, 0x5003#16, 0x5001#16, 0x5002#16, 0x5002#16,
      0x5002#16] := by decide +kernel

theorem test_parse_call : returns (.eventWord 0x4004#16) (.parseEditLine "mode=heat".toList) = true := by decide +kernel

/-- The example of R109. -/
theorem test_parse_decimal_negative : Parser.parseDecimal "-3.5".toList = some (-7 / 2) := by decide +kernel

/-! RESET. -/

/-- R133: the parameters are latched and the FIFO is not cleared. -/
theorem test_reset_latches :
    nextIs (fun t => t.replica.params.replyEByte == .e2 && t.replica.buf == [] && t.replica.rxFifo == [9#8])
      (exec (.reset .replica) (withReplica { Replica.reset with
        buf := [1#8], rxFifo := [9#8], cfg := { ReplicaParams.default with replyEByte := .e2 } })) = true := by
  decide +kernel

/-- R135: a PERIOD_N below 2 is refused. -/
theorem test_reset_refuses_period :
    refusedIs (.illegalConfiguration .master)
      (exec (.reset .master) (withMaster { Master.reset with cfg := { MasterParams.default with periodN := .rational (3 / 2) } })) =
      true := by decide +kernel

/-- R7: an irrational PERIOD_N is taken from floor 2 on. -/
theorem test_reset_irrational_period :
    nextIs (fun t => t.master.params.periodN == .irrational 2 0)
      (exec (.reset .master) (withMaster { Master.reset with
        cfg := { MasterParams.default with periodN := .irrational 2 0 } })) = true ∧
    refusedIs (.illegalConfiguration .master)
      (exec (.reset .master) (withMaster { Master.reset with
        cfg := { MasterParams.default with periodN := .irrational 1 0 } })) = true := by decide +kernel

/-! Decoding: words written out from R69 to R72, and V11. -/

theorem test_decode_replica_intake :
    decodeAt (.replica .intake) 0b0001000010010100#16 = .instr (.rRxByte 0x94#8) ∧
    decodeAt (.replica .intake) 0b0010000000000000#16 = .instr .rRxTimeout ∧
    decodeAt (.replica .intake) 0b1111000000000000#16 = .instr (.reset .replica) ∧
    decodeAt (.replica .intake) 0b0000000000000000#16 = .waits ∧
    decodeAt (.replica .intake) 0b0011000000000000#16 = .rejected .wrongAgent := by decide

theorem test_decode_replica_later_phases :
    decodeAt (.replica .process) 0b0000000000000000#16 = .instr .rProcess ∧
    decodeAt (.replica .process) 0b0001000010010100#16 = .waits ∧
    decodeAt (.replica .echo) 0b0001000011111011#16 = .instr (.rEchoByte 0xFB#8) ∧
    decodeAt (.replica .echo) 0b0010000000000000#16 = .instr .rEchoTimeout ∧
    decodeAt (.replica .halted) 0b0010000000000000#16 = .waits := by decide

theorem test_decode_master_tick :
    decodeAt (.tick .idle) 0b0011000000000000#16 = .instr .mTick ∧
    decodeAt (.tick .resp) 0b0001000010001000#16 = .instr (.mRespByte 0x88#8) ∧
    decodeAt (.tick .resp) 0b0010000000000000#16 = .instr .mRespTimeout ∧
    decodeAt (.tick .resp) 0b0011000000000000#16 = .waits ∧
    decodeAt (.tick .idle) 0b0000000000000000#16 = .rejected .wrongAgent ∧
    decodeAt (.tick .idle) 0b1111000000000000#16 = .instr (.reset .master) := by decide

theorem test_decode_edits_low :
    decodeAt .edit 0b0100000000000100#16 = .instr (.mEditMode 4#8) ∧
    decodeAt .edit 0b0100000100000001#16 = .instr (.mEditResistorHeating 1#8) ∧
    decodeAt .edit 0b0100001000000001#16 = .instr (.mEditRunning 1#8) ∧
    decodeAt .edit 0b0100001100100001#16 = .instr (.mEditRoomTemperature 33#8) ∧
    decodeAt .edit 0b0100010000000001#16 = .instr (.mEditPlasma 1#8) := by decide

theorem test_decode_edits_high :
    decodeAt .edit 0b0100010100000010#16 = .instr (.mEditFanSpeed 2#8) ∧
    decodeAt .edit 0b0100011000001111#16 = .instr (.mEditSetTemperature 15#8) ∧
    decodeAt .edit 0b0100011100000001#16 = .instr (.mEditSwivel 1#8) ∧
    decodeAt .edit 0b0100100000000001#16 = .instr (.mEditSwirl 1#8) ∧
    decodeAt .edit 0b0100100100000101#16 = .instr (.mEditUnknownFid 9#4 5#8) ∧
    decodeAt .edit 0b0100111100000101#16 = .instr (.mEditUnknownFid 15#4 5#8) := by decide

theorem test_decode_edit_rejects :
    decodeAt .edit 0b0101000000000001#16 = .instr .mEditRejectNoEquals ∧
    decodeAt .edit 0b0101000000000010#16 = .instr .mEditRejectUnknownAttribute ∧
    decodeAt .edit 0b0101000000000011#16 = .instr .mEditRejectBadValue := by decide

theorem test_decode_refusals :
    [0x6000#16, 0xE000#16, 0x3001#16, 0x2080#16, 0xF0FF#16, 0x0100#16, 0x1100#16, 0x5100#16, 0x5000#16, 0x5004#16].map
      (decodeAt .edit) =
    [.rejected .reservedKind, .rejected .reservedKind, .rejected .dataNotZero, .rejected .dataNotZero,
      .rejected .dataNotZero, .rejected .fidNotZero, .rejected .fidNotZero, .rejected .fidNotZero,
      .rejected .badReason, .rejected .badReason] := by decide

/-- The reply-table rows of the opcode table. -/
theorem test_decode_reply_rows :
    decodeTableWord 40 0x9400000000 = some .selectReplyRow1 ∧
    decodeTableWord 40 0x9400000001 = some (.selectReplyRow2 ⟨0x94#8, 0#8, 0#8, 0#8, 1#8⟩) := by decide

/-! One step. -/

/-- R96: REPLICA's turn in INTAKE with a byte in the FIFO runs R_RX_BYTE, and the run has started. -/
theorem test_step_rx_byte :
    nextIs (fun t => t.replica.buf == [0x94#8] && t.replica.rxFifo == [] && t.inputs == [] && t.replica.started)
      (step { State.reset with replica := { Replica.reset with rxFifo := [0x94#8] }, inputs := [.turn .replica] }) =
      true := by decide +kernel

/-- R100: a tick offered in RESP is held. -/
theorem test_step_tick_held :
    nextIs (fun t => t.master.phase == .resp && t.master.tickOffered && t.master.tx == [] && t.master.evt == [])
      (exec .mTick (withMaster { Master.reset with
        phase := .resp, txFrame := some keepAlive, tickOffered := true })) = true := by decide +kernel

/-- R72: a reserved word at the EDIT port is refused by name. -/
theorem test_step_refuses_reserved :
    refusedIs (.eventWord 0x6000#16 .reservedKind)
      (step { State.reset with
        master := { Master.reset with editPort := [0x6000#16] }, inputs := [.turn .masterEdit] }) = true := by
  decide +kernel

/-- A placed word is what the next step runs: every row of the table that has an event word. -/
theorem test_placed_words_run :
    [0x1094, 0x2000, 0x0000, 0x3000, 0x4004, 0x4905, 0x5003, 0xF000].all
      (fun w => nextIs (fun t => t.inputs == []) (step (State.reset.withFetchWord 16 w))) = true := by decide +kernel

/-- A placed STEP word: the placed frame 00 00 00 00 00 55 is answered (E6). -/
theorem test_placed_step_runs :
    nextIs (fun t => t.replica.tx == [defaultReply] && t.replica.phase == .echo) (step (State.reset.withFetchWord 16 0)) =
      true := by decide +kernel

/-! Scripts. -/

/-- P1: the script. -/
def scriptP1 : List Stmt :=
  [.reset, .rx [0x94#8, 0#8, 0#8, 0#8, 0#8, 0xC1#8], .step, .rx [0xD1#8, 0x21#8, 0xE0#8, 0#8, 0#8, 0x87#8],
   .expectTx primaryReply, .expectEvt 0x01#8 []]

/-- P1: its event words. -/
theorem test_script_words :
    scriptWords scriptP1 = [0xF000#16, 0x1094#16, 0x1000#16, 0x1000#16, 0x1000#16, 0x1000#16, 0x10C1#16, 0x0000#16,
      0x10D1#16, 0x1021#16, 0x10E0#16, 0x1000#16, 0x1000#16, 0x1087#16] := by decide +kernel

/-- P1: its assertions hold of the records that P1 lists. -/
theorem test_script_assertions :
    expectationsHold scriptP1 [primaryReply] [.frameObserved (Codec.unpack 0x9400000000#40 0xC1#8)] = true ∧
    expectationsHold scriptP1 [alternateReply] [.frameObserved (Codec.unpack 0x9400000000#40 0xC1#8)] = false := by
  decide +kernel

/-- R110: an assertion's components are compared with the record's. -/
theorem test_script_record_fields :
    expectationsHold [.expectEvt 0x02#8 [.byte 0xC1#8, .byte 0xC0#8, .bytes badPollFrame.toBytes]] []
      [.checksumMismatch 0xC1#8 0xC0#8 badPollFrame] = true ∧
    expectationsHold [.expectEvt 0x02#8 [.byte 0xC1#8, .byte 0xC2#8]] []
      [.checksumMismatch 0xC1#8 0xC0#8 badPollFrame] = false := by decide +kernel

/-- R96: a STEP statement in INTAKE has no effect, with a byte in the FIFO. -/
theorem test_script_step_waits :
    let s := withReplica { Replica.reset with buf := [1#8], rxFifo := [2#8] }
    nextIs (fun t => t == s) (step { s with inputs := scriptInputs .replica [.step] }) = true := by decide +kernel

/-- R100: a STEP statement is refused at MASTER, and a TICK statement at REPLICA (R96). -/
theorem test_script_misdirected :
    refusedIs (.eventWord 0x0000#16 .wrongAgent)
      (step { State.reset with inputs := scriptInputs .master [.step] }) = true ∧
    refusedIs (.eventWord 0x3000#16 .wrongAgent)
      (step { State.reset with inputs := scriptInputs .replica [.tick] }) = true := by decide +kernel

/-- R100: a TICK word offered in RESP is held, and no byte is taken. -/
theorem test_script_tick_held :
    let s := withMaster { Master.reset with
      phase := .resp, txFrame := some keepAlive, rxFifo := [1#8], tickOffered := true }
    nextIs (fun t => t == s) (step { s with inputs := [.event .masterTick 0x3000#16] }) = true := by decide +kernel

/-- R122: an edit word behind another waits in the EDIT port, while the one before it is taken at once. -/
theorem test_edit_word_waits_for_the_head :
    let s := withMaster { Master.reset with editPort := [0x4500#16, 0x4004#16] }
    nextIs (fun t => t == s) (step { s with inputs := [.event .masterEdit 0x4004#16] }) = true ∧
    nextIs (fun t => t.master.editPort == [0x4004#16] && t.master.started)
      (step { s with inputs := [.event .masterEdit 0x4500#16] }) = true := by decide +kernel

/-- R103 and R122: an EDIT statement delivers its line to the EDIT port, behind what waits there. -/
theorem test_script_edit_waits :
    let s := withMaster { Master.reset with editPort := [0x4500#16] }
    nextIs (fun t => t.master.editPort == [0x4500#16, 0x5001#16] && t.master.evt == [])
      (run 2 { s with inputs := scriptInputs .master [.edit "MODE".toList] }) = true ∧
    nextIs (fun t => t.master.editPort == [] && t.master.evt == [.userInputError .noEquals])
      (run 2 { State.reset with inputs := scriptInputs .master [.edit "MODE".toList] }) = true := by decide +kernel

/-! Witnesses. -/

/-- REPLICA collecting a frame. -/
def intake (buf fifo : List Byte) : State := withReplica { Replica.reset with buf := buf, rxFifo := fifo }

/-- REPLICA with a frame to act on. -/
def processing (f : Frame) : State := withReplica { Replica.reset with phase := .process, frame := some f }

/-- REPLICA collecting the echo of its reply. -/
def echoing (echo fifo : List Byte) : State :=
  withReplica { Replica.reset with
    phase := .echo, reply := some primaryReply, echo := echo, rxFifo := fifo, started := true }

/-- REPLICA halted, its run started. -/
def halted : State := withReplica { Replica.reset with phase := .halted, started := true }

/-- MASTER with a tick offered. -/
def ticking (pending : Settings) : State := withMaster { Master.reset with tickOffered := true, pending := pending }

/-- MASTER reading the response. -/
def responding (resp fifo : List Byte) : State :=
  withMaster { Master.reset with
    phase := .resp, txFrame := some keepAlive, resp := resp, rxFifo := fifo, tickOffered := true, started := true }

/-- The state with these inputs still to come. -/
def withInputs (l : List Input) (s : State) : State := { s with inputs := l }

theorem test_witness_DecodeReadsEveryFieldOrRefuses :
    ([] : List Byte).length ≠ 6 ∧ [1#8, 2#8, 3#8, 4#8, 5#8].length ≠ 6 ∧
    badPollFrame.checksum ≠ Claims.check badPollFrame.payload ∧
    pollFrame.checksum = Claims.check pollFrame.payload := by decide +kernel

theorem test_witness_DecodeGivesBackWhatEncodePacked :
    Codec.encode zeroFields = .ok (mkFrame 0#8 0#8 0#8 0#8 0#8 0x55#8) ∧
    Codec.encode ⟨1, 4, 1, 1, 1, 255, 1, 4, 15, 1, 1⟩ = .ok (mkFrame 0xCD#8 0xFF#8 0xCF#8 0x20#8 0x01#8 0xE9#8) := by
  decide +kernel

theorem test_witness_ChecksumCatchesSingleErrorsOnly :
    0xC0#8 ≠ Codec.checksum pollFrame.payload ∧
    (⟨0x94#8, 0#8, 0#8, 0#8, 1#8⟩ : Payload).word = pollFrame.payload.word ^^^ (1#40 <<< 0) ∧
    (⟨0x14#8, 0#8, 0#8, 0#8, 0#8⟩ : Payload).word = pollFrame.payload.word ^^^ (1#40 <<< 39) ∧
    (0x00 + 0x94 + 0x00 + 0x00 + 0x00) % 256 = (0x94 + 0x00 + 0x00 + 0x00 + 0x00) % 256 := by decide +kernel

theorem test_witness_DecodedFramesEqualIffDataWordsEqual :
    Codec.decode pollFrame.toBytes = .ok (Codec.unpack 0x9400000000#40 0xC1#8) ∧
    Codec.decode primaryReply.toBytes = .ok (Codec.unpack 0xD121E00000#40 0x87#8) := by decide +kernel

theorem test_witness_RoomTemperatureConversionsAreExact :
    2 * ((10 : Rat) - 10) = ((0#8).toNat : Rat) ∧ 2 * ((275 / 2 : Rat) - 10) = ((255#8).toNat : Rat) ∧
    ∀ r : Byte, 2 * ((263 / 10 : Rat) - 10) ≠ (r.toNat : Rat) := by decide +kernel

theorem test_witness_SetTemperatureConversionsAreExact :
    (16 : Rat) - 16 = ((0#4).toNat : Rat) ∧ (31 : Rat) - 16 = ((15#4).toNat : Rat) ∧
    ∀ r : BitVec 4, (32 : Rat) - 16 ≠ (r.toNat : Rat) := by decide +kernel

theorem test_witness_SettingsConversionsCopyTheFields :
    (Codec.unpack 0x5000000000#40 0#8).mode = .unrecognized ∧ (Codec.unpack 0x0000300000#40 0#8).fanSpeed = .unrecognized ∧
    (Codec.unpack 0x4000400000#40 0#8).mode ≠ .unrecognized ∧
    (Codec.unpack 0x4000400000#40 0#8).fanSpeed ≠ .unrecognized := by decide +kernel

theorem test_witness_IntakeTakesOneByte :
    (intake [1#8, 2#8, 3#8, 4#8] [5#8, 6#8]).replica.phase = .intake ∧
    (intake [1#8, 2#8, 3#8, 4#8] [5#8, 6#8]).replica.rxFifo = 5#8 :: [6#8] ∧
    (intake [1#8, 2#8, 3#8, 4#8] [5#8, 6#8]).replica.buf.length < 5 ∧
    (intake [1#8, 2#8, 3#8, 4#8, 5#8] [6#8]).replica.buf = [1#8, 2#8, 3#8, 4#8, 5#8] ∧
    (intake [1#8, 2#8, 3#8, 4#8, 5#8] [6#8]).replica.rxFifo = 6#8 :: [] := by decide +kernel

theorem test_witness_IntakeTimeoutDiscardsThePartialFrame :
    (intake [1#8, 2#8, 3#8, 4#8, 5#8] []).replica.phase = .intake ∧
    (intake [1#8, 2#8, 3#8, 4#8, 5#8] []).replica.rxFifo = [] ∧
    (intake [1#8, 2#8, 3#8, 4#8, 5#8] []).replica.buf.length < 6 := by decide +kernel

theorem test_witness_IntakeOverflowHalts :
    (intake [1#8, 2#8, 3#8, 4#8, 5#8] [6#8]).replica.buf.length < 6 ∧
    nextIs (fun _ => true) (exec (.rRxByte 6#8) (intake [1#8, 2#8, 3#8, 4#8, 5#8] [6#8])) = true ∧
    (intake [1#8, 2#8, 3#8, 4#8, 5#8, 6#8] []).replica.phase = .intake ∧
    6 ≤ (intake [1#8, 2#8, 3#8, 4#8, 5#8, 6#8] []).replica.buf.length := by decide +kernel

theorem test_witness_ProcessReportsAndAnswersTheFrame :
    (processing pollFrame).replica.phase = .process ∧ (processing pollFrame).replica.frame = some pollFrame ∧
    pollFrame.checksum = Claims.check pollFrame.payload ∧
    (processing badPollFrame).replica.frame = some badPollFrame ∧
    badPollFrame.checksum ≠ Claims.check badPollFrame.payload ∧
    (processing badPollFrame).replica.params.replyOnBadChecksum = false := by decide +kernel

/-- The third way through: the reply on a bad checksum is enabled. -/
theorem test_witness_ProcessAnswersABadChecksum :
    let s := withReplica { Replica.reset with
      phase := .process, frame := some badPollFrame
      params := { ReplicaParams.default with replyOnBadChecksum := true } }
    s.replica.phase = .process ∧ s.replica.frame = some badPollFrame ∧
    badPollFrame.checksum ≠ Claims.check badPollFrame.payload ∧ s.replica.params.replyOnBadChecksum = true := by
  decide +kernel

theorem test_witness_SourceTableRepliesAreTheThreeFrames :
    (processing pollFrame).replica.phase = .process ∧ (processing pollFrame).replica.frame = some pollFrame ∧
    pollFrame.checksum = Claims.check pollFrame.payload ∧
    (processing pollFrame).replica.params.replyTable = Claims.sourceTable ∧
    pollFrame.payload = Claims.poll ∧ defaultReply.payload ≠ Claims.poll ∧
    defaultReply.checksum = Claims.check defaultReply.payload := by decide +kernel

theorem test_witness_EchoByteComparesAtSixBytes :
    (echoing [1#8, 2#8, 3#8, 4#8] [5#8, 6#8]).replica.phase = .echo ∧
    (echoing [1#8, 2#8, 3#8, 4#8] [5#8, 6#8]).replica.rxFifo = 5#8 :: [6#8] ∧
    (echoing [1#8, 2#8, 3#8, 4#8] [5#8, 6#8]).replica.echo.length ≠ 5 ∧
    (echoing [1#8, 2#8, 3#8, 4#8, 5#8] [6#8]).replica.rxFifo = 6#8 :: [] ∧
    (echoing [1#8, 2#8, 3#8, 4#8, 5#8] [6#8]).replica.echo = [1#8, 2#8, 3#8, 4#8, 5#8] ∧
    (echoing [1#8, 2#8, 3#8, 4#8, 5#8] [6#8]).replica.reply = some primaryReply := by decide +kernel

theorem test_witness_EchoTimeoutChangesNothing :
    (echoing [1#8] []).replica.phase = .echo ∧ (echoing [1#8] []).replica.rxFifo = [] := by decide +kernel

theorem test_witness_HaltedReplicaStaysHalted :
    halted.replica.phase = .halted ∧ Instr.rRxTimeout.engine = some .replica ∧ Instr.rRxTimeout ≠ .reset .replica ∧
    halted.replica.started = true ∧
    nextIs (fun t => t.replica.rxFifo == [7#8]) (step (withInputs [.arrive .replica 7#8] halted)) = true := by
  decide +kernel

theorem test_witness_ReplicaEnablingTable :
    (intake [1#8, 2#8, 3#8, 4#8, 5#8] [6#8]).replica.phase = .intake ∧
    (intake [1#8, 2#8, 3#8, 4#8, 5#8] [6#8]).replica.buf.length < 6 ∧
    (intake [1#8, 2#8, 3#8, 4#8, 5#8] [6#8]).replica.rxFifo = 6#8 :: [] ∧ (intake [] []).replica.rxFifo = [] ∧
    (processing pollFrame).replica.phase = .process ∧ (echoing [] [6#8]).replica.phase = .echo ∧
    (echoing [] [6#8]).replica.rxFifo = 6#8 :: [] ∧ (echoing [] []).replica.rxFifo = [] ∧
    halted.replica.phase = .halted ∧ RPhase.intake ≠ .process := by decide +kernel

theorem test_witness_ReplicaEventsNotEnabledWait :
    (processing pollFrame).replica.phase ≠ .intake ∧ (intake [] [6#8]).replica.rxFifo.head? ≠ some 5#8 ∧
    (intake [] [6#8]).replica.rxFifo ≠ [] ∧ 6 ≤ (intake [1#8, 2#8, 3#8, 4#8, 5#8, 6#8] []).replica.buf.length ∧
    (intake [1#8, 2#8, 3#8, 4#8, 5#8] []).replica.buf.length < 6 ∧ halted.replica.phase ≠ .process ∧
    halted.replica.phase ≠ .echo ∧ (echoing [] []).replica.rxFifo.head? ≠ some 5#8 ∧
    (echoing [] [6#8]).replica.rxFifo ≠ [] := by decide +kernel

theorem test_witness_TickSendsPendingOrKeepAlive :
    (ticking Settings.default).master.phase = .idle ∧ (ticking Settings.default).master.tickOffered = true ∧
    Claims.encodeResult ⟨0, 0, 0, 0, 0, 33, 0, 2, 2, 0, 0⟩ = .ok keepAlive ∧
    Claims.encodeResult ⟨0, 4, 0, 0, 1, 33, 0, 2, 2, 0, 0⟩ = .ok (mkFrame 0x41#8 0x21#8 0x22#8 0#8 0#8 0xD1#8) ∧
    Claims.encodeResult ⟨0, 5, 0, 0, 1, 33, 0, 2, 2, 0, 0⟩ = .fieldOutOfRange .mode ∧
    Claims.encodeResult ⟨0, 0, 0, 0, 1, 33, 0, 3, 2, 0, 0⟩ = .fieldOutOfRange .fanSpeed := by decide +kernel

theorem test_witness_FirstFrameIsTheDefaultKeepAlive :
    (ticking Settings.default).master.phase = .idle ∧ (ticking Settings.default).master.tickOffered = true ∧
    (ticking Settings.default).master.lastSent = Claims.defaults ∧
    (ticking Settings.default).master.pending = Claims.defaults ∧
    (ticking Settings.default).master.params.masterConfigBit = 0#1 := by decide +kernel

/-- Its run: RESET, a tick, MASTER.TICK's turn. -/
theorem test_witness_FirstFrameOfARunWithoutAnEdit :
    let s := withInputs [.reset .master, .timer, .turn .masterTick] State.reset
    s.master.started = false ∧ s.master.cfg.masterConfigBit = 0#1 ∧
    s.inputs = .reset .master :: [.timer, .turn .masterTick] ∧
    (∀ inp ∈ [Input.timer, .turn .masterTick], ¬ Claims.OffersEdit inp) ∧
    nextIs (fun t => t.master.tx == [keepAlive]) (run 3 s) = true := by
  refine ⟨rfl, rfl, rfl, by simp [Claims.OffersEdit], by decide +kernel⟩

theorem test_witness_ChangedBitIsSentOnExactlyOneTick :
    let s := ticking { Settings.default with mode := 4#3, fanSpeed := 4#3 }
    s.master.phase = .idle ∧ s.master.tickOffered = true ∧ s.master.LegalBanks ∧
    s.master.pending ≠ s.master.lastSent := by decide +kernel

theorem test_witness_ResponseByteSurfacesTwelve :
    (responding (List.replicate 10 0#8) [6#8]).master.phase = .resp ∧
    (responding (List.replicate 10 0#8) [6#8]).master.rxFifo = 6#8 :: [] ∧
    (responding (List.replicate 10 0#8) [6#8]).master.resp.length ≠ 11 ∧
    (responding (List.replicate 11 0#8) [6#8]).master.resp.length = 11 := by decide +kernel

theorem test_witness_ResponseTimeoutReportsShortRead :
    (responding (List.replicate 11 0#8) []).master.phase = .resp ∧
    (responding (List.replicate 11 0#8) []).master.rxFifo = [] := by decide +kernel

theorem test_witness_MasterTickEnablingTable :
    (ticking Settings.default).master.phase = .idle ∧ (ticking Settings.default).master.tickOffered = true ∧
    State.reset.master.tickOffered = false ∧ (responding [] [6#8]).master.phase = .resp ∧
    (responding [] [6#8]).master.rxFifo = 6#8 :: [] ∧ (responding [] []).master.rxFifo = [] ∧
    (responding [] []).master.tickOffered = true ∧
    nextIs (fun t => t.master.tickOffered) (step (withInputs [.turn .masterTick] (responding [] []))) = true ∧
    (withMaster { Master.reset with editPort := [0x4004#16] }).master.editPort = 0x4004#16 :: [] ∧
    decodeAt .edit 0x4004#16 = .instr (.mEditMode 4#8) := by decide +kernel

theorem test_witness_MasterEventsNotEnabledWait :
    (responding [] []).master.phase ≠ .idle ∧ State.reset.master.tickOffered = false ∧
    State.reset.master.phase ≠ .resp ∧ (responding [] [6#8]).master.rxFifo.head? ≠ some 5#8 ∧
    (responding [] [6#8]).master.rxFifo ≠ [] := by decide +kernel

/-- Each attribute's largest legal code and the code after it. -/
theorem test_witness_EditReplacesOneFieldOfLastSent :
    (4#8).toNat ≤ 4 ∧ ¬ (5#8).toNat ≤ 4 ∧ (1#8).toNat ≤ 1 ∧ ¬ (2#8).toNat ≤ 1 ∧ (255#8).toNat ≤ 255 ∧
    (4#8).toNat ∈ [0, 1, 2, 4] ∧ (3#8).toNat ∉ [0, 1, 2, 4] ∧ (15#8).toNat ≤ 15 ∧ ¬ (16#8).toNat ≤ 15 ∧
    8 < (9#4).toNat ∧ 8 < (15#4).toNat ∧ ¬ 8 < (8#4).toNat := by decide

theorem test_witness_OnlyTheLastEditSurvives :
    Claims.IsEdit (.mEditFanSpeed 0#8) ∧ Claims.IsEdit (.mEditMode 4#8) ∧
    ∃ s1 t1 t2, exec (.mEditFanSpeed 0#8) State.reset = .next s1 ∧ exec (.mEditMode 4#8) s1 = .next t1 ∧
      exec (.mEditMode 4#8) State.reset = .next t2 ∧ t1.master.evt = s1.master.evt :=
  ⟨⟨5#4, 0#8, .inl rfl⟩, ⟨0#4, 4#8, .inl rfl⟩, _, _, _, rfl, rfl, rfl, rfl⟩

theorem test_witness_EditToLastSentValueCancels :
    (8#4).toNat ≤ 8 ∧ State.reset.master.lastSent.legal ∧ EditField.ofFid 8#4 = some .swirl ∧
    EditField.ofFid 0#4 = some .mode := by decide +kernel

theorem test_witness_ParseEditLineGivesOneWord :
    Claims.Blank [' ', '\t'] ∧ Claims.Trimmed "noequals".toList ∧ '=' ∉ "noequals".toList ∧
    Claims.Trimmed "Mode=heat".toList ∧ "Mode=heat".toList = "Mode".toList ++ '=' :: "heat".toList ∧
    '=' ∉ "Mode".toList ∧ (∀ name ∈ Claims.attributeNames, "Mode".toList ≠ name.toList) ∧
    Claims.Trimmed "swirl=".toList ∧ "swirl=".toList = "swirl".toList ++ '=' :: [] ∧ '=' ∉ "swirl".toList ∧
    "swirl".toList = (Claims.attributeNames[8]).toList := by
  refine ⟨by simp [Claims.Blank, Parser.isSpace], ⟨?_, ?_⟩, by decide, ⟨?_, ?_⟩, by decide, by decide, by decide +kernel,
    ⟨?_, ?_⟩, by decide, by decide, by decide⟩ <;> (intro c h; cases h; decide)

theorem test_witness_ParseDecimalIsExactOnTheGrammar :
    (Claims.Decimal.mk (some true) [] (some [5]) (some (true, some false, [2]))).InGrammar ∧
    (Claims.Decimal.mk none [1, 0] (some []) none).InGrammar ∧
    Parser.parseDecimal "-.5E+2".toList = some (-50) :=
  ⟨⟨.inr ⟨_, rfl, by decide⟩, by rintro _ _ _ ⟨⟩; decide⟩, ⟨.inl (by decide), by rintro _ _ _ ⟨⟩⟩, by decide +kernel⟩

theorem test_witness_ResetLeavesTheResetValues :
    State.reset.replica.started = false ∧ State.reset.replica.cfg.rxTimeoutT.Denotes (fun _ => 0) 1 ∧
    State.reset.master.started = false ∧ State.reset.master.cfg.periodN.Denotes (fun _ => 0) 2 ∧
    State.reset.master.cfg.rxTimeoutT.Denotes (fun _ => 0) 1 ∧ (2 : ℝ) ≤ 2 ∧ (0 : ℝ) < 1 := by
  refine ⟨rfl, ?_, rfl, ?_, ?_, le_refl _, one_pos⟩ <;>
    simp [Seconds.Denotes, State.reset, Replica.reset, Master.reset, ReplicaParams.default, MasterParams.default]

/-- An irrational duration. -/
theorem test_witness_IrrationalSeconds :
    (Seconds.irrational 2 0).Denotes (fun _ => Real.sqrt 2) (2 + Int.fract (Real.sqrt 2)) ∧
    2 ≤ 2 + Int.fract (Real.sqrt 2) := by
  refine ⟨⟨irrational_sqrt_two, by norm_num⟩, ?_⟩
  linarith [Int.fract_nonneg (Real.sqrt 2)]

theorem test_witness_ResetIsTheFirstEventOnly :
    halted.replica.started = true ∧ (responding [] []).master.started = true ∧
    nextIs (fun t => t.master.started) (step (withInputs [.reset .master] (responding [] []))) = true := by decide +kernel

theorem test_witness_ResetRefusesIllegalConfigurations :
    Master.reset.started = false ∧ Replica.reset.started = false ∧
    (Seconds.rational (3 / 2)).Denotes (fun _ => 0) (3 / 2) ∧ (3 / 2 : ℝ) < 2 ∧
    (Seconds.rational 0).Denotes (fun _ => 0) 0 ∧ (0 : ℝ) ≤ 0 := by
  refine ⟨rfl, rfl, ?_, by norm_num, ?_, le_refl _⟩ <;> simp [Seconds.Denotes]

theorem test_witness_ReservedWordsAreRefused :
    Claims.Reserved 0x6000#16 ∧ Claims.Reserved 0xE0FF#16 ∧ Claims.Reserved 0x1100#16 ∧ Claims.Reserved 0x3001#16 ∧
    Claims.Reserved 0x5004#16 ∧ Claims.Reserved 0x5000#16 ∧ ¬ Claims.Reserved 0x5003#16 ∧
    ¬ Claims.Reserved 0x4FFF#16 ∧ ¬ Claims.Reserved 0xF000#16 := by
  simp [Claims.Reserved]

theorem test_witness_StepRefusesReservedEditWords :
    (withInputs [.turn .masterEdit] State.reset).inputs = .turn .masterEdit :: [] ∧
    (withMaster { Master.reset with editPort := [0x6000#16] }).master.editPort = 0x6000#16 :: [] ∧
    Claims.Reserved 0x6000#16 := by
  simp only [Claims.Reserved]; decide

theorem test_witness_DecodeEncodeGivesTheInstructionBack :
    WellFormed (.mEditUnknownFid 9#4 255#8) = true ∧ (Instr.mEditUnknownFid 9#4 255#8).port = some .edit ∧
    encode (.mEditUnknownFid 9#4 255#8) = some (.event 0x49FF#16) ∧
    WellFormed (.selectReplyRow2 ⟨0x94#8, 0#8, 0#8, 0#8, 1#8⟩) = true ∧
    encode (.selectReplyRow2 ⟨0x94#8, 0#8, 0#8, 0#8, 1#8⟩) = some (.replyPayload 0x9400000001#40) ∧
    Instr.rProcess.isCall = false ∧ Instr.rProcess ≠ .intakeOverflow := by decide +kernel

theorem test_witness_EncodeDecodeGivesTheWordBack :
    decodeAt .edit 0x4FFF#16 = .instr (.mEditUnknownFid 15#4 255#8) ∧
    decodeAt (.tick .resp) 0x10FF#16 = .instr (.mRespByte 255#8) := by decide

theorem test_witness_StepRunsTheDecodedInstruction :
    let s := withInputs [.turn .replica] (intake [] [0x94#8])
    let u := withInputs [.turn .masterEdit] (withMaster { Master.reset with editPort := [0x4004#16] })
    s.inputs = .turn .replica :: [] ∧
    ¬ (Agent.replica = .replica ∧ s.replica.phase = .intake ∧ 6 ≤ s.replica.buf.length) ∧
    s.eventWord? .replica = some 0x1094#16 ∧ decodeAt (s.port .replica) 0x1094#16 = .instr (.rRxByte 0x94#8) ∧
    u.inputs = .turn .masterEdit :: [] ∧ u.eventWord? .masterEdit = some 0x4004#16 ∧
    decodeAt (u.port .masterEdit) 0x4004#16 = .instr (.mEditMode 4#8) := by decide +kernel

/-- Its stop: the instruction that faults. -/
theorem test_witness_StepRunsAnInstructionThatFaults :
    let s := withInputs [.turn .replica] (withReplica { Replica.reset with phase := .process })
    s.eventWord? .replica = some 0x0000#16 ∧ decodeAt (s.port .replica) 0x0000#16 = .instr .rProcess ∧
    faultIs .processWithoutFrame (exec .rProcess (withInputs [] s)) = true := by decide +kernel

theorem test_witness_StepTakesTheEnvironmentsActs :
    (withInputs [.arrive .master 1#8] State.reset).inputs = .arrive .master 1#8 :: [] ∧
    (withInputs [.reset .replica] State.reset).inputs = .reset .replica :: [] ∧
    nextIs (fun _ => true) (exec (.reset .replica) (withInputs [] State.reset)) = true ∧
    (Instr.checksum ⟨1#8, 2#8, 3#8, 4#8, 5#8⟩).isCall = true ∧ Instr.rProcess.isCall = false := by decide +kernel

/-- Its other outcomes: the refused RESET, and an offered word that runs, waits, and is rejected. -/
theorem test_witness_StepTakesRefusedAndOfferedWords :
    refusedIs (.illegalConfiguration .replica)
      (exec (.reset .replica) (withReplica { Replica.reset with
        cfg := { ReplicaParams.default with rxTimeoutT := .rational 0 } })) = true ∧
    decodeAt (State.reset.port .replica) 0x2000#16 = .instr .rRxTimeout ∧
    decodeAt (State.reset.port .replica) 0x0000#16 = .waits ∧
    decodeAt (State.reset.port .replica) 0x3000#16 = .rejected .wrongAgent ∧
    faultIs .processWithoutFrame (exec .rProcess (withReplica { Replica.reset with phase := .process })) = true := by
  decide +kernel

/-- Its words at MASTER.EDIT: the RESET word, one that heads the EDIT port, and one that waits behind it. -/
theorem test_witness_StepTakesWordsAtTheEditPort :
    let s := withInputs [.event .masterEdit 0x4004#16] (withMaster { Master.reset with editPort := [0x4004#16] })
    decodeAt (s.port .masterEdit) 0xF000#16 = .instr (.reset .master) ∧
    decodeAt (s.port .masterEdit) 0x4004#16 = .instr (.mEditMode 4#8) ∧ s.master.editPort = 0x4004#16 :: [] ∧
    nextIs (fun _ => true) (exec (.mEditMode 4#8) (withInputs [] (withMaster Master.reset))) = true ∧
    decodeAt (s.port .masterEdit) 0x4500#16 = .instr (.mEditFanSpeed 0#8) ∧
    s.master.editPort.head? ≠ some 0x4500#16 := by decide +kernel

/-- A state past reset that meets the invariants, and a step from it. -/
theorem test_witness_EveryStepKeepsTheEngineInvariants :
    (withInputs [.turn .replica] (echoing [1#8, 2#8, 3#8, 4#8, 5#8] [6#8])).Inv ∧
    ∃ t, step (withInputs [.turn .replica] (echoing [1#8, 2#8, 3#8, 4#8, 5#8] [6#8])) = .next t :=
  ⟨⟨⟨rfl, rfl, by decide, rfl⟩, rfl⟩, _, rfl⟩

/-- The same of MASTER, in the response read. -/
theorem test_witness_MasterInvariantMidResponse :
    (withInputs [.turn .masterTick] (responding (List.replicate 11 0#8) [6#8])).Inv ∧
    ∃ t, step (withInputs [.turn .masterTick] (responding (List.replicate 11 0#8) [6#8])) = .next t :=
  ⟨⟨⟨by decide, rfl, rfl⟩, ⟨by decide, rfl⟩⟩, _, rfl⟩

theorem test_witness_EveryStepKeepsTheBanksLegal :
    let s := withInputs [.turn .masterTick] (ticking { Settings.default with mode := 4#3, fanSpeed := 4#3 })
    s.master.LegalBanks ∧ nextIs (fun t => t.master.lastSent == s.master.pending) (step s) = true := by decide +kernel

theorem test_witness_InvariantStatesNeverHaltOrFault :
    State.reset.Inv ∧ State.reset.FaultFree ∧ (∃ t, step State.reset = .next t) ∧
    faultIs .processWithoutFrame (exec .rProcess (withReplica { Replica.reset with phase := .process })) = true :=
  ⟨⟨⟨by decide, rfl, rfl⟩, rfl⟩, by decide, ⟨_, rfl⟩, by decide +kernel⟩

/-- A step that appends to MASTER's TX stream, and one that appends to both of REPLICA's streams. -/
theorem test_witness_EveryStepAppendsAtMostOneRecord :
    nextIs (fun t => t.master.tx == [keepAlive]) (step (withInputs [.turn .masterTick] (ticking Settings.default))) =
      true ∧
    nextIs (fun t => t.replica.tx == [primaryReply] && t.replica.evt.length == 1)
      (step (withInputs [.turn .replica] (processing pollFrame))) = true := by decide +kernel

theorem test_witness_EnginesTransmitOnlyInTheirPhase :
    nextIs (fun t => t.master.tx != []) (step (withInputs [.turn .masterTick] (ticking Settings.default))) = true ∧
    nextIs (fun t => t.replica.tx != []) (step (withInputs [.turn .replica] (processing pollFrame))) = true := by
  decide +kernel

theorem test_witness_InstructionsLeaveTheOtherEngine :
    nextIs (fun t => t.replica.buf == [1#8]) (exec (.rRxByte 1#8) (intake [] [1#8])) = true ∧
    Instr.mTick.engine ≠ some .replica ∧ (Instr.rRxByte 1#8).engine ≠ some .master ∧
    (Instr.rRxByte 1#8).isCall = false := by decide +kernel

theorem test_witness_OnlyTickAndEditWriteTheBanks :
    nextIs (fun t => t.master.lastSent != Settings.default)
      (exec .mTick (ticking { Settings.default with mode := 4#3 })) = true ∧
    nextIs (fun t => t.master.pending != Settings.default) (exec (.mEditMode 4#8) State.reset) = true := by
  decide +kernel

theorem test_witness_FifosLoseOnlyTheirHead :
    nextIs (fun t => t.replica.rxFifo == [2#8]) (step (withInputs [.turn .replica] (intake [] [1#8, 2#8]))) = true ∧
    nextIs (fun t => t.master.rxFifo == [1#8, 2#8])
      (step (withInputs [.arrive .master 2#8] (responding [] [1#8]))) = true := by decide +kernel

/-- Its EDIT port in a started run: the head is taken and becomes pending. -/
theorem test_witness_PendingComesFromTheEditPort :
    let s := withInputs [.turn .masterEdit] (withMaster { Master.reset with
      started := true, editPort := [Claims.editWord 0#4 4#8, Claims.editWord 5#4 4#8] })
    s.master.started = true ∧ nextIs (fun t => t.master.pending != s.master.pending &&
      s.master.editPort == Claims.editWord 0#4 4#8 :: t.master.editPort) (step s) = true := by decide +kernel

theorem test_witness_ParametersAreFixedDuringARun :
    halted.replica.started = true ∧ (responding [] []).master.started = true ∧
    nextIs (fun t => t.replica.cfg.replyEByte == .e2)
      (step (withInputs [.configureReplica { ReplicaParams.default with replyEByte := .e2 }] halted)) = true := by
  decide +kernel

theorem test_witness_TimingParametersHaveNoEffect : ∀ e, Instr.mTick ≠ .reset e := by
  intro e; exact Instr.noConfusion

theorem test_witness_SixIntakeTurnsCollectAFrame :
    let s := withInputs (List.replicate 6 (.turn .replica) ++ [.timer]) (intake [] (pollFrame.toBytes ++ [7#8]))
    s.replica.phase = .intake ∧ s.replica.buf = [] ∧ s.replica.rxFifo = pollFrame.toBytes ++ [7#8] ∧
    s.inputs = List.replicate 6 (.turn .replica) ++ [.timer] := by decide +kernel

theorem test_witness_TwelveResponseTurnsSurfaceTheBytes :
    let bytes := keepAlive.toBytes ++ defaultReply.toBytes
    let s := withInputs (List.replicate 12 (.turn .masterTick) ++ [.timer]) (responding [] (bytes ++ [7#8]))
    s.master.phase = .resp ∧ s.master.resp = [] ∧ bytes.length = 12 ∧ s.master.rxFifo = bytes ++ [7#8] ∧
    s.inputs = List.replicate 12 (.turn .masterTick) ++ [.timer] := by decide +kernel

theorem test_witness_EchoWaitDoesNotTimeOut :
    let s := withInputs (List.replicate 3 (.turn .replica) ++ [.timer]) (echoing [1#8] [])
    s.replica.phase = .echo ∧ s.replica.rxFifo = [] ∧ s.replica.started = true ∧
    s.inputs = List.replicate 3 (.turn .replica) ++ [.timer] := by decide +kernel

end Sys2Proof.Tests
end

section
/-!
The reset state (family 10_state): the model's defaults are the values the spec writes out, and the statement about
State.reset.
-/

namespace Sys2Proof.Proofs

open Sys2Proof.Machine

/-- The model's SETTINGS_DEFAULT, written field by field, has the codes of R22. -/
theorem settingsDefault_eq_defaults : Settings.default = Claims.defaults := rfl

/-- The model's default REPLY_TABLE is the source's two rows (R67). -/
theorem replyTableDefault_eq_sourceTable : ReplyTable.default = Claims.sourceTable := rfl

/-- REPLICA's registers at reset (R38): it waits for a frame's first byte and holds no frame, reply or byte. -/
theorem replicaReset_registers :
    Replica.reset.phase = .intake ∧ Replica.reset.buf = [] ∧ Replica.reset.frame = none ∧ Replica.reset.last = none ∧
    Replica.reset.reply = none ∧ Replica.reset.echo = [] :=
  ⟨rfl, rfl, rfl, rfl, rfl, rfl⟩

/-- MASTER's registers at reset (R38): both banks at SETTINGS_DEFAULT (R23), and no tick under way. -/
theorem masterReset_registers :
    Master.reset.lastSent = Claims.defaults ∧ Master.reset.pending = Claims.defaults ∧ Master.reset.phase = .idle ∧
    Master.reset.txFrame = none ∧ Master.reset.resp = [] :=
  ⟨settingsDefault_eq_defaults, settingsDefault_eq_defaults, rfl, rfl, rfl⟩

/-- Settles O37: REPLICA's registers and parameters, then MASTER's; the defaults are compared with the spec's values by
the two lemmas on them. -/
theorem resetStateHoldsTheSpecValues : Obligations.ResetStateHoldsTheSpecValues := by
  obtain ⟨hphase, hbuf, hframe, hlast, hreply, hecho⟩ := replicaReset_registers
  obtain ⟨hlastSent, hpending, hidle, htx, hresp⟩ := masterReset_registers
  exact ⟨hphase, hbuf, hframe, hlast, hreply, hecho, rfl, replyTableDefault_eq_sourceTable, rfl,
    hlastSent, hpending, hidle, htx, hresp, rfl⟩

end Sys2Proof.Proofs
end

section
/-!
The event word (family 30_encoding): the decoder reads exactly the words of events, and the words of events are exactly
those that R72 does not reserve.
-/

namespace Sys2Proof.Proofs

open Sys2Proof.Machine

/-! The parts of a word as numbers (R69). -/

theorem eventKind_toNat (w : EventWord) : (eventKind w).toNat = w.toNat / 4096 := by
  simp only [eventKind, BitVec.extractLsb'_toNat, Nat.shiftRight_eq_div_pow]
  omega

theorem eventFid_toNat (w : EventWord) : (eventFid w).toNat = w.toNat / 256 % 16 := by
  simp only [eventFid, BitVec.extractLsb'_toNat, Nat.shiftRight_eq_div_pow]

theorem eventData_toNat (w : EventWord) : (eventData w).toNat = w.toNat % 256 := by
  simp only [eventData, BitVec.extractLsb'_toNat, Nat.shiftRight_eq_div_pow]
  omega

theorem rejectReason_ofCode_eq_none {c : Byte} : RejectReason.ofCode c = none ↔ c.toNat ∉ [1, 2, 3] := by
  revert c; decide

/-- R72 on a word's parts: a reserved kind; a FID that must be 0; a DATA that must be 0; the code of no reason. -/
theorem reserved_iff {w : EventWord} :
    Claims.Reserved w ↔
      (6 ≤ (eventKind w).toNat ∧ (eventKind w).toNat ≤ 14) ∨ (eventKind w ≠ 4#4 ∧ eventFid w ≠ 0#4) ∨
      ((eventKind w).toNat ∈ [0, 2, 3, 15] ∧ eventData w ≠ 0#8) ∨
      (eventKind w = 5#4 ∧ RejectReason.ofCode (eventData w) = none) := by
  simp only [Claims.Reserved, ← eventKind_toNat, ← eventFid_toNat, ← eventData_toNat, rejectReason_ofCode_eq_none,
    ne_eq, ← BitVec.toNat_inj, BitVec.reduceToNat]

/-! The words of events. -/

/-- A word is the word of an event whose KIND, FID and DATA are its own. -/
theorem encodeEvent_eq_of_parts {w : EventWord} {e : Event} {k f : BitVec 4} {d : Byte}
    (he : encodeEvent e = eventWord k f d) (hk : eventKind w = k) (hf : eventFid w = f) (hd : eventData w = d) :
    encodeEvent e = w := by
  rw [he, ← hk, ← hf, ← hd, eventWord_eta]

theorem encodeEvent_of_decodeBare {w : EventWord} {k : BitVec 4} {e e' : Event} (hk : eventKind w = k)
    (he : encodeEvent e = eventWord k 0#4 0#8) (h : decodeBare w e = .ok e') : encodeEvent e' = w := by
  obtain ⟨hf, hd, rfl⟩ := decodeBare_eq_ok.mp h
  exact encodeEvent_eq_of_parts he hk hf hd

/-- The other direction of `decodeEvent_encodeEvent`, by the word's KIND. -/
theorem encodeEvent_of_decodeEvent {w : EventWord} {e : Event} (h : decodeEvent w = .ok e) : encodeEvent e = w := by
  have hkind : ∀ k : BitVec 4, (eventKind w).toNat = k.toNat → eventKind w = k := fun _ => BitVec.eq_of_toNat_eq
  unfold decodeEvent at h
  split at h
  case h_1 hk => exact encodeEvent_of_decodeBare (hkind 0x0#4 hk) rfl h
  case h_2 hk =>
    split_ifs at h with hf
    cases h
    exact encodeEvent_eq_of_parts rfl (hkind 0x1#4 hk) (not_not.mp hf) rfl
  case h_3 hk => exact encodeEvent_of_decodeBare (hkind 0x2#4 hk) rfl h
  case h_4 hk => exact encodeEvent_of_decodeBare (hkind 0x3#4 hk) rfl h
  case h_5 hk =>
    cases h
    exact encodeEvent_eq_of_parts rfl (hkind 0x4#4 hk) rfl rfl
  case h_6 hk =>
    split_ifs at h with hf
    split at h <;> cases h
    next hr =>
      exact encodeEvent_eq_of_parts rfl (hkind 0x5#4 hk) (not_not.mp hf) (RejectReason.ofCode_eq_some.mp hr)
  case h_7 hk => exact encodeEvent_of_decodeBare (hkind 0xF#4 hk) rfl h
  case h_8 => cases h

/-- The decoder and the encoder of events agree in both directions. -/
theorem decodeEvent_eq_ok {w : EventWord} {e : Event} : decodeEvent w = .ok e ↔ encodeEvent e = w :=
  ⟨encodeEvent_of_decodeEvent, fun h => h ▸ decodeEvent_encodeEvent e⟩

/-- No event's word is reserved. -/
theorem not_reserved_encodeEvent (e : Event) : ¬ Claims.Reserved (encodeEvent e) := by
  rw [reserved_iff]
  cases e with
  | editReject r => cases r <;> decide
  | _ => simp [encodeEvent]

theorem kind_of_not_reserved {k : BitVec 4} (hk : ¬ (6 ≤ k.toNat ∧ k.toNat ≤ 14)) :
    k = 0#4 ∨ k = 1#4 ∨ k = 2#4 ∨ k = 3#4 ∨ k = 4#4 ∨ k = 5#4 ∨ k = 15#4 := by
  revert k; decide

/-- Every word that is not reserved is the word of an event: the event of its KIND, with the word's FID and DATA. -/
theorem exists_encodeEvent_of_not_reserved {w : EventWord} (h : ¬ Claims.Reserved w) : ∃ e, encodeEvent e = w := by
  simp only [reserved_iff, not_or, not_and_or, not_not] at h
  obtain ⟨hkind, hfid, hdata, hreason⟩ := h
  obtain hk | hk | hk | hk | hk | hk | hk := kind_of_not_reserved (not_and_or.mpr hkind)
  · exact ⟨.step, encodeEvent_eq_of_parts rfl hk (by simpa [hk] using hfid) (by simpa [hk] using hdata)⟩
  · exact ⟨.rxByte (eventData w), encodeEvent_eq_of_parts rfl hk (by simpa [hk] using hfid) rfl⟩
  · exact ⟨.rxTimeout, encodeEvent_eq_of_parts rfl hk (by simpa [hk] using hfid) (by simpa [hk] using hdata)⟩
  · exact ⟨.tick, encodeEvent_eq_of_parts rfl hk (by simpa [hk] using hfid) (by simpa [hk] using hdata)⟩
  · exact ⟨.edit (eventFid w) (eventData w), encodeEvent_eq_of_parts rfl hk rfl rfl⟩
  · obtain ⟨r, hr⟩ := Option.ne_none_iff_exists'.mp (hreason.resolve_left (not_not.mpr hk))
    exact ⟨.editReject r, encodeEvent_eq_of_parts rfl hk (by simpa [hk] using hfid)
      (RejectReason.ofCode_eq_some.mp hr)⟩
  · exact ⟨.reset, encodeEvent_eq_of_parts rfl hk (by simpa [hk] using hfid) (by simpa [hk] using hdata)⟩

/-- The words that spell an event are those that R72 does not reserve. -/
theorem exists_encodeEvent_iff {w : EventWord} : (∃ e, encodeEvent e = w) ↔ ¬ Claims.Reserved w :=
  ⟨fun ⟨e, he⟩ => he ▸ not_reserved_encodeEvent e, exists_encodeEvent_of_not_reserved⟩

/-- A reserved word decodes to no event: the event's word would be reserved. -/
theorem decodeEvent_of_reserved {w : EventWord} (h : Claims.Reserved w) : ∃ r, decodeEvent w = .error r := by
  cases hw : decodeEvent w with
  | error r => exact ⟨r, rfl⟩
  | ok e => exact absurd h (exists_encodeEvent_iff.mp ⟨e, decodeEvent_eq_ok.mp hw⟩)

/-- Settles O40: a reserved word decodes to no event and so is rejected at every port; any other is the word of an event
and decodes to it. -/
theorem reservedWordsAreRefused : Obligations.ReservedWordsAreRefused := by
  intro w
  constructor
  · intro hres p
    obtain ⟨r, hr⟩ := decodeEvent_of_reserved hres
    exact ⟨r, decodeAt_of_error hr p⟩
  · intro hres
    obtain ⟨e, he⟩ := exists_encodeEvent_of_not_reserved hres
    exact ⟨e, decodeEvent_eq_ok.mpr he, he⟩

end Sys2Proof.Proofs
end

section
/-!
CODEC (family 40_codec): ENCODE, DECODE and the conversions against the values the rules spell out. The checksum is the sum
on natural numbers; ENCODE checks the fields one after another; a decoded field is a slice of the data word's number; a
temperature is encoded where it is the number of a code.
-/

namespace Sys2Proof.Proofs

open Sys2Proof.Codec

/-- The model's wrapping byte addition is the sum modulo 256 (R15, R76). -/
theorem checksum_eq_check (p : Payload) : checksum p = Claims.check p := by
  rw [Claims.check, ← checksum_toNat, BitVec.ofNat_toNat, BitVec.setWidth_eq]

/-- Settles O1, by the checksum's value on natural numbers. -/
theorem checksumReturnsSumXor55 : Obligations.ChecksumReturnsSumXor55 := checksum_eq_check

theorem withChecksum_eq_sealed (p : Payload) : withChecksum p = Claims.sealed p := by
  rw [withChecksum, Claims.sealed, checksum_eq_check]

/-- ENCODE with the range checks of the fields `l` only: what is left of R77's loop once the fields before them passed. -/
def encodeFrom (f : Fields) (l : List FieldName) : EncodeResult :=
  match l.find? fun fld => !legalValue fld (fieldValue f fld) with
  | some fld => .fieldOutOfRange fld
  | none => .ok (withChecksum (packFields f))

theorem encode_eq_encodeFrom (f : Fields) : Codec.encode f = encodeFrom f layoutOrder := rfl

theorem encodeFrom_nil (f : Fields) : encodeFrom f [] = .ok (withChecksum (packFields f)) := rfl

/-- One round of R77's loop: the field is named where its value is refused, else the fields after it decide. -/
theorem encodeFrom_cons {f : Fields} {fld : FieldName} {l : List FieldName} {refused : Prop} [Decidable refused]
    {rest : EncodeResult} (hfld : legalValue fld (fieldValue f fld) = false ↔ refused)
    (hrest : ¬ refused → encodeFrom f l = rest) :
    encodeFrom f (fld :: l) = if refused then .fieldOutOfRange fld else rest := by
  unfold encodeFrom
  rw [List.find?_cons]
  by_cases h : refused
  · simp [h, hfld.mpr h]
  · rw [if_neg h, ← hrest h, Bool.eq_true_of_not_eq_false (mt hfld.mp h)]
    rfl

/-- A field with an upper bound refuses what is above it. -/
theorem decide_le_eq_false {n bound : Nat} : decide (n ≤ bound) = false ↔ bound < n := by
  rw [decide_eq_false_iff_not, not_le]

theorem legalFan_eq_false {n : Nat} : legalFan n = false ↔ n ∉ [0, 1, 2, 4] := by
  rw [← legalFan_iff, Bool.not_eq_true]

/-- For fields in range the shifted fields of a byte do not overlap: R77's payload is the sum of the weighted fields. -/
theorem packFields_eq_layout {f : Fields} (hconfig : f.config ≤ 1) (hmode : f.mode ≤ 4)
    (hheating : f.resistorHeating ≤ 1) (hrunning : f.running ≤ 1) (hchanged : f.changed ≤ 1) (hplasma : f.plasma ≤ 1)
    (hfan : f.fanSpeed ∈ [0, 1, 2, 4]) (hset : f.rawSetTemperature ≤ 15) : packFields f = Claims.layout f := by
  have hfan4 : f.fanSpeed ≤ 4 := by simp at hfan; omega
  have mem : ∀ {n bound : Nat}, n ≤ bound → n ∈ List.range (bound + 1) := fun h =>
    List.mem_range.mpr (Nat.lt_succ_of_le h)
  have hbyte0 := pack_byte0 _ (mem hconfig) _ (mem hmode) _ (mem hheating) _ (mem hrunning) _ (mem hchanged)
  have hbyte2 := pack_byte2 _ (mem hplasma) _ (mem hfan4) _ (mem hset)
  have hbyte3 : 0 <<< 6 ||| f.swivel <<< 5 ||| 0 = 32 * f.swivel := by simp [Nat.shiftLeft_eq, Nat.mul_comm]
  have hbyte4 : 0 <<< 1 ||| f.swirl = f.swirl := by simp
  rw [packFields, Claims.layout, hbyte0, hbyte2, hbyte3, hbyte4]

/-- Settles O2, by one round of the loop for each field in layout order, and then by the packed payload. -/
theorem encodePacksFieldsOrNamesTheFirstBad : Obligations.EncodePacksFieldsOrNamesTheFirstBad := by
  intro f
  rw [encode_eq_encodeFrom]
  refine encodeFrom_cons decide_le_eq_false fun hconfig => ?_
  refine encodeFrom_cons decide_le_eq_false fun hmode => ?_
  refine encodeFrom_cons decide_le_eq_false fun hheating => ?_
  refine encodeFrom_cons decide_le_eq_false fun hrunning => ?_
  refine encodeFrom_cons decide_le_eq_false fun hchanged => ?_
  refine encodeFrom_cons decide_le_eq_false fun _ => ?_
  refine encodeFrom_cons decide_le_eq_false fun hplasma => ?_
  refine encodeFrom_cons legalFan_eq_false fun hfan => ?_
  refine encodeFrom_cons decide_le_eq_false fun hset => ?_
  refine encodeFrom_cons decide_le_eq_false fun _ => ?_
  refine encodeFrom_cons decide_le_eq_false fun _ => ?_
  rw [encodeFrom_nil, withChecksum_eq_sealed,
    packFields_eq_layout (not_lt.mp hconfig) (not_lt.mp hmode) (not_lt.mp hheating) (not_lt.mp hrunning)
      (not_lt.mp hchanged) (not_lt.mp hplasma) (not_not.mp hfan) (not_lt.mp hset)]

theorem modeName_eq_claims (c : BitVec 3) : modeName c = Claims.modeName c.toNat := by
  revert c; decide

theorem fanName_eq_claims (c : BitVec 3) : fanName c = Claims.fanName c.toNat := by
  revert c; decide

/-- A slice of the data word as arithmetic on the payload's bytes. -/
theorem word_slice_toNat (p : Payload) (i w : Nat) :
    (p.word.extractLsb' i w).toNat =
      (p.b0.toNat * 2 ^ 32 + p.b1.toNat * 2 ^ 24 + p.b2.toNat * 2 ^ 16 + p.b3.toNat * 2 ^ 8 + p.b4.toNat)
        / 2 ^ i % 2 ^ w := by
  rw [slice_toNat, Payload.word_toNat]

/-- The slices that DECODE takes of a payload's data word lie at R59's bit positions of its bytes (R78). -/
theorem fieldsOf_unpack (f : Frame) : Claims.FieldsOf f (unpack f.payload.word f.checksum) := by
  have := f.payload.b0.isLt; have := f.payload.b1.isLt; have := f.payload.b2.isLt
  have := f.payload.b3.isLt; have := f.payload.b4.isLt
  have slice := word_slice_toNat f.payload
  have hmode : (f.payload.word.extractLsb' 36 3).toNat = f.payload.b0.toNat / 16 % 8 := by rw [slice]; omega
  have hroom : (f.payload.word.extractLsb' 24 8).toNat = f.payload.b1.toNat := by rw [slice]; omega
  have hfan : (f.payload.word.extractLsb' 20 3).toNat = f.payload.b2.toNat / 16 % 8 := by rw [slice]; omega
  have hset : (f.payload.word.extractLsb' 16 4).toNat = f.payload.b2.toNat % 16 := by rw [slice]; omega
  unfold Claims.FieldsOf unpack
  dsimp only
  rw [Payload.word_toNat, modeName_eq_claims, fanName_eq_claims, roomTempDecode, setTempDecode, hmode, hroom, hfan, hset]
  simp only [slice, true_and, and_true]
  omega

/-- Settles O3: by the length of a byte sequence that spells no frame, and by the checksum of one that does. -/
theorem decodeReadsEveryFieldOrRefuses : Obligations.DecodeReadsEveryFieldOrRefuses := by
  refine ⟨fun x hx => ?_, fun f hf => ?_, fun f hf => ⟨_, fieldsOf_unpack f, ?_⟩⟩
  · rw [Codec.decode, Frame.ofBytes?_eq_none.mpr hx]
  · rw [decode_toBytes, checksum_eq_check, if_neg (Ne.symm hf)]
  · rw [decode_toBytes, checksum_eq_check, if_pos hf.symm]

/-- The code of `n` bits whose number is the rational `x`; none where no code has that number. -/
def codeOfRat (n : Nat) (x : Rat) : Option (BitVec n) :=
  if x.den = 1 ∧ 0 ≤ x.num ∧ x.num ≤ 2 ^ n - 1 then some (BitVec.ofNat n x.num.toNat) else none

theorem roomTempEncode_eq_codeOfRat (t : Rat) : roomTempEncode t = codeOfRat 8 (2 * (t - 10)) := rfl

theorem setTempEncode_eq_codeOfRat (t : Rat) : setTempEncode t = codeOfRat 4 (t - 16) := rfl

theorem codeOfRat_natCast {n : Nat} (r : BitVec n) : codeOfRat n (r.toNat : Rat) = some r := by
  have hle : (r.toNat : Int) ≤ 2 ^ n - 1 := Int.le_sub_one_of_lt (mod_cast r.isLt)
  simp [codeOfRat, hle]

theorem codeOfRat_eq_some {n : Nat} {x : Rat} {r : BitVec n} : codeOfRat n x = some r ↔ x = (r.toNat : Rat) := by
  constructor
  · unfold codeOfRat
    split_ifs with h
    · obtain ⟨hden, hnonneg, hle⟩ := h
      rintro ⟨rfl⟩
      obtain ⟨m, hm⟩ := Int.eq_ofNat_of_zero_le hnonneg
      have hlt : m < 2 ^ n := by zify; omega
      rw [← (Rat.den_eq_one_iff x).mp hden, hm]
      simp [Nat.mod_eq_of_lt hlt]
    · exact nofun
  · rintro rfl
    exact codeOfRat_natCast r

theorem codeOfRat_eq_none {n : Nat} {x : Rat} (h : ∀ r : BitVec n, x ≠ (r.toNat : Rat)) : codeOfRat n x = none :=
  Option.eq_none_iff_forall_ne_some.mpr fun r hr => h r (codeOfRat_eq_some.mp hr)

/-- Settles O7: ROOM_TEMP_ENCODE answers the code whose number is `2 * (t - 10)`, and ROOM_TEMP_DECODE is R79's formula. -/
theorem roomTemperatureConversionsAreExact : Obligations.RoomTemperatureConversionsAreExact := by
  refine ⟨fun _ => rfl, fun t r => ?_, fun t ht => ?_⟩
  · rw [roomTempEncode_eq_codeOfRat, codeOfRat_eq_some]
  · rw [roomTempEncode_eq_codeOfRat, codeOfRat_eq_none ht]

/-- Settles O8: SET_TEMP_ENCODE answers the code whose number is `t - 16`, and SET_TEMP_DECODE is R80's formula. -/
theorem setTemperatureConversionsAreExact : Obligations.SetTemperatureConversionsAreExact := by
  refine ⟨fun _ => rfl, fun t r => ?_, fun t ht => ?_⟩
  · rw [setTempEncode_eq_codeOfRat, codeOfRat_eq_some]
  · rw [setTempEncode_eq_codeOfRat, codeOfRat_eq_none ht]

theorem fieldsToSettings_of_unrecognized {d : DecodedFrame} (h : d.mode = .unrecognized ∨ d.fanSpeed = .unrecognized) :
    fieldsToSettings d = none :=
  if_pos h

theorem fieldsToSettings_of_recognized {d : DecodedFrame} (hmode : d.mode ≠ .unrecognized)
    (hfan : d.fanSpeed ≠ .unrecognized) : fieldsToSettings d = some
      { mode := d.modeRaw, resistorHeating := d.resistorHeating, running := d.running,
        roomTemperature := d.rawRoomTemperature, plasma := d.plasma, fanSpeed := d.fanSpeedRaw,
        setTemperature := d.rawSetTemperature, swivel := d.swivel, swirl := d.swirl } :=
  if_neg (not_or.mpr ⟨hmode, hfan⟩)

/-- Settles O9: SETTINGS_ENCODE is R83's record, and FIELDS_TO_SETTINGS splits on the two names. -/
theorem settingsConversionsCopyTheFields : Obligations.SettingsConversionsCopyTheFields :=
  ⟨fun _ _ _ => rfl, fun _ => ⟨fieldsToSettings_of_unrecognized, fun ⟨hmode, hfan⟩ =>
    fieldsToSettings_of_recognized hmode hfan⟩⟩

end Sys2Proof.Proofs
end

section
/-!
REPLICA (family 41_replica): the reply that SELECT_REPLY takes from the table, the value of each step where it is
enabled, the bound on the intake buffer, and what REPLICA's turn fetches.
-/

namespace Sys2Proof.Proofs

open Sys2Proof.Machine

/-! The words of REPLICA's events. -/

theorem rxWord_toNat (b : Byte) : (Claims.rxWord b).toNat = 0x1000 + b.toNat := by
  have := b.isLt
  rw [Claims.rxWord, BitVec.toNat_ofNat]
  omega

theorem encodeEvent_rxByte (b : Byte) : encodeEvent (.rxByte b) = Claims.rxWord b := by
  have := b.isLt
  refine encodeEvent_eq_of_parts rfl ?_ ?_ ?_ <;> apply BitVec.eq_of_toNat_eq
  · rw [eventKind_toNat, rxWord_toNat, BitVec.toNat_ofNat]; omega
  · rw [eventFid_toNat, rxWord_toNat, BitVec.toNat_ofNat]; omega
  · rw [eventData_toNat, rxWord_toNat]; omega

/-- The word `1000 | b` selects what RX_BYTE(b) selects, at every port. -/
theorem decodeAt_rxWord (p : Port) (b : Byte) : decodeAt p (Claims.rxWord b) = portStep p (.rxByte b) := by
  rw [← encodeEvent_rxByte, decodeAt_encodeEvent]

/-- The word 2000 selects what RX_TIMEOUT selects, at every port. -/
theorem decodeAt_rxTimeoutWord (p : Port) : decodeAt p 0x2000#16 = portStep p .rxTimeout :=
  decodeAt_encodeEvent p .rxTimeout

/-- The word 0000 selects what STEP selects, at every port. -/
theorem decodeAt_stepWord (p : Port) : decodeAt p 0x0000#16 = portStep p .step :=
  decodeAt_encodeEvent p .step

/-! SELECT_REPLY (R67, R91). -/

theorem rowMatches_iff {row : ReplyRow} {x : Payload} : Claims.RowMatches row x ↔ row.isMatch x.word = true :=
  ReplyRow.isMatch_iff.symm

theorem ofWord_replyWord (e : ReplyEByte) (q : ReplyPayload) : Payload.ofWord (q.word e) = Claims.replyBytes e q := by
  cases q with
  | literal _ => rfl
  | primary => cases e <;> rfl

theorem selectReply_eq_replyBytes (c : ReplicaParams) (x : Payload) :
    selectReply c x = Claims.replyBytes c.replyEByte (c.replyTable.select x.word) :=
  ofWord_replyWord _ _

/-- The reply is that of a matching row which no row before it matches, or, where none matches, the last row's. -/
theorem replyTable_select_cases (t : ReplyTable) (x : DataWord) :
    (∃ before row after, t.rows = before ++ row :: after ∧ (∀ r ∈ before, ¬ r.isMatch x = true) ∧
      row.isMatch x = true ∧ t.select x = row.reply) ∨
    ((∀ r ∈ t.rows, ¬ r.isMatch x = true) ∧ t.select x = t.lastReply) := by
  unfold ReplyTable.select
  cases h : t.rows.find? fun row => row.isMatch x with
  | none => exact .inr ⟨List.find?_eq_none.mp h, rfl⟩
  | some row =>
    obtain ⟨hmatch, before, after, hrows, hbefore⟩ := List.find?_eq_some_iff_append.mp h
    exact .inl ⟨before, row, after, hrows, fun r hr => by simpa using hbefore r hr, hmatch, rfl⟩

/-- Settles O10, by the cases of the search through the rows. -/
theorem selectReplyTakesTheFirstMatchingRow : Obligations.SelectReplyTakesTheFirstMatchingRow := by
  intro c x
  rw [selectReply_eq_replyBytes]
  simp only [Claims.Selects, rowMatches_iff]
  obtain ⟨before, row, after, hrows, hbefore, hmatch, hsel⟩ | ⟨hnone, hsel⟩ :=
    replyTable_select_cases c.replyTable x.word
  · exact .inl ⟨before, row, after, hrows, hbefore, hmatch, congrArg _ hsel⟩
  · exact .inr ⟨hnone, congrArg _ hsel⟩

/-! The intake (R88 to R90). -/

theorem replica_collect_of_length_ne {r : Replica} {b : Byte} (h : r.buf.length ≠ 5) :
    r.collect b = { r with buf := r.buf ++ [b] } := by
  rw [Replica.collect, Frame.ofBytes?_eq_none.mpr (by simpa using h)]

theorem replica_collect_of_five {r : Replica} {b b0 b1 b2 b3 b4 : Byte} (h : r.buf = [b0, b1, b2, b3, b4]) :
    r.collect b = { r with frame := some ⟨⟨b0, b1, b2, b3, b4⟩, b⟩, buf := [], phase := .process } := by
  rw [Replica.collect, h]
  rfl

theorem replica_rxByte_append {r : Replica} {b : Byte} {rest : List Byte} (hphase : r.phase = .intake)
    (hfifo : r.rxFifo = b :: rest) (hlen : r.buf.length < 5) :
    r.rxByte b = { r with buf := r.buf ++ [b], rxFifo := rest } := by
  have hroom : r.overflowed = false := Replica.overflowed_eq_false.mpr (by omega)
  rw [Replica.rxByte_enabled hphase hroom hfifo]
  exact replica_collect_of_length_ne hlen.ne

theorem replica_rxByte_complete {r : Replica} {b b0 b1 b2 b3 b4 : Byte} {rest : List Byte} (hphase : r.phase = .intake)
    (hfifo : r.rxFifo = b :: rest) (hbuf : r.buf = [b0, b1, b2, b3, b4]) :
    r.rxByte b = { r with
      buf := [], rxFifo := rest, frame := some ⟨⟨b0, b1, b2, b3, b4⟩, b⟩, phase := .process } := by
  have hroom : r.overflowed = false := Replica.overflowed_eq_false.mpr (by simp [hbuf])
  rw [Replica.rxByte_enabled hphase hroom hfifo]
  exact replica_collect_of_five hbuf

/-- Settles O12: one of the first 5 bytes is appended, and the 6th completes the frame. -/
theorem intakeTakesOneByte : Obligations.IntakeTakesOneByte := by
  refine ⟨fun s b rest hphase hfifo => ⟨fun hlen => ?_, fun b0 b1 b2 b3 b4 hbuf => ?_⟩, decodeAt_rxWord _⟩
  · rw [exec_rRxByte, replica_rxByte_append hphase hfifo hlen]
    rfl
  · rw [exec_rRxByte, replica_rxByte_complete hphase hfifo hbuf]
    rfl

theorem replica_rxTimeout_enabled {r : Replica} (hphase : r.phase = .intake) (hlen : r.buf.length < 6)
    (hfifo : r.rxFifo = []) : r.rxTimeout = { r with buf := [] } :=
  if_pos ⟨hphase, Replica.overflowed_eq_false.mpr hlen, hfifo⟩

/-- Settles O13: the step is enabled, and empties the buffer. -/
theorem intakeTimeoutDiscardsThePartialFrame : Obligations.IntakeTimeoutDiscardsThePartialFrame := by
  refine ⟨fun s hphase hfifo hlen => ?_, decodeAt_rxTimeoutWord _⟩
  rw [exec_rRxTimeout, replica_rxTimeout_enabled hphase hlen hfifo]
  rfl

/-- The intake step keeps the bound: a 6th byte empties the buffer, any other leaves it below 6 bytes. -/
theorem replica_collect_buf_lt {r : Replica} {b : Byte} (h : r.buf.length < 6) : (r.collect b).buf.length < 6 := by
  obtain ⟨f, -, hcollect⟩ | ⟨hlen, hcollect⟩ := Replica.collect_cases b r
  · simp [hcollect]
  · rw [hcollect, List.length_append, List.length_singleton]
    omega

theorem replica_rxByte_buf_lt {r : Replica} {b : Byte} (h : r.buf.length < 6) : (r.rxByte b).buf.length < 6 := by
  obtain hheld | ⟨rest, -, -, -, htaken⟩ := Replica.rxByte_cases b r
  · rwa [hheld]
  · rw [htaken]
    exact replica_collect_buf_lt h

theorem replica_rxTimeout_buf_lt {r : Replica} (h : r.buf.length < 6) : r.rxTimeout.buf.length < 6 := by
  obtain hheld | ⟨-, -, hdiscarded⟩ := Replica.rxTimeout_cases r
  · rwa [hheld]
  · simp [hdiscarded]

theorem replica_overflow_enabled {r : Replica} (hphase : r.phase = .intake) (hlen : 6 ≤ r.buf.length) :
    r.overflow = { r.emit (.intakeOverflow r.buf) with phase := .halted } :=
  if_pos ⟨hphase, Replica.overflowed_eq_true.mpr hlen⟩

/-- REPLICA's turn in an overflowed intake is INTAKE_OVERFLOW's, whatever stands in the FIFO (R90). -/
theorem fetch_turn_replica_of_overflowed {s : State} (hphase : s.replica.phase = .intake)
    (hlen : 6 ≤ s.replica.buf.length) : fetch (.turn .replica) s = .run .intakeOverflow s :=
  if_pos ⟨rfl, hphase, Replica.overflowed_eq_true.mpr hlen⟩

/-- Settles O14: the two intake steps keep the bound; past it the turn and the step are INTAKE_OVERFLOW's. -/
theorem intakeOverflowHalts : Obligations.IntakeOverflowHalts := by
  refine ⟨fun s t b hlen hstep => ?_, fun s hphase hlen => ⟨fetch_turn_replica_of_overflowed hphase hlen, ?_⟩⟩
  · obtain hbyte | htimeout := hstep
    · cases hbyte
      exact replica_rxByte_buf_lt hlen
    · cases htimeout
      exact replica_rxTimeout_buf_lt hlen
  · rw [exec_intakeOverflow, replica_overflow_enabled hphase hlen]
    rfl

/-! R_PROCESS (R92). -/

theorem exec_rProcess_of_frame {s : State} {f : Frame} (hphase : s.replica.phase = .process)
    (hframe : s.replica.frame = some f) : exec .rProcess s = .next (s.setReplica (s.replica.processFrame f)) := by
  rw [exec_rProcess, Replica.process_eq_ok.mpr (.inr ⟨f, hphase, hframe, rfl⟩), State.replicaOutcome_ok]

/-- The reply is written with its checksum and kept, and the echo read begins (R68, R92). -/
theorem replica_sendReply_eq (x : Payload) (r : Replica) :
    r.sendReply x = { r with
      tx := r.tx ++ [Claims.sealed (selectReply r.params x)], reply := some (Claims.sealed (selectReply r.params x)),
      echo := [], frame := none, phase := .echo } := by
  rw [← withChecksum_eq_sealed]
  rfl

theorem replica_processFrame_of_checksum_eq {r : Replica} {f : Frame} (h : f.checksum = Claims.check f.payload) :
    r.processFrame f = (r.observe (Codec.unpack f.payload.word f.checksum)).sendReply f.payload := by
  rw [Replica.processFrame, Codec.decodeFrame, checksum_eq_check, if_pos h.symm]

theorem replica_processFrame_of_checksum_ne {r : Replica} {f : Frame} (h : f.checksum ≠ Claims.check f.payload) :
    r.processFrame f =
      if r.params.replyOnBadChecksum then
        (r.emit (.checksumMismatch (Claims.check f.payload) f.checksum f)).sendReply f.payload
      else { r.emit (.checksumMismatch (Claims.check f.payload) f.checksum f) with
        frame := none, phase := .intake } := by
  rw [Replica.processFrame, Codec.decodeFrame, checksum_eq_check, if_neg h.symm]

/-- Settles O15: the report by the frame's checksum, and the reply that SELECT_REPLY gives (O10). -/
theorem processReportsAndAnswersTheFrame : Obligations.ProcessReportsAndAnswersTheFrame := by
  refine ⟨decodeAt_stepWord _, fun s f hphase hframe =>
    ⟨selectReply s.replica.params f.payload, selectReplyTakesTheFirstMatchingRow _ _, fun hsum => ?_,
      fun hsum hflag => ?_, fun hsum hflag => ?_⟩⟩
  · refine ⟨Codec.unpack f.payload.word f.checksum, fieldsOf_unpack f, ?_⟩
    rw [exec_rProcess_of_frame hphase hframe, replica_processFrame_of_checksum_eq hsum, replica_sendReply_eq,
      Replica.observe_eq]
    rfl
  · rw [exec_rProcess_of_frame hphase hframe, replica_processFrame_of_checksum_ne hsum, hflag]
    rfl
  · rw [exec_rProcess_of_frame hphase hframe, replica_processFrame_of_checksum_ne hsum, hflag, if_pos rfl,
      replica_sendReply_eq]
    rfl

/-! The echo read (R93, R94). -/

theorem replica_echoByte_append {r : Replica} {b : Byte} {rest : List Byte} (hphase : r.phase = .echo)
    (hfifo : r.rxFifo = b :: rest) (hlen : r.echo.length ≠ 5) :
    r.echoByte b = .ok { r with echo := r.echo ++ [b], rxFifo := rest } := by
  rw [Replica.echoByte_enabled hphase hfifo]
  exact Replica.collectEcho_eq_ok.mpr (.inl ⟨hlen, rfl⟩)

/-- The byte that completes an echo: the comparison of all 6 bytes, in the state without the byte (R93). -/
theorem replica_echoByte_complete {r : Replica} {b : Byte} {rest : List Byte} {sent got : Frame}
    (hphase : r.phase = .echo) (hfifo : r.rxFifo = b :: rest) (hecho : r.echo ++ [b] = got.toBytes)
    (hreply : r.reply = some sent) :
    r.echoByte b = .ok (({ r with rxFifo := rest } : Replica).checkEcho sent got) := by
  rw [Replica.echoByte_enabled hphase hfifo]
  exact Replica.collectEcho_eq_ok.mpr (.inr ⟨got, sent, hecho, hreply, rfl⟩)

/-- Settles O17: a byte other than the 6th is appended; the 6th is followed by the comparison with the reply. -/
theorem echoByteComparesAtSixBytes : Obligations.EchoByteComparesAtSixBytes := by
  refine ⟨fun s b rest hphase hfifo => ⟨fun hlen => ?_, fun b0 b1 b2 b3 b4 sent hecho hreply => ?_⟩,
    decodeAt_rxWord _⟩
  · rw [exec_rEchoByte, replica_echoByte_append hphase hfifo hlen]
    rfl
  · have hsix : s.replica.echo ++ [b] = (⟨⟨b0, b1, b2, b3, b4⟩, b⟩ : Frame).toBytes := by rw [hecho]; rfl
    rw [exec_rEchoByte, replica_echoByte_complete hphase hfifo hsix hreply, Replica.checkEcho_eq]
    simp only [eq_comm (a := sent)]
    rfl

/-- REPLICA's turn runs the step that its enabled event selects in its phase, but for an overflowed intake (R96). -/
theorem fetch_turn_replica_of_event {s : State} {e : Event} {i : Instr}
    (hroom : s.replica.phase = .intake → s.replica.buf.length < 6)
    (hword : s.replica.eventWord? = some (encodeEvent e)) (hstep : replicaStep s.replica.phase e = .instr i) :
    fetch (.turn .replica) s = .run i s := by
  have hnot : ¬ (Agent.replica = .replica ∧ s.replica.phase = .intake ∧ s.replica.overflowed = true) :=
    fun ⟨_, hphase, hover⟩ => (hroom hphase).not_ge (Replica.overflowed_eq_true.mp hover)
  exact (fetchTurn_of_word hnot hword).trans
    (fetchWord_eq_run.mpr ⟨(decodeAt_encodeEvent _ e).trans hstep, rfl⟩)

/-- The enabled event of the echo read (R96). -/
theorem replica_eventWord_of_echo {r : Replica} (hphase : r.phase = .echo) :
    r.eventWord? = some (encodeEvent (receiveEvent r.rxFifo)) := by
  rw [Replica.eventWord?, hphase]

/-- Settles O18: the step is `skip`; in ECHO with an empty FIFO the enabled event is RX_TIMEOUT, which selects it. -/
theorem echoTimeoutChangesNothing : Obligations.EchoTimeoutChangesNothing := by
  refine ⟨fun s hphase hfifo => ⟨exec_rEchoTimeout s, ?_⟩, decodeAt_rxTimeoutWord _⟩
  have hword : s.replica.eventWord? = some (encodeEvent .rxTimeout) := by
    rw [replica_eventWord_of_echo hphase, hfifo, receiveEvent]
  exact fetch_turn_replica_of_event (by simp [hphase]) hword (by rw [hphase]; rfl)

end Sys2Proof.Proofs
end

section
/-!
MASTER.TICK (family 42_master_tick): the frame that a tick sends, spelled out field by field, and the value of each of the
three steps where it is enabled.
-/

namespace Sys2Proof.Proofs

open Sys2Proof.Machine

/-! The tick (R97). -/

theorem master_toSend_eq_ite (m : Master) :
    m.toSend = if m.pending ≠ m.lastSent then m.pending else m.lastSent := by
  simp only [Master.toSend, Master.changed_eq_true]

/-- The changed bit as the number that the frame carries. -/
theorem master_changed_toNat (m : Master) :
    (BitVec.ofBool m.changed).toNat = if m.pending ≠ m.lastSent then 1 else 0 := by
  by_cases h : m.pending = m.lastSent
  · simp [h, Master.changed_eq_false.mpr h]
  · simp [h, Master.changed_eq_true.mpr h]

/-- The tick's ENCODE gives R77's result for the settings sent, field by field (R83, R97). -/
theorem master_tickFrame_eq_encodeResult (m : Master) : m.tickFrame = Claims.encodeResult
    { config := m.params.masterConfigBit.toNat, mode := m.toSend.mode.toNat,
      resistorHeating := m.toSend.resistorHeating.toNat, running := m.toSend.running.toNat,
      changed := if m.pending ≠ m.lastSent then 1 else 0, rawRoomTemperature := m.toSend.roomTemperature.toNat,
      plasma := m.toSend.plasma.toNat, fanSpeed := m.toSend.fanSpeed.toNat,
      rawSetTemperature := m.toSend.setTemperature.toNat, swivel := m.toSend.swivel.toNat,
      swirl := m.toSend.swirl.toNat } := by
  rw [Master.tickFrame, encodePacksFieldsOrNamesTheFirstBad, settingsConversionsCopyTheFields.1,
    master_changed_toNat]

/-- A tick whose settings ENCODE takes commits them, transmits the frame and starts the response read. -/
theorem master_tick_sends {m : Master} {f : Frame} (hphase : m.phase = .idle) (htick : m.tickOffered = true)
    (hframe : m.tickFrame = .ok f) : m.tick = { m with
      lastSent := m.toSend, tx := m.tx ++ [f], txFrame := some f, resp := [], phase := .resp,
      tickOffered := false } := by
  obtain ⟨g, hg, hfire⟩ | ⟨fld, hrefused, -⟩ := Master.fire_cases m
  · cases hg.symm.trans hframe
    rw [Master.tick_enabled hphase htick, hfire, Master.toSend_eq_pending]
  · cases hrefused.symm.trans hframe

/-- A tick whose settings ENCODE refuses is consumed and reports the field; banks and phase stay (R97, R125). -/
theorem master_tick_aborts {m : Master} {fld : FieldName} (hphase : m.phase = .idle) (htick : m.tickOffered = true)
    (hframe : m.tickFrame = .fieldOutOfRange fld) :
    m.tick = { m.emit (.fieldOutOfRange fld) with tickOffered := false } := by
  obtain ⟨f, hf, -⟩ | ⟨fld', hrefused, hfire⟩ := Master.fire_cases m
  · cases hf.symm.trans hframe
  · cases hrefused.symm.trans hframe
    rw [Master.tick_enabled hphase htick, hfire]

/-- Settles O22: the tick's frame is ENCODE's of the fields spelled out, and its results are the two ways through. -/
theorem tickSendsPendingOrKeepAlive : Obligations.TickSendsPendingOrKeepAlive := by
  refine ⟨decodeAt_encodeEvent _ .tick, fun s hphase htick => ?_⟩
  simp only [← master_toSend_eq_ite, ← master_tickFrame_eq_encodeResult]
  refine ⟨fun f hframe => ?_, fun fld hframe => ⟨false, ?_⟩⟩
  · rw [exec_mTick, master_tick_sends hphase htick hframe]
    rfl
  · rw [exec_mTick, master_tick_aborts hphase htick hframe]
    rfl

/-! The response read (R98, R99). -/

theorem master_collect_of_length_ne {m : Master} {b : Byte} (h : m.resp.length ≠ 11) :
    m.collect b = { m with resp := m.resp ++ [b] } :=
  ((Master.collect_cases b m).resolve_left fun ⟨hlen, _⟩ => h hlen).2

/-- The 12th byte ends the read, with all twelve in the record. -/
theorem master_collect_of_eleven {m : Master} {b : Byte} (h : m.resp.length = 11) :
    m.collect b = { m.emit (.response (m.resp ++ [b])) with resp := [], phase := .idle } :=
  ((Master.collect_cases b m).resolve_right fun ⟨hlen, _⟩ => hlen h).2

theorem master_respByte_append {m : Master} {b : Byte} {rest : List Byte} (hphase : m.phase = .resp)
    (hfifo : m.rxFifo = b :: rest) (hlen : m.resp.length ≠ 11) :
    m.respByte b = { m with resp := m.resp ++ [b], rxFifo := rest } := by
  rw [Master.respByte_enabled hphase hfifo]
  exact master_collect_of_length_ne hlen

theorem master_respByte_complete {m : Master} {b : Byte} {rest : List Byte} (hphase : m.phase = .resp)
    (hfifo : m.rxFifo = b :: rest) (hlen : m.resp.length = 11) :
    m.respByte b = { m with
      evt := m.evt ++ [.response (m.resp ++ [b])], resp := [], rxFifo := rest, phase := .idle } := by
  rw [Master.respByte_enabled hphase hfifo]
  exact master_collect_of_eleven hlen

/-- Settles O25: a byte other than the 12th is appended; the 12th surfaces all twelve. -/
theorem responseByteSurfacesTwelve : Obligations.ResponseByteSurfacesTwelve := by
  refine ⟨fun s b rest hphase hfifo => ⟨fun hlen => ?_, fun hlen => ?_⟩, decodeAt_rxWord _⟩
  · rw [exec_mRespByte, master_respByte_append hphase hfifo hlen]
    rfl
  · rw [exec_mRespByte, master_respByte_complete hphase hfifo hlen]
    rfl

theorem master_respTimeout_enabled {m : Master} (hphase : m.phase = .resp) (hfifo : m.rxFifo = []) :
    m.respTimeout = { m.emit (.shortRead m.resp) with resp := [], phase := .idle } :=
  if_pos ⟨hphase, hfifo⟩

/-- Settles O26: the step is enabled, reports the bytes so far and ends the read. -/
theorem responseTimeoutReportsShortRead : Obligations.ResponseTimeoutReportsShortRead := by
  refine ⟨fun s hphase hfifo => ?_, decodeAt_rxTimeoutWord _⟩
  rw [exec_mRespTimeout, master_respTimeout_enabled hphase hfifo]
  rfl

end Sys2Proof.Proofs
end

section
/-!
MASTER.EDIT, the steps (family 43_master_edit): the words of its events, and the value of each step.
-/

namespace Sys2Proof.Proofs

open Sys2Proof.Machine

/-! M_EDIT (R101). -/

theorem editWord_toNat (fid : BitVec 4) (v : Byte) :
    (Claims.editWord fid v).toNat = 0x4000 + 256 * fid.toNat + v.toNat := by
  have := fid.isLt
  have := v.isLt
  rw [Claims.editWord, BitVec.toNat_ofNat]
  omega

theorem encodeEvent_edit (fid : BitVec 4) (v : Byte) : encodeEvent (.edit fid v) = Claims.editWord fid v := by
  have := fid.isLt
  have := v.isLt
  refine encodeEvent_eq_of_parts rfl ?_ ?_ ?_ <;> apply BitVec.eq_of_toNat_eq
  · rw [eventKind_toNat, editWord_toNat, BitVec.toNat_ofNat]; omega
  · rw [eventFid_toNat, editWord_toNat]; omega
  · rw [eventData_toNat, editWord_toNat]; omega

/-- The word `4000 | fid<<8 | v` selects the M_EDIT row of its field id. -/
theorem decodeAt_editWord (fid : BitVec 4) (v : Byte) :
    decodeAt .edit (Claims.editWord fid v) = .instr (editInstr fid v) := by
  rw [← encodeEvent_edit]
  exact decodeAt_encodeEvent _ _

theorem editInstr_of_unknown {fid : BitVec 4} (v : Byte) (h : 8 < fid.toNat) :
    editInstr fid v = .mEditUnknownFid fid v := by
  rw [editInstr, EditField.ofFid_eq_none.mpr h]

theorem exec_mEditUnknownFid_of_unknown {fid : BitVec 4} (v : Byte) (s : State) (h : 8 < fid.toNat) :
    exec (.mEditUnknownFid fid v) s = .next (s.setMaster (s.master.rejectEdit .unknownAttribute)) := by
  rw [exec_mEditUnknownFid, exec_editInstr, EditField.ofFid_eq_none.mpr h]

/-- An instruction that runs the edit of `fld` does what R101 says, where `legal` and `replace` are that field's own. -/
theorem edits_of_exec {i : Byte → Instr} {fld : EditField} {legal : Nat → Prop} {replace : Byte → Settings → Settings}
    (hexec : ∀ s v, exec (i v) s = .next (s.setMaster (s.master.edit fld v)))
    (hlegal : ∀ v, fld.legalCode v = true ↔ legal v.toNat) (hset : ∀ v s, Settings.set fld v s = replace v s) :
    Claims.Edits i legal replace := by
  intro v s
  rw [hexec]
  obtain ⟨hcode, hedit⟩ | ⟨hcode, hedit⟩ := Master.edit_cases fld v s.master
  · refine ⟨fun _ => ?_, fun hillegal => absurd ((hlegal v).mp hcode) hillegal⟩
    rw [hedit, hset]
    rfl
  · refine ⟨fun h => absurd ((hlegal v).mpr h) (by simp [hcode]), fun _ => ?_⟩
    rw [hedit]
    rfl

/-- Settles O29: each of the nine rows runs the edit of its field, an id above 8 names no field, and the word of a field
id and a code selects the id's row. -/
theorem editReplacesOneFieldOfLastSent : Obligations.EditReplacesOneFieldOfLastSent := by
  refine ⟨edits_of_exec exec_mEditMode (fun v => Codec.legalMode_iff v.toNat) fun _ _ => rfl,
    edits_of_exec exec_mEditResistorHeating (fun _ => decide_eq_true_iff) fun _ _ => rfl,
    edits_of_exec exec_mEditRunning (fun _ => decide_eq_true_iff) fun _ _ => rfl,
    edits_of_exec exec_mEditRoomTemperature (fun _ => decide_eq_true_iff) fun _ _ => rfl,
    edits_of_exec exec_mEditPlasma (fun _ => decide_eq_true_iff) fun _ _ => rfl,
    edits_of_exec exec_mEditFanSpeed (fun v => Codec.legalFan_iff v.toNat) fun _ _ => rfl,
    edits_of_exec exec_mEditSetTemperature (fun _ => decide_eq_true_iff) fun _ _ => rfl,
    edits_of_exec exec_mEditSwivel (fun _ => decide_eq_true_iff) fun _ _ => rfl,
    edits_of_exec exec_mEditSwirl (fun _ => decide_eq_true_iff) fun _ _ => rfl,
    fun _ v s h => exec_mEditUnknownFid_of_unknown v s h, fun v => ?_, fun fid v h => ?_⟩
  · simp only [decodeAt_editWord]
    exact ⟨rfl, rfl, rfl, rfl, rfl, rfl, rfl, rfl, rfl⟩
  · rw [decodeAt_editWord, editInstr_of_unknown v h]

/-- Settles O30: the value of each step, and the decoding of each reason's word. -/
theorem editRejectReportsItsReason : Obligations.EditRejectReportsItsReason :=
  ⟨fun s => ⟨exec_mEditRejectNoEquals s, exec_mEditRejectUnknownAttribute s, exec_mEditRejectBadValue s⟩,
    decodeAt_encodeEvent .edit (.editReject .noEquals), decodeAt_encodeEvent .edit (.editReject .unknownAttribute),
    decodeAt_encodeEvent .edit (.editReject .badValue)⟩

end Sys2Proof.Proofs
end

section
/-!
MASTER.EDIT, the temperature texts (family 43_master_edit): what each part of PARSE_DECIMAL takes of a text of R109's
grammar, and that it takes nothing else.
-/

namespace Sys2Proof.Proofs

open Sys2Proof.Parser

/-! Digits. -/

/-- The character of a digit. -/
def digitChar (d : Fin 10) : Char := Char.ofNat (48 + d.val)

theorem digitText_eq_map (ds : List (Fin 10)) : Claims.digitText ds = ds.map digitChar := rfl

theorem digitText_eq_nil {ds : List (Fin 10)} : Claims.digitText ds = [] ↔ ds = [] := List.map_eq_nil_iff

theorem digitText_append (a b : List (Fin 10)) : Claims.digitText (a ++ b) = Claims.digitText a ++ Claims.digitText b :=
  List.map_append

@[simp] theorem digitText_length (ds : List (Fin 10)) : (Claims.digitText ds).length = ds.length := List.length_map _

theorem digitChar_toNat (d : Fin 10) : (digitChar d).toNat = 48 + d.val := by
  revert d; decide

theorem isDigit_digitChar (d : Fin 10) : isDigit (digitChar d) = true := by
  have := d.isLt
  rw [isDigit_iff, digitChar_toNat]
  omega

theorem exists_digitChar {c : Char} (h : isDigit c = true) : ∃ d, digitChar d = c := by
  obtain ⟨hlow, hhigh⟩ := isDigit_iff.mp h
  refine ⟨⟨c.toNat - 48, by omega⟩, ?_⟩
  rw [digitChar, Nat.add_sub_cancel' hlow, Char.ofNat_toNat]

theorem isDigit_of_mem_digitText {ds : List (Fin 10)} {c : Char} (h : c ∈ Claims.digitText ds) :
    isDigit c = true := by
  obtain ⟨d, -, rfl⟩ := List.mem_map.mp h
  exact isDigit_digitChar d

/-- A text of digits only spells a list of digits. -/
theorem exists_digitText {t : Text} (h : ∀ c ∈ t, isDigit c = true) : ∃ ds, Claims.digitText ds = t := by
  have hrange : t ∈ Set.range (List.map digitChar) := by
    rw [Set.range_list_map]
    exact fun c hc => exists_digitChar (h c hc)
  exact hrange

theorem exists_digitText_takeWhile (t : Text) : ∃ ds, Claims.digitText ds = t.takeWhile isDigit :=
  exists_digitText fun _ => List.mem_takeWhile_imp

theorem digitsValue_digitChar_cons (n : Nat) (d : Fin 10) (t : Text) :
    digitsValue n (digitChar d :: t) = digitsValue (10 * n + d.val) t := by
  have hd : (digitChar d).toNat - '0'.toNat = d.val := Nat.sub_eq_of_eq_add' (digitChar_toNat d)
  exact congrArg (fun k => digitsValue (10 * n + k) t) hd

theorem digitsValue_digitText (n : Nat) (ds : List (Fin 10)) :
    digitsValue n (Claims.digitText ds) = ds.foldl (fun n d => 10 * n + d.val) n := by
  induction ds generalizing n with
  | nil => rfl
  | cons d ds ih => exact (digitsValue_digitChar_cons n d _).trans (ih _)

/-- The parser reads the number that the digits spell. -/
theorem digitsValue_zero_digitText (ds : List (Fin 10)) : digitsValue 0 (Claims.digitText ds) = Claims.digitNat ds :=
  digitsValue_digitText 0 ds

/-- The text does not go on with a digit. -/
def NoDigitAhead (t : Text) : Prop := ∀ c, t.head? = some c → isDigit c = false

theorem takeWhile_digitText_append (ds : List (Fin 10)) {t : Text} (h : NoDigitAhead t) :
    (Claims.digitText ds ++ t).takeWhile isDigit = Claims.digitText ds := by
  have ht : t.takeWhile isDigit = [] := by
    cases t with
    | nil => rfl
    | cons c cs => simp [h c rfl]
  rw [List.takeWhile_append_of_pos fun _ => isDigit_of_mem_digitText, ht, List.append_nil]

theorem dropWhile_digitText_append (ds : List (Fin 10)) {t : Text} (h : NoDigitAhead t) :
    (Claims.digitText ds ++ t).dropWhile isDigit = t := by
  have ht : t.dropWhile isDigit = t := by
    cases t with
    | nil => rfl
    | cons c cs => simp [h c rfl]
  rw [List.dropWhile_append_of_pos fun _ => isDigit_of_mem_digitText, ht]

/-! The sign. -/

/-- The text does not begin with a sign. -/
def Unsigned (t : Text) : Prop := ∀ c, t.head? = some c → c ≠ '+' ∧ c ≠ '-'

theorem unsigned_digitText (ds : List (Fin 10)) : Unsigned (Claims.digitText ds) := by
  intro c hc
  have hdigit := isDigit_of_mem_digitText (List.mem_of_mem_head? hc)
  constructor <;> rintro rfl <;> cases hdigit

theorem takeSign_of_unsigned {t : Text} (h : Unsigned t) : takeSign t = (false, t) := by
  unfold takeSign
  split
  · exact absurd rfl (h _ rfl).1
  · exact absurd rfl (h _ rfl).2
  · rfl

theorem takeSign_signText_append (sg : Option Bool) {t : Text} (h : Unsigned t) :
    takeSign (Claims.signText sg ++ t) = (decide (sg = some true), t) := by
  match sg with
  | none => exact takeSign_of_unsigned h
  | some false => rfl
  | some true => rfl

theorem exists_signText_of_takeSign {v cs : Text} {neg : Bool} (h : takeSign v = (neg, cs)) :
    ∃ sg, Claims.signText sg ++ cs = v := by
  unfold takeSign at h
  split at h <;> cases h
  · exact ⟨some false, rfl⟩
  · exact ⟨some true, rfl⟩
  · exact ⟨none, rfl⟩

/-! The parts of a text of the grammar. -/

/-- The point and the digits after it, as characters. -/
def fracText : Option (List (Fin 10)) → Text
  | none => []
  | some f => '.' :: Claims.digitText f

/-- The exponent as characters. -/
def expText : Option (Bool × Option Bool × List (Fin 10)) → Text
  | none => []
  | some (upper, sg, ds) => (if upper then 'E' else 'e') :: (Claims.signText sg ++ Claims.digitText ds)

theorem decimal_text_eq (d : Claims.Decimal) : d.text =
    Claims.signText d.sign ++ (Claims.digitText d.whole ++ (fracText d.frac ++ expText d.exp)) := by
  obtain ⟨sign, whole, frac, exp⟩ := d
  cases frac <;> cases exp <;> simp [Claims.Decimal.text, fracText, expText]

theorem expText_head {x : Option (Bool × Option Bool × List (Fin 10))} {c : Char} (h : (expText x).head? = some c) :
    c = 'e' ∨ c = 'E' := by
  match x with
  | none => cases h
  | some (false, _, _) => cases h; exact .inl rfl
  | some (true, _, _) => cases h; exact .inr rfl

theorem noDigitAhead_expText (x : Option (Bool × Option Bool × List (Fin 10))) : NoDigitAhead (expText x) := by
  intro c hc
  obtain rfl | rfl := expText_head hc <;> rfl

theorem expText_ne_point (x : Option (Bool × Option Bool × List (Fin 10))) (rest : Text) :
    expText x ≠ '.' :: rest := by
  intro h
  have hhead : (expText x).head? = some '.' := congrArg List.head? h
  obtain hc | hc := expText_head hhead <;> cases hc

theorem noDigitAhead_fracText_append (f : Option (List (Fin 10))) {t : Text} (h : NoDigitAhead t) :
    NoDigitAhead (fracText f ++ t) := by
  cases f with
  | none => exact h
  | some f => rintro _ ⟨⟩; rfl

/-! The mantissa. -/

/-- A mantissa has a digit (R109). -/
def HasDigit (whole : List (Fin 10)) (frac : Option (List (Fin 10))) : Prop :=
  whole ≠ [] ∨ ∃ f, frac = some f ∧ f ≠ []

theorem takeMantissa_of_point {cs rest : Text} {w f : List (Fin 10)} (hw : Claims.digitText w = cs.takeWhile isDigit)
    (hpoint : cs.dropWhile isDigit = '.' :: rest) (hf : Claims.digitText f = rest.takeWhile isDigit) :
    takeMantissa cs =
      if w = [] ∧ f = [] then none else some (Claims.digitNat (w ++ f), f.length, rest.dropWhile isDigit) := by
  simp only [takeMantissa, hpoint, ← hw, ← hf, digitText_eq_nil, ← digitText_append, digitsValue_zero_digitText,
    digitText_length]

theorem takeMantissa_of_no_point {cs : Text} {w : List (Fin 10)} (hw : Claims.digitText w = cs.takeWhile isDigit)
    (hpoint : ∀ rest, cs.dropWhile isDigit ≠ '.' :: rest) :
    takeMantissa cs = if w = [] then none else some (Claims.digitNat w, 0, cs.dropWhile isDigit) := by
  unfold takeMantissa
  split
  · exact absurd ‹_› (hpoint _)
  · simp only [← hw, digitText_eq_nil, digitsValue_zero_digitText]

/-- The digits on both sides of the point are read as one number, and the exponent is left. -/
theorem takeMantissa_append {w : List (Fin 10)} {f : Option (List (Fin 10))} (h : HasDigit w f)
    (x : Option (Bool × Option Bool × List (Fin 10))) :
    takeMantissa (Claims.digitText w ++ (fracText f ++ expText x)) =
      some (Claims.digitNat (w ++ f.getD []), (f.getD []).length, expText x) := by
  have hx := noDigitAhead_expText x
  have hrest := noDigitAhead_fracText_append f hx
  have hwhole := (takeWhile_digitText_append w hrest).symm
  have hafter := dropWhile_digitText_append w hrest
  cases f with
  | none =>
    have hw : w ≠ [] := h.resolve_right (by simp)
    have hpoint := expText_ne_point x
    rw [← List.nil_append (expText x), ← fracText, ← hafter] at hpoint
    rw [takeMantissa_of_no_point hwhole hpoint, hafter, if_neg hw]
    simp [fracText]
  | some f =>
    have hwf : ¬ (w = [] ∧ f = []) := by
      rintro ⟨rfl, rfl⟩
      simp [HasDigit] at h
    rw [takeMantissa_of_point hwhole hafter (takeWhile_digitText_append f hx).symm, if_neg hwf]
    exact congrArg (fun rest => some (_, _, rest)) (dropWhile_digitText_append f hx)

/-- What is taken as a mantissa is one of the grammar. -/
theorem exists_mantissa_of_takeMantissa {cs rest : Text} {m k : Nat} (h : takeMantissa cs = some (m, k, rest)) :
    ∃ w f, HasDigit w f ∧ Claims.digitText w ++ (fracText f ++ rest) = cs := by
  obtain ⟨w, hw⟩ := exists_digitText_takeWhile cs
  have hcs := cs.takeWhile_append_dropWhile (p := isDigit)
  by_cases hpoint : ∃ r, cs.dropWhile isDigit = '.' :: r
  · obtain ⟨r, hr⟩ := hpoint
    obtain ⟨f, hf⟩ := exists_digitText_takeWhile r
    rw [takeMantissa_of_point hw hr hf] at h
    split_ifs at h with hnone
    cases h
    refine ⟨w, some f, ?_, ?_⟩
    · exact (not_and_or.mp hnone).imp_right fun hf => ⟨f, rfl, hf⟩
    · rw [fracText, List.cons_append, hf, List.takeWhile_append_dropWhile, hw, ← hr, hcs]
  · rw [takeMantissa_of_no_point hw (not_exists.mp hpoint)] at h
    split_ifs at h with hnone
    cases h
    exact ⟨w, none, .inl hnone, by rw [fracText, List.nil_append, hw, hcs]⟩

/-- A mantissa does not begin with a sign. -/
theorem unsigned_of_takeMantissa {cs : Text} {p : Nat × Nat × Text} (h : takeMantissa cs = some p) : Unsigned cs := by
  cases cs with
  | nil => exact nofun
  | cons c cs =>
    rintro _ ⟨⟩
    constructor <;> rintro rfl <;> cases h

/-! The exponent. -/

theorem takeExponent_cons_append {c : Char} (sg : Option Bool) {ds : List (Fin 10)} (hc : c = 'e' ∨ c = 'E')
    (hds : ds ≠ []) : takeExponent (c :: (Claims.signText sg ++ Claims.digitText ds)) =
      some (if sg = some true then -(Claims.digitNat ds : Int) else Claims.digitNat ds) := by
  have hall : Claims.digitText ds ≠ [] ∧ (Claims.digitText ds).all isDigit = true :=
    ⟨mt digitText_eq_nil.mp hds, List.all_eq_true.mpr fun _ => isDigit_of_mem_digitText⟩
  rw [takeExponent, if_pos hc, takeSign_signText_append sg (unsigned_digitText ds)]
  simp only [if_pos hall, digitsValue_zero_digitText, decide_eq_true_eq]

theorem takeExponent_expText {d : Claims.Decimal} (h : d.InGrammar) :
    takeExponent (expText d.exp) = some d.exponent := by
  obtain ⟨-, hdigits⟩ := h
  obtain ⟨sign, whole, frac, exp⟩ := d
  match exp with
  | none => rfl
  | some (upper, sg, ds) =>
    have hds : ds ≠ [] := hdigits upper sg ds rfl
    exact takeExponent_cons_append sg (by cases upper <;> simp) hds

/-- What is taken as an exponent is one of the grammar. -/
theorem exists_expText_of_takeExponent {t : Text} {e : Int} (h : takeExponent t = some e) :
    ∃ x, (∀ u sg ds, x = some (u, sg, ds) → ds ≠ []) ∧ expText x = t := by
  cases t with
  | nil => exact ⟨none, nofun, rfl⟩
  | cons c cs =>
    rw [takeExponent] at h
    cases hsign : takeSign cs with
    | mk neg rest =>
      rw [hsign] at h
      obtain ⟨hc, h⟩ := Option.ite_none_right_eq_some.mp h
      obtain ⟨⟨hne, hall⟩, -⟩ := Option.ite_none_right_eq_some.mp h
      obtain ⟨sg, rfl⟩ := exists_signText_of_takeSign hsign
      obtain ⟨ds, rfl⟩ := exists_digitText (List.all_eq_true.mp hall)
      refine ⟨some (decide (c = 'E'), sg, ds), ?_, ?_⟩
      · rintro _ _ _ ⟨⟩
        exact mt digitText_eq_nil.mpr hne
      · obtain rfl | rfl := hc <;> rfl

/-! PARSE_DECIMAL. -/

theorem parseDecimal_eq_some {v : Text} {q : Rat} :
    parseDecimal v = some q ↔ ∃ neg cs m k rest e, takeSign v = (neg, cs) ∧ takeMantissa cs = some (m, k, rest) ∧
      takeExponent rest = some e ∧ scale (if neg = true then -(m : Int) else m) (e - (k : Nat)) = q := by
  unfold parseDecimal
  constructor
  · intro h
    cases hsign : takeSign v with
    | mk neg cs =>
      simp only [hsign] at h
      split at h
      · cases h
      · split at h <;> cases h
        exact ⟨neg, cs, _, _, _, _, rfl, ‹_›, ‹_›, rfl⟩
  · rintro ⟨neg, cs, m, k, rest, e, hsign, hmantissa, hexp, rfl⟩
    simp only [hsign, hmantissa, hexp]

theorem decimal_value_eq_scale (d : Claims.Decimal) : d.value =
    scale (if decide (d.sign = some true) = true then -(Claims.digitNat (d.whole ++ d.frac.getD []) : Int)
      else Claims.digitNat (d.whole ++ d.frac.getD [])) (d.exponent - ((d.frac.getD []).length : Nat)) := by
  rw [Claims.Decimal.value, scale_eq]
  by_cases h : d.sign = some true <;> simp [h]

theorem parseDecimal_text {d : Claims.Decimal} (h : d.InGrammar) : parseDecimal d.text = some d.value := by
  have hmantissa := takeMantissa_append h.left d.exp
  rw [parseDecimal_eq_some, decimal_text_eq]
  exact ⟨_, _, _, _, _, _, takeSign_signText_append d.sign (unsigned_of_takeMantissa hmantissa), hmantissa,
    takeExponent_expText h, (decimal_value_eq_scale d).symm⟩

theorem exists_decimal_of_parseDecimal {v : Text} {q : Rat} (h : parseDecimal v = some q) :
    ∃ d : Claims.Decimal, d.InGrammar ∧ d.text = v := by
  obtain ⟨neg, cs, m, k, rest, e, hsign, hmantissa, hexp, -⟩ := parseDecimal_eq_some.mp h
  obtain ⟨sign, rfl⟩ := exists_signText_of_takeSign hsign
  obtain ⟨whole, frac, hdigit, rfl⟩ := exists_mantissa_of_takeMantissa hmantissa
  obtain ⟨exp, hdigits, rfl⟩ := exists_expText_of_takeExponent hexp
  exact ⟨⟨sign, whole, frac, exp⟩, ⟨hdigit, hdigits⟩, decimal_text_eq _⟩

/-- PARSE_DECIMAL takes a text exactly where the grammar spells it, with the value it spells (R109). -/
theorem parseDecimal_eq_some_iff_grammar {v : Text} {q : Rat} :
    parseDecimal v = some q ↔ ∃ d : Claims.Decimal, d.InGrammar ∧ d.text = v ∧ d.value = q := by
  constructor
  · intro h
    obtain ⟨d, hd, rfl⟩ := exists_decimal_of_parseDecimal h
    exact ⟨d, hd, rfl, Option.some.inj ((parseDecimal_text hd).symm.trans h)⟩
  · rintro ⟨d, hd, rfl, rfl⟩
    exact parseDecimal_text hd

/-- Settles O34: sign, mantissa and exponent of a text of the grammar are read one after another, and what each takes is
a part of the grammar. -/
theorem parseDecimalIsExactOnTheGrammar : Obligations.ParseDecimalIsExactOnTheGrammar :=
  ⟨fun _ => parseDecimal_text, fun _ _ => parseDecimal_eq_some_iff_grammar.mp⟩

/-! ROOM_VALUE and SET_VALUE (R107, R108). -/

theorem roomValue_eq_some {v : Text} {c : Byte} :
    roomValue v = some c ↔ parseDecimal v = some ((c.toNat : Rat) / 2 + 10) := by
  have hcode : ∀ t, Codec.roomTempEncode t = some c ↔ t = (c.toNat : Rat) / 2 + 10 := by
    intro t
    rw [roomTempEncode_eq_codeOfRat, codeOfRat_eq_some]
    constructor <;> intro h <;> linarith
  unfold roomValue
  cases parseDecimal v with
  | none => simp
  | some t => simp [hcode]

/-- SET_TEMP_ENCODE's code, widened to a byte, is the byte of the same number. -/
theorem setTempEncode_eq_some {t : Rat} {c : Byte} :
    (∃ r, Codec.setTempEncode t = some r ∧ r.setWidth 8 = c) ↔ c.toNat ≤ 15 ∧ t = (c.toNat : Rat) + 16 := by
  simp only [setTempEncode_eq_codeOfRat, codeOfRat_eq_some, sub_eq_iff_eq_add]
  constructor
  · rintro ⟨r, rfl, rfl⟩
    have := r.isLt
    rw [BitVec.toNat_setWidth_of_le (by omega)]
    exact ⟨by omega, rfl⟩
  · rintro ⟨hle, rfl⟩
    have hnum : (c.setWidth 4).toNat = c.toNat := by rw [BitVec.toNat_setWidth]; omega
    refine ⟨c.setWidth 4, by rw [hnum], BitVec.eq_of_toNat_eq ?_⟩
    rw [BitVec.toNat_setWidth_of_le (by omega), hnum]

theorem setValue_eq_some {v : Text} {c : Byte} :
    setValue v = some c ↔ c.toNat ≤ 15 ∧ parseDecimal v = some ((c.toNat : Rat) + 16) := by
  unfold setValue
  cases parseDecimal v with
  | none => simp
  | some t =>
    dsimp only
    rw [Option.some_inj, ← setTempEncode_eq_some]
    cases Codec.setTempEncode t <;> simp

/-- Settles O35: a text has the code whose temperature is the text's value. -/
theorem temperatureValuesTakeExactCodesOnly : Obligations.TemperatureValuesTakeExactCodesOnly := by
  intro v
  simp only [← parseDecimal_eq_some_iff_grammar]
  exact ⟨fun _ => roomValue_eq_some, fun _ => setValue_eq_some⟩

end Sys2Proof.Proofs
end

section
/-!
The instructions and their words (family other): the event of an instruction selects that instruction at its port, and
what a port selects is spelled by its event.
-/

namespace Sys2Proof.Proofs

open Sys2Proof.Machine

theorem encode_eq_event {i : Instr} {w : EventWord} :
    encode i = some (.event w) ↔ ∃ e, i.event = some e ∧ encodeEvent e = w := by
  unfold encode
  cases i.event <;> simp

theorem encode_eq_replyPayload {i : Instr} {x : DataWord} :
    encode i = some (.replyPayload x) ↔ i.event = none ∧ i.replyPayload = some x := by
  unfold encode
  cases i.event <;> simp

/-- The event of a well-formed instruction selects it at its port (R70). -/
theorem portStep_of_event {i : Instr} {p : Port} {e : Event} (hwf : WellFormed i = true) (hport : i.port = some p)
    (hevent : i.event = some e) : portStep p e = .instr i := by
  cases i with
  | mEditUnknownFid fid v =>
    cases hport; cases hevent
    have hfid : 8 < fid.toNat := of_decide_eq_true hwf
    exact congrArg Decoded.instr (editInstr_of_unknown v hfid)
  | reset e => cases e <;> cases hport <;> cases hevent <;> rfl
  | _ => cases hport <;> cases hevent <;> rfl

/-- The data word of a payload is the first row's pattern exactly where the payload is the poll payload (R67). -/
theorem word_eq_pollWord {x : Payload} : x.word = 0x9400000000#40 ↔ x = pollPayload :=
  ⟨fun h => Payload.word_injective (h.trans (by decide)), fun h => h ▸ by decide⟩

theorem decodeReplyPayload_of_replyPayload {i : Instr} {x : DataWord} (hwf : WellFormed i = true)
    (hx : i.replyPayload = some x) : decodeReplyPayload x = i := by
  cases i with
  | selectReplyRow1 =>
    cases hx
    exact if_pos (word_eq_pollWord.mpr rfl)
  | selectReplyRow2 y =>
    cases hx
    have hy : y ≠ pollPayload := by simpa [WellFormed] using hwf
    rw [decodeReplyPayload, if_neg (mt word_eq_pollWord.mp hy), Payload.ofWord_word]
  | _ => cases hx

/-- Every step of an agent but INTAKE_OVERFLOW has an event. -/
theorem exists_event {i : Instr} (hcall : i.isCall = false) (hover : i ≠ .intakeOverflow) : ∃ e, i.event = some e := by
  cases i with
  | intakeOverflow => exact absurd rfl hover
  | _ => cases hcall <;> exact ⟨_, rfl⟩

/-- An instruction has a port exactly where it has an event. -/
theorem exists_port_of_event {i : Instr} {e : Event} (h : i.event = some e) : ∃ p, i.port = some p := by
  cases i with
  | reset e => cases e <;> exact ⟨_, rfl⟩
  | _ => cases h <;> exact ⟨_, rfl⟩

/-- Settles O42: an event word is read back as its event, which selects the instruction at its port; a payload is read
back by the reply table's rows. -/
theorem decodeEncodeGivesTheInstructionBack : Obligations.DecodeEncodeGivesTheInstructionBack := by
  intro i hwf
  refine ⟨fun p w hport hw => ?_, fun x hx => ?_, fun hcall hover => ?_⟩
  · obtain ⟨e, hevent, rfl⟩ := encode_eq_event.mp hw
    rw [decodeAt_encodeEvent, portStep_of_event hwf hport hevent]
  · exact decodeReplyPayload_of_replyPayload hwf (encode_eq_replyPayload.mp hx).2
  · obtain ⟨e, hevent⟩ := exists_event hcall hover
    obtain ⟨p, hport⟩ := exists_port_of_event hevent
    exact ⟨p, _, hport, encode_eq_event.mpr ⟨e, hevent, rfl⟩⟩

/-- Where a port selects an instruction, the word is that of an event which selects it there. -/
theorem decodeAt_eq_instr {p : Port} {w : EventWord} {i : Instr} :
    decodeAt p w = .instr i ↔ ∃ e, encodeEvent e = w ∧ portStep p e = .instr i := by
  constructor
  · intro h
    cases hw : decodeEvent w with
    | error r => simp [decodeAt, hw] at h
    | ok e =>
      rw [decodeAt, hw] at h
      exact ⟨e, decodeEvent_eq_ok.mp hw, h⟩
  · rintro ⟨e, rfl, h⟩
    rw [decodeAt_encodeEvent, h]

theorem wellFormed_editInstr (fid : BitVec 4) (v : Byte) : WellFormed (editInstr fid v) = true := by
  unfold editInstr
  split
  case h_10 hfid => exact decide_eq_true (EditField.ofFid_eq_none.mp hfid)
  all_goals rfl

/-- What a port selects is well formed, and consumes the event that selected it. -/
theorem wellFormed_and_event_of_portStep {p : Port} {e : Event} {i : Instr} (h : portStep p e = .instr i) :
    WellFormed i = true ∧ i.event = some e := by
  cases p with
  | replica ph => cases e <;> cases ph <;> cases h <;> exact ⟨rfl, rfl⟩
  | tick ph => cases e <;> cases ph <;> cases h <;> exact ⟨rfl, rfl⟩
  | edit =>
    cases e with
    | edit fid v =>
      cases h
      exact ⟨wellFormed_editInstr fid v, (editInstr_fid fid v).1⟩
    | editReject r => cases r <;> cases h <;> exact ⟨rfl, rfl⟩
    | _ => cases h <;> exact ⟨rfl, rfl⟩

/-- Settles O43: the word is that of an event, and the selected instruction consumes that event. -/
theorem encodeDecodeGivesTheWordBack : Obligations.EncodeDecodeGivesTheWordBack := by
  intro p w i h
  obtain ⟨e, he, hstep⟩ := decodeAt_eq_instr.mp h
  obtain ⟨hwf, hevent⟩ := wellFormed_and_event_of_portStep hstep
  exact ⟨hwf, encode_eq_event.mpr ⟨e, hevent, he⟩⟩

/-- Settles O44: each word is that of its event. -/
theorem writtenOutWordsDecode : Obligations.WrittenOutWordsDecode :=
  ⟨decodeAt_encodeEvent _ (.rxByte 0xC1#8), decodeAt_encodeEvent _ .step, decodeAt_encodeEvent _ .tick,
    decodeAt_encodeEvent _ (.edit 3#4 33#8), decodeAt_encodeEvent _ (.editReject .unknownAttribute),
    decodeAt_encodeEvent _ .reset⟩

/-- MASTER.EDIT's turn decodes the word that heads the EDIT port. -/
theorem fetch_turn_masterEdit {s : State} {w : EventWord} {ws : List EventWord} (hport : s.master.editPort = w :: ws) :
    fetch (.turn .masterEdit) s = fetchWord .masterEdit w s :=
  fetchTurn_of_word (by simp) (by rw [State.eventWord?, hport]; rfl)

/-- Settles O41: a reserved word decodes to no event, so the turn that takes it is refused. -/
theorem stepRefusesReservedEditWords : Obligations.StepRefusesReservedEditWords := by
  intro s w ws rest hinputs hport hreserved
  obtain ⟨r, hr⟩ := decodeEvent_of_reserved hreserved
  have hport' : ({ s with inputs := rest } : State).master.editPort = w :: ws := hport
  refine ⟨r, ?_⟩
  rw [step_cons hinputs, fetch_turn_masterEdit hport',
    fetchWord_eq_refused.mpr ⟨r, decodeAt_of_error hr _, rfl⟩]
  rfl

end Sys2Proof.Proofs
end

section
/-!
What every step leaves of each engine (family other): the effects of Laws/Steps.lean, read once as what becomes of each
register, and the statements about every step that follow from it.
-/

namespace Sys2Proof.Proofs

open Sys2Proof.Machine

/-- The stream is as it was, or has one element more at its end. -/
def AppendsAtMostOne {α : Type} (l l' : List α) : Prop := l' = l ∨ ∃ a, l' = l ++ [a]

/-- The queue is as it was, or has lost its head. -/
def DropsAtMostHead {α : Type} (l l' : List α) : Prop := l' = l ∨ ∃ a, l = a :: l'

/-! REPLICA. -/

/-- What each of REPLICA's own steps keeps, and how its streams and its FIFO move. -/
structure ReplicaKept (r r' : Replica) : Prop where
  params : r'.params = r.params
  started : r'.started = r.started
  evt : AppendsAtMostOne r.evt r'.evt
  fifo : DropsAtMostHead r.rxFifo r'.rxFifo
  tx : r'.tx = r.tx ∨ r.phase = .process ∧ r'.phase = .echo ∧
    ∃ q, r'.tx = r.tx ++ [Claims.sealed q] ∧ r'.reply = some (Claims.sealed q)

/-- A processed frame is answered, or reported and dropped; at most one record either way (R92). -/
theorem replica_processFrame_results (f : Frame) (r : Replica) :
    (∃ evt last q, AppendsAtMostOne r.evt evt ∧ r.processFrame f = { r with
      evt := evt, last := last, tx := r.tx ++ [Claims.sealed q], reply := some (Claims.sealed q), echo := [],
      frame := none, phase := .echo }) ∨
    (∃ e, r.processFrame f = { r with evt := r.evt ++ [e], frame := none, phase := .intake }) := by
  obtain ⟨-, h⟩ | ⟨-, -, h⟩ | ⟨-, -, h⟩ := Replica.processFrame_cases f r
  · refine .inl ⟨_, _, _, ?_, by rw [h, replica_sendReply_eq, Replica.observe_eq]⟩
    split_ifs
    · exact .inl rfl
    · exact .inr ⟨_, rfl⟩
  · exact .inl ⟨_, _, _, .inr ⟨_, rfl⟩, by rw [h, replica_sendReply_eq]; rfl⟩
  · exact .inr ⟨_, h⟩

/-- A compared echo is reported at most once (R93). -/
theorem replica_checkEcho_result (sent got : Frame) (r : Replica) :
    ∃ evt, AppendsAtMostOne r.evt evt ∧ r.checkEcho sent got = { r with evt := evt, echo := [], phase := .intake } := by
  refine ⟨_, ?_, Replica.checkEcho_eq sent got r⟩
  split_ifs
  · exact .inl rfl
  · exact .inr ⟨_, rfl⟩

theorem replicaEffect_kept {r r' : Replica} (h : ReplicaEffect r r') : ReplicaKept r r' := by
  cases h with
  | held => exact ⟨rfl, rfl, .inl rfl, .inl rfl, .inl rfl⟩
  | byteIn b rest _ _ hfifo =>
    obtain ⟨f, -, h⟩ | ⟨-, h⟩ := Replica.collect_cases b { r with rxFifo := rest } <;>
      rw [h] <;> exact ⟨rfl, rfl, .inl rfl, .inr ⟨b, hfifo⟩, .inl rfl⟩
  | resync => exact ⟨rfl, rfl, .inl rfl, .inl rfl, .inl rfl⟩
  | halt => exact ⟨rfl, rfl, .inr ⟨_, rfl⟩, .inl rfl, .inl rfl⟩
  | processed f hphase =>
    obtain ⟨evt, last, q, hevt, h⟩ | ⟨e, h⟩ := replica_processFrame_results f r <;> rw [h]
    · exact ⟨rfl, rfl, hevt, .inl rfl, .inr ⟨hphase, rfl, q, rfl, rfl⟩⟩
    · exact ⟨rfl, rfl, .inr ⟨e, rfl⟩, .inl rfl, .inl rfl⟩
  | echoIn b rest r' _ hfifo h =>
    obtain ⟨-, rfl⟩ | ⟨got, sent, -, -, rfl⟩ := Replica.collectEcho_eq_ok.mp h
    · exact ⟨rfl, rfl, .inl rfl, .inr ⟨b, hfifo⟩, .inl rfl⟩
    · obtain ⟨evt, hevt, h⟩ := replica_checkEcho_result sent got { r with rxFifo := rest }
      rw [h]
      exact ⟨rfl, rfl, hevt, .inr ⟨b, hfifo⟩, .inl rfl⟩

/-- No step of REPLICA leaves HALTED (R95). -/
theorem replicaEffect_of_halted {r r' : Replica} (h : ReplicaEffect r r') (hphase : r.phase = .halted) : r' = r := by
  cases h with
  | held => rfl
  | byteIn b rest hother => cases hphase.symm.trans hother
  | resync hother => cases hphase.symm.trans hother
  | halt hother => cases hphase.symm.trans hother
  | processed f hother => cases hphase.symm.trans hother
  | echoIn b rest r' hother => cases hphase.symm.trans hother

/-! The first items of R33, phase by phase. -/

theorem replica_inv_of_intake {r : Replica} (h : r.phase = .intake) :
    r.Inv ↔ r.buf.length ≤ 5 ∧ r.frame = none ∧ r.echo = [] := by
  rw [Replica.Inv, h]

theorem replica_inv_of_process {r : Replica} (h : r.phase = .process) :
    r.Inv ↔ r.buf = [] ∧ r.frame.isSome ∧ r.echo = [] := by
  rw [Replica.Inv, h]

theorem replica_inv_of_echo {r : Replica} (h : r.phase = .echo) :
    r.Inv ↔ r.buf = [] ∧ r.frame = none ∧ r.echo.length ≤ 5 ∧ r.reply.isSome := by
  rw [Replica.Inv, h]

theorem replicaEffect_inv {r r' : Replica} (h : ReplicaEffect r r') (hinv : r.Inv) : r'.Inv := by
  cases h with
  | held => exact hinv
  | byteIn b rest hphase =>
    obtain ⟨hlen, hframe, hecho⟩ := (replica_inv_of_intake hphase).mp hinv
    obtain ⟨f, -, h⟩ | ⟨hne, h⟩ := Replica.collect_cases b { r with rxFifo := rest } <;> rw [h]
    · exact (replica_inv_of_process rfl).mpr ⟨rfl, rfl, hecho⟩
    · refine (replica_inv_of_intake (by exact hphase)).mpr ⟨?_, hframe, hecho⟩
      rw [List.length_append, List.length_singleton]
      exact Nat.lt_of_le_of_ne hlen hne
  | resync hphase =>
    obtain ⟨-, hframe, hecho⟩ := (replica_inv_of_intake hphase).mp hinv
    exact (replica_inv_of_intake (by exact hphase)).mpr ⟨Nat.zero_le _, hframe, hecho⟩
  | halt => trivial
  | processed f hphase =>
    obtain ⟨hbuf, -, hecho⟩ := (replica_inv_of_process hphase).mp hinv
    obtain ⟨evt, last, q, -, h⟩ | ⟨e, h⟩ := replica_processFrame_results f r <;> rw [h]
    · exact (replica_inv_of_echo rfl).mpr ⟨hbuf, rfl, Nat.zero_le _, rfl⟩
    · exact (replica_inv_of_intake rfl).mpr ⟨by simp [hbuf], rfl, hecho⟩
  | echoIn b rest r' hphase _ h =>
    obtain ⟨hbuf, hframe, hlen, hreply⟩ := (replica_inv_of_echo hphase).mp hinv
    obtain ⟨hne, rfl⟩ | ⟨got, sent, -, -, rfl⟩ := Replica.collectEcho_eq_ok.mp h
    · refine (replica_inv_of_echo (by exact hphase)).mpr ⟨hbuf, hframe, ?_, hreply⟩
      rw [List.length_append, List.length_singleton]
      exact Nat.lt_of_le_of_ne hlen hne
    · rw [Replica.checkEcho_eq]
      exact (replica_inv_of_intake rfl).mpr ⟨by simp [hbuf], hframe, rfl⟩

theorem replica_doReset_inv (r : Replica) : r.doReset.Inv := ⟨Nat.zero_le _, rfl, rfl⟩

theorem replicaChange_inv {r r' : Replica} (h : ReplicaChange r r') (hinv : r.Inv) : r'.Inv := by
  cases h with
  | stepped r' heffect => exact (replicaEffect_inv heffect hinv : r'.Inv)
  | reset => exact replica_doReset_inv r
  | same => exact hinv
  | arrived => exact hinv
  | configured => exact hinv

/-! MASTER. -/

/-- What each instruction of MASTER keeps, and how its streams and its FIFO move. -/
structure MasterKept (m m' : Master) : Prop where
  params : m'.params = m.params
  started : m'.started = m.started
  editPort : m'.editPort = m.editPort
  tick : m.phase = .resp → m'.tickOffered = m.tickOffered
  evt : AppendsAtMostOne m.evt m'.evt
  fifo : DropsAtMostHead m.rxFifo m'.rxFifo
  tx : m'.tx = m.tx ∨ m.phase = .idle ∧ m'.phase = .resp ∧
    ∃ f, m.tickFrame = .ok f ∧ m'.tx = m.tx ++ [f] ∧ m'.txFrame = some f

theorem masterEffect_kept {i : Instr} {m m' : Master} (h : MasterEffect i m m') : MasterKept m m' := by
  cases h with
  | held => exact ⟨rfl, rfl, rfl, fun _ => rfl, .inl rfl, .inl rfl, .inl rfl⟩
  | fired _ hphase _ =>
    have hidle : m.phase ≠ .resp := by simp [hphase]
    obtain ⟨f, hf, h⟩ | ⟨fld, -, h⟩ := Master.fire_cases m <;> rw [h]
    · exact ⟨rfl, rfl, rfl, (absurd · hidle), .inl rfl, .inl rfl, .inr ⟨hphase, rfl, f, hf, rfl, rfl⟩⟩
    · exact ⟨rfl, rfl, rfl, (absurd · hidle), .inr ⟨_, rfl⟩, .inl rfl, .inl rfl⟩
  | byteIn b rest _ hfifo =>
    obtain ⟨-, h⟩ | ⟨-, h⟩ := Master.collect_cases b { m with rxFifo := rest } <;> rw [h]
    · exact ⟨rfl, rfl, rfl, fun _ => rfl, .inr ⟨_, rfl⟩, .inr ⟨b, hfifo⟩, .inl rfl⟩
    · exact ⟨rfl, rfl, rfl, fun _ => rfl, .inl rfl, .inr ⟨b, hfifo⟩, .inl rfl⟩
  | shortRead => exact ⟨rfl, rfl, rfl, fun _ => rfl, .inr ⟨_, rfl⟩, .inl rfl, .inl rfl⟩
  | edited => exact ⟨rfl, rfl, rfl, fun _ => rfl, .inl rfl, .inl rfl, .inl rfl⟩
  | reported => exact ⟨rfl, rfl, rfl, fun _ => rfl, .inr ⟨_, rfl⟩, .inl rfl, .inl rfl⟩

/-- Where `m_last_sent` moves, M_TICK committed `m_pending` to it (R23, R97). -/
theorem masterEffect_lastSent {i : Instr} {m m' : Master} (h : MasterEffect i m m') :
    m'.lastSent = m.lastSent ∨ i = .mTick ∧ m'.lastSent = m.pending := by
  cases h with
  | fired hi =>
    obtain ⟨f, -, h⟩ | ⟨fld, -, h⟩ := Master.fire_cases m <;> rw [h]
    · exact .inr ⟨hi, rfl⟩
    · exact .inl rfl
  | byteIn b rest =>
    obtain ⟨-, h⟩ | ⟨-, h⟩ := Master.collect_cases b { m with rxFifo := rest } <;> rw [h] <;> exact .inl rfl
  | held => exact .inl rfl
  | shortRead => exact .inl rfl
  | edited => exact .inl rfl
  | reported => exact .inl rfl

/-- Where `m_pending` moves, an edit of a field with a legal code re-based it (R23, R101). -/
theorem masterEffect_pending {i : Instr} {m m' : Master} (h : MasterEffect i m m') :
    m'.pending = m.pending ∨ ∃ fid v fld, i.event = some (.edit fid v) ∧ EditField.ofFid fid = some fld ∧
      fld.legalCode v = true ∧ m'.pending = m.lastSent.set fld v := by
  cases h with
  | edited fid v fld hi hfld hlegal => exact .inr ⟨fid, v, fld, hi, hfld, hlegal, rfl⟩
  | fired =>
    obtain ⟨f, -, h⟩ | ⟨fld, -, h⟩ := Master.fire_cases m <;> rw [h] <;> exact .inl rfl
  | byteIn b rest =>
    obtain ⟨-, h⟩ | ⟨-, h⟩ := Master.collect_cases b { m with rxFifo := rest } <;> rw [h] <;> exact .inl rfl
  | held => exact .inl rfl
  | shortRead => exact .inl rfl
  | reported => exact .inl rfl

theorem master_inv_of_idle {m : Master} (h : m.phase = .idle) : m.Inv ↔ m.resp = [] := by
  rw [Master.Inv, h]

theorem master_inv_of_resp {m : Master} (h : m.phase = .resp) : m.Inv ↔ m.resp.length ≤ 11 ∧ m.txFrame.isSome := by
  rw [Master.Inv, h]

theorem masterEffect_inv {i : Instr} {m m' : Master} (h : MasterEffect i m m') (hinv : m.Inv) : m'.Inv := by
  cases h with
  | held => exact hinv
  | fired _ hphase _ =>
    obtain ⟨f, -, h⟩ | ⟨fld, -, h⟩ := Master.fire_cases m <;> rw [h]
    · exact (master_inv_of_resp rfl).mpr ⟨Nat.zero_le _, rfl⟩
    · exact (master_inv_of_idle hphase).mpr ((master_inv_of_idle hphase).mp hinv)
  | byteIn b rest hphase =>
    obtain ⟨hlen, hframe⟩ := (master_inv_of_resp hphase).mp hinv
    obtain ⟨-, h⟩ | ⟨hne, h⟩ := Master.collect_cases b { m with rxFifo := rest } <;> rw [h]
    · exact (master_inv_of_idle rfl).mpr rfl
    · refine (master_inv_of_resp (by exact hphase)).mpr ⟨?_, hframe⟩
      rw [List.length_append, List.length_singleton]
      exact Nat.lt_of_le_of_ne hlen hne
  | shortRead => exact (master_inv_of_idle rfl).mpr rfl
  | edited => exact hinv
  | reported => exact hinv

theorem masterChange_inv {m m' : Master} (h : MasterChange m m') (hinv : m.Inv) : m'.Inv := by
  cases h with
  | stepped i p m' _ heffect => exact (masterEffect_inv heffect hinv : m'.Inv)
  | reset => exact (master_inv_of_idle rfl).mpr rfl
  | same => exact hinv
  | arrived => exact hinv
  | ticked => exact hinv
  | offered => exact hinv
  | configured => exact hinv

/-- Settles O47: every change of either engine keeps its part of R33. -/
theorem everyStepKeepsTheEngineInvariants : Obligations.EveryStepKeepsTheEngineInvariants := by
  intro s t ⟨hreplica, hmaster⟩ hstep
  obtain ⟨hr, hm⟩ := step_changes hstep
  exact ⟨replicaChange_inv hr hreplica, masterChange_inv hm hmaster⟩

/-! Legal banks (R20). -/

/-- A legal code of at most three bits is itself when narrowed to three bits. -/
theorem setWidth_three_toNat {v : Byte} (h : v.toNat ≤ 4) : (v.setWidth 3).toNat = v.toNat := by
  rw [BitVec.toNat_setWidth]; omega

/-- Replacing a field by a legal code keeps a Settings value legal (R20, R71). -/
theorem settings_set_legal {s : Settings} {fld : EditField} {v : Byte} (hcode : fld.legalCode v = true)
    (hs : s.legal) : (s.set fld v).legal := by
  obtain ⟨hmode, hfan⟩ := hs
  cases fld with
  | mode =>
    have hv : v.toNat ≤ 4 := (Codec.legalMode_iff _).mp hcode
    exact ⟨by rw [Settings.set, setWidth_three_toNat hv]; exact hcode, hfan⟩
  | fanSpeed =>
    have hv : v.toNat ≤ 4 := by
      have := (Codec.legalFan_iff _).mp hcode
      simp at this; omega
    exact ⟨hmode, by rw [Settings.set, setWidth_three_toNat hv]; exact hcode⟩
  | _ => exact ⟨hmode, hfan⟩

theorem masterEffect_legalBanks {i : Instr} {m m' : Master} (h : MasterEffect i m m') (hlegal : m.LegalBanks) :
    m'.LegalBanks := by
  obtain ⟨hlast, hpending⟩ := hlegal
  constructor
  · obtain h | ⟨-, h⟩ := masterEffect_lastSent h <;> rwa [h]
  · obtain h | ⟨fid, v, fld, -, -, hcode, h⟩ := masterEffect_pending h <;> rw [h]
    · exact hpending
    · exact settings_set_legal hcode hlast

/-- SETTINGS_DEFAULT is legal (R22). -/
theorem settingsDefault_legal : Settings.default.legal := by decide

/-- Settles O48: MASTER's instructions keep legal banks legal, RESET makes both SETTINGS_DEFAULT, and nothing else
writes them. -/
theorem everyStepKeepsTheBanksLegal : Obligations.EveryStepKeepsTheBanksLegal := by
  intro s t hlegal hstep
  have hchange := (step_changes hstep).2
  generalize t.master = m' at hchange
  cases hchange with
  | stepped i p m' _ heffect => exact (masterEffect_legalBanks heffect hlegal : m'.LegalBanks)
  | reset => exact ⟨settingsDefault_legal, settingsDefault_legal⟩
  | same => exact hlegal
  | arrived => exact hlegal
  | ticked => exact hlegal
  | offered => exact hlegal
  | configured => exact hlegal

/-- Settles O49, by the reset values. -/
theorem resetStateMeetsTheInvariants : Obligations.ResetStateMeetsTheInvariants :=
  ⟨⟨replica_doReset_inv Replica.reset, (master_inv_of_idle rfl).mpr rfl⟩,
    ⟨settingsDefault_legal, settingsDefault_legal⟩, by decide⟩

end Sys2Proof.Proofs
end

section
/-!
The machine as a whole (family other): how a step moves the streams, the queues, the marks and the parameters; where
exec faults; which engine an instruction touches; and that the timing parameters have no effect.
-/

namespace Sys2Proof.Proofs

open Sys2Proof.Machine

/-! What a step makes of each engine. -/

/-- What becomes of REPLICA's streams, FIFO, mark and parameters in a step of the machine. -/
structure ReplicaMoved (r r' : Replica) : Prop where
  evt : AppendsAtMostOne r.evt r'.evt
  tx : r'.tx = r.tx ∨ r.phase = .process ∧ r'.phase = .echo ∧
    ∃ q, r'.tx = r.tx ++ [Claims.sealed q] ∧ r'.reply = some (Claims.sealed q)
  fifo : DropsAtMostHead r.rxFifo r'.rxFifo ∨ ∃ b, r'.rxFifo = r.rxFifo ++ [b]
  started : r.started = true → r'.started = true ∧ r'.params = r.params

theorem replicaChange_moved {r r' : Replica} (h : ReplicaChange r r') : ReplicaMoved r r' := by
  cases h with
  | stepped r' heffect =>
    obtain ⟨hparams, -, hevt, hfifo, htx⟩ := replicaEffect_kept heffect
    exact ⟨hevt, htx, .inl hfifo, fun _ => ⟨rfl, hparams⟩⟩
  | reset hstarted => exact ⟨.inl rfl, .inl rfl, .inl (.inl rfl), fun h => by simp [h] at hstarted⟩
  | arrived b => exact ⟨.inl rfl, .inl rfl, .inr ⟨b, rfl⟩, fun h => ⟨h, rfl⟩⟩
  | same => exact ⟨.inl rfl, .inl rfl, .inl (.inl rfl), fun h => ⟨h, rfl⟩⟩
  | configured => exact ⟨.inl rfl, .inl rfl, .inl (.inl rfl), fun h => ⟨h, rfl⟩⟩

/-- What becomes of MASTER's streams, queues, mark and parameters in a step of the machine. -/
structure MasterMoved (m m' : Master) : Prop where
  evt : AppendsAtMostOne m.evt m'.evt
  tx : m'.tx = m.tx ∨ m.phase = .idle ∧ m'.phase = .resp ∧
    ∃ q, m'.tx = m.tx ++ [Claims.sealed q] ∧ m'.txFrame = some (Claims.sealed q)
  fifo : DropsAtMostHead m.rxFifo m'.rxFifo ∨ ∃ b, m'.rxFifo = m.rxFifo ++ [b]
  editPort : DropsAtMostHead m.editPort m'.editPort ∨ ∃ w, m'.editPort = m.editPort ++ [w]
  started : m.started = true → m'.started = true ∧ m'.params = m.params

/-- A frame that ENCODE answers carries its checksum (R77). -/
theorem eq_sealed_of_encode {f : Fields} {fr : Frame} (h : Codec.encode f = .ok fr) : ∃ q, fr = Claims.sealed q :=
  ⟨_, (Codec.encode_eq_ok.mp h).2.trans (withChecksum_eq_sealed _)⟩

theorem portTaken_dropsAtMostHead {m : Master} {i : Instr} {p : List EventWord} (h : PortTaken m i p) :
    DropsAtMostHead m.editPort p := by
  obtain ⟨-, rfl⟩ | ⟨w, hw, -⟩ := h
  · exact .inl rfl
  · exact .inr ⟨w, hw⟩

theorem masterChange_moved {m m' : Master} (h : MasterChange m m') : MasterMoved m m' := by
  cases h with
  | stepped i p m' hport heffect =>
    obtain ⟨hparams, -, hedit, -, hevt, hfifo, htx⟩ := masterEffect_kept heffect
    refine ⟨hevt, ?_, .inl hfifo, .inl ?_, fun _ => ⟨rfl, hparams⟩⟩
    · refine htx.imp_right fun ⟨hidle, hresp, f, hframe, htx, hheld⟩ => ?_
      obtain ⟨q, rfl⟩ := eq_sealed_of_encode hframe
      exact ⟨hidle, hresp, q, htx, hheld⟩
    · show DropsAtMostHead m.editPort m'.editPort
      rw [hedit]
      exact portTaken_dropsAtMostHead hport
  | reset p hport hstarted =>
    exact ⟨.inl rfl, .inl rfl, .inl (.inl rfl), .inl (portTaken_dropsAtMostHead hport),
      fun h => by simp [h] at hstarted⟩
  | arrived b => exact ⟨.inl rfl, .inl rfl, .inr ⟨b, rfl⟩, .inl (.inl rfl), fun h => ⟨h, rfl⟩⟩
  | offered w => exact ⟨.inl rfl, .inl rfl, .inl (.inl rfl), .inr ⟨w, rfl⟩, fun h => ⟨h, rfl⟩⟩
  | same => exact ⟨.inl rfl, .inl rfl, .inl (.inl rfl), .inl (.inl rfl), fun h => ⟨h, rfl⟩⟩
  | ticked => exact ⟨.inl rfl, .inl rfl, .inl (.inl rfl), .inl (.inl rfl), fun h => ⟨h, rfl⟩⟩
  | configured => exact ⟨.inl rfl, .inl rfl, .inl (.inl rfl), .inl (.inl rfl), fun h => ⟨h, rfl⟩⟩

theorem step_moved {s t : State} (h : step s = .next t) :
    ReplicaMoved s.replica t.replica ∧ MasterMoved s.master t.master :=
  (step_changes h).imp replicaChange_moved masterChange_moved

/-- Settles O51: the records by the streams' lemmas, the frames because an engine that transmits appends one. -/
theorem everyStepAppendsAtMostOneRecord : Obligations.EveryStepAppendsAtMostOneRecord := by
  intro s t hstep
  obtain ⟨hr, hm⟩ := step_moved hstep
  exact ⟨hr.evt, hr.tx.imp_right fun ⟨_, _, _, htx, _⟩ => ⟨_, htx⟩,
    hm.evt, hm.tx.imp_right fun ⟨_, _, _, htx, _⟩ => ⟨_, htx⟩⟩

/-- Settles O52: each engine's TX stays, or its engine transmitted in its phase. -/
theorem enginesTransmitOnlyInTheirPhase : Obligations.EnginesTransmitOnlyInTheirPhase := by
  intro s t hstep
  obtain ⟨hr, hm⟩ := step_moved hstep
  exact ⟨hr.tx.resolve_left, hm.tx.resolve_left⟩

/-- Settles O56. -/
theorem parametersAreFixedDuringARun : Obligations.ParametersAreFixedDuringARun := by
  intro s t hstep
  obtain ⟨hr, hm⟩ := step_moved hstep
  exact ⟨fun h => (hr.started h).2, fun h => (hm.started h).2⟩

/-- Settles O38: RESET reads the mark first, and no step clears a mark. -/
theorem resetIsTheFirstEventOnly : Obligations.ResetIsTheFirstEventOnly := by
  refine ⟨fun s h => ?_, fun s h => ?_, fun s t hstep => ?_⟩
  · rw [exec_reset_replica, if_pos h]
  · rw [exec_reset_master, if_pos h]
  · obtain ⟨hr, hm⟩ := step_moved hstep
    exact ⟨fun h => (hr.started h).1, fun h => (hm.started h).1⟩

/-! Edits (R101, R122). -/

/-- What consumes an EDIT event is an M_EDIT with its field id and code, of MASTER.EDIT. -/
theorem edit_of_event {i : Instr} {fid : BitVec 4} {v : Byte} (h : i.event = some (.edit fid v)) :
    (i = editInstr fid v ∨ i = .mEditUnknownFid fid v) ∧ i.port = some .edit := by
  cases i with
  | mEditUnknownFid => cases h; exact ⟨.inr rfl, rfl⟩
  | _ => cases h <;> exact ⟨.inl rfl, rfl⟩

/-- In a started run `m_pending` moves only by the EDIT word that heads the EDIT port and leaves it. -/
theorem masterChange_pending {m m' : Master} (h : MasterChange m m') (hstarted : m.started = true)
    (hne : m'.pending ≠ m.pending) :
    ∃ fid v, m.editPort = Claims.editWord fid v :: m'.editPort ∧ fid.toNat ≤ 8 := by
  cases h with
  | stepped i p m' hport heffect =>
    obtain hsame | ⟨fid, v, fld, hevent, hfld, -, -⟩ := masterEffect_pending heffect
    · exact absurd hsame hne
    · obtain ⟨hother, -⟩ | ⟨w, hw, hdecode⟩ := hport
      · exact absurd (edit_of_event hevent).2 hother
      · obtain ⟨e, he, rfl⟩ := encode_eq_event.mp (encodeDecodeGivesTheWordBack .edit w i hdecode).2
        cases hevent.symm.trans he
        have hfid : ¬ 9 ≤ fid.toNat := fun h => by simp [EditField.ofFid_eq_none.mpr h] at hfld
        have hp : m'.editPort = p := (masterEffect_kept heffect).editPort
        exact ⟨fid, v, by rw [hw, encodeEvent_edit, hp], by omega⟩
  | reset _ _ hnot => simp [hstarted] at hnot
  | same => exact absurd rfl hne
  | arrived => exact absurd rfl hne
  | ticked => exact absurd rfl hne
  | offered => exact absurd rfl hne
  | configured => exact absurd rfl hne

/-- Settles O55: the three queues by what a step makes of them, `m_pending` by the word that the EDIT port lost. -/
theorem fifosLoseOnlyTheirHead : Obligations.FifosLoseOnlyTheirHead := by
  intro s t hstep
  obtain ⟨hr, hm⟩ := step_moved hstep
  exact ⟨or_assoc.mp hr.fifo, or_assoc.mp hm.fifo, or_assoc.mp hm.editPort,
    masterChange_pending (step_changes hstep).2⟩

/-! Which engine an instruction touches (R23, R57). -/

/-- Settles O53, by the cases of what an instruction can do. -/
theorem instructionsLeaveTheOtherEngine : Obligations.InstructionsLeaveTheOtherEngine := by
  intro i s t hexec
  obtain ⟨hcall, -, c, rfl⟩ | ⟨hi, -, r, rfl, -⟩ | ⟨hi, -, m, rfl, -⟩ | ⟨rfl, rfl | ⟨-, -, rfl⟩⟩ |
    ⟨rfl, rfl | ⟨-, -, rfl⟩⟩ := exec_eq_next hexec
  · exact ⟨fun _ => rfl, fun _ => rfl, fun h => by simp [hcall] at h, rfl⟩
  · exact ⟨fun h => absurd hi h, fun _ => rfl, fun _ => rfl, rfl⟩
  · exact ⟨fun _ => rfl, fun h => absurd hi h, fun _ => rfl, rfl⟩
  · exact ⟨fun _ => rfl, fun _ => rfl, fun _ => rfl, rfl⟩
  · exact ⟨fun h => absurd rfl h, fun _ => rfl, fun _ => rfl, rfl⟩
  · exact ⟨fun _ => rfl, fun _ => rfl, fun _ => rfl, rfl⟩
  · exact ⟨fun _ => rfl, fun h => absurd rfl h, fun _ => rfl, rfl⟩

/-- Settles O54: only an instruction of MASTER moves its banks, and of those M_TICK, the M_EDITs and RESET. -/
theorem onlyTickAndEditWriteTheBanks : Obligations.OnlyTickAndEditWriteTheBanks := by
  intro i s t hexec
  obtain ⟨-, -, c, rfl⟩ | ⟨-, -, r, rfl, -⟩ | ⟨-, -, m, rfl, heffect⟩ | ⟨rfl, rfl | ⟨-, -, rfl⟩⟩ | ⟨rfl, -⟩ :=
    exec_eq_next hexec
  · exact ⟨absurd rfl, absurd rfl⟩
  · exact ⟨absurd rfl, absurd rfl⟩
  · refine ⟨fun h => ?_, fun h => ?_⟩
    · exact .inl ((masterEffect_lastSent heffect).resolve_left h).1
    · obtain ⟨fid, v, fld, hevent, -⟩ := (masterEffect_pending heffect).resolve_left h
      exact .inl ⟨fid, v, (edit_of_event hevent).1⟩
  · exact ⟨absurd rfl, absurd rfl⟩
  · exact ⟨absurd rfl, absurd rfl⟩
  · exact ⟨fun _ => .inr rfl, fun _ => .inr rfl⟩

/-! Halts and faults (R90, R95; log entry 17). -/

theorem replicaOutcome_eq_fault {s : State} {x : Except Fault Replica} {f : Fault} :
    s.replicaOutcome x = .fault f ↔ x = .error f := by
  cases x <;> simp

theorem replica_echoByte_eq_error {r : Replica} {b : Byte} {f : Fault} :
    r.echoByte b = .error f ↔ ∃ rest, r.phase = .echo ∧ r.rxFifo = b :: rest ∧ r.echo.length = 5 ∧ r.reply = none ∧
      f = .echoWithoutReply := by
  constructor
  · intro h
    obtain hheld | ⟨rest, hphase, hfifo, htaken⟩ := Replica.echoByte_cases b r
    · cases hheld.symm.trans h
    · rw [htaken] at h
      exact ⟨rest, hphase, hfifo, (Replica.collectEcho_eq_error.mp h :)⟩
  · rintro ⟨rest, hphase, hfifo, herror⟩
    rw [Replica.echoByte_enabled hphase hfifo]
    exact Replica.collectEcho_eq_error.mpr herror

/-- Only R_PROCESS and R_ECHO_BYTE can fault. -/
theorem instr_of_exec_fault {i : Instr} {s : State} {f : Fault} (h : exec i s = .fault f) :
    i = .rProcess ∨ ∃ b, i = .rEchoByte b := by
  cases i with
  | rProcess => exact .inl rfl
  | rEchoByte b => exact .inr ⟨b, rfl⟩
  | reset e =>
    cases e with
    | replica => rw [exec_reset_replica] at h; split_ifs at h
    | master => rw [exec_reset_master] at h; split_ifs at h
  | mEditUnknownFid fid v => rw [exec_mEditUnknownFid, exec_editInstr] at h; cases h
  | _ => cases h

theorem exec_eq_fault {i : Instr} {s : State} {f : Fault} :
    exec i s = .fault f ↔
      (i = .rProcess ∧ s.replica.phase = .process ∧ s.replica.frame = none ∧ f = .processWithoutFrame) ∨
      (∃ b rest, i = .rEchoByte b ∧ s.replica.phase = .echo ∧ s.replica.rxFifo = b :: rest ∧
        s.replica.echo.length = 5 ∧ s.replica.reply = none ∧ f = .echoWithoutReply) := by
  constructor
  · intro h
    obtain rfl | ⟨b, rfl⟩ := instr_of_exec_fault h
    · exact .inl ⟨rfl, Replica.process_eq_error.mp (replicaOutcome_eq_fault.mp h)⟩
    · obtain ⟨rest, h⟩ := replica_echoByte_eq_error.mp (replicaOutcome_eq_fault.mp h)
      exact .inr ⟨b, rest, rfl, h⟩
  · rintro (⟨rfl, h⟩ | ⟨b, rest, rfl, h⟩)
    · exact replicaOutcome_eq_fault.mpr (Replica.process_eq_error.mpr h)
    · exact replicaOutcome_eq_fault.mpr (replica_echoByte_eq_error.mpr ⟨rest, h⟩)

/-- A step faults only where an instruction does, on the REPLICA that the step found. -/
theorem exec_fault_of_step_fault {s : State} {f : Fault} (h : step s = .fault f) :
    ∃ i u, exec i u = .fault f ∧ u.replica = s.replica := by
  cases hinputs : s.inputs with
  | nil => rw [step_nil hinputs] at h; cases h
  | cons inp rest =>
    rw [step_cons hinputs] at h
    cases hfetch : fetch inp { s with inputs := rest } with
    | quiet u => rw [hfetch] at h; cases h
    | refused r => rw [hfetch] at h; cases h
    | run i u =>
      rw [hfetch] at h
      cases hexec : exec i u with
      | next t => simp [runFetched, hexec, afterInstr] at h
      | refused r => simp [runFetched, hexec, afterInstr] at h
      | fault g =>
        obtain rfl : g = f := by simpa [runFetched, hexec, afterInstr] using h
        exact ⟨i, u, hexec, by obtain rfl | rfl := fetch_eq_run_state hfetch <;> rfl⟩

theorem step_ne_fault {s : State} (hinv : s.replica.Inv) (f : Fault) : step s ≠ .fault f := by
  intro h
  obtain ⟨i, u, hexec, hu⟩ := exec_fault_of_step_fault h
  obtain ⟨-, hphase, hframe, -⟩ | ⟨b, rest, -, hphase, -, -, hreply, -⟩ := exec_eq_fault.mp hexec
  · rw [hu] at hphase hframe
    simp [replica_inv_of_process hphase, hframe] at hinv
  · rw [hu] at hphase hreply
    simp [replica_inv_of_echo hphase, hreply] at hinv

/-- Under R33 the intake buffer has room, so no step of REPLICA halts it. -/
theorem replicaEffect_not_halted {r r' : Replica} (h : ReplicaEffect r r') (hinv : r.Inv) (hnot : r.phase ≠ .halted) :
    r'.phase ≠ .halted := by
  cases h with
  | held => exact hnot
  | byteIn b rest =>
    obtain ⟨f, -, h⟩ | ⟨-, h⟩ := Replica.collect_cases b { r with rxFifo := rest } <;> rw [h]
    · simp
    · exact hnot
  | resync => exact hnot
  | halt hphase hover =>
    have hroom := ((replica_inv_of_intake hphase).mp hinv).1
    omega
  | processed f =>
    obtain ⟨evt, last, q, -, h⟩ | ⟨e, h⟩ := replica_processFrame_results f r <;> rw [h] <;> simp
  | echoIn b rest r' _ _ h =>
    obtain ⟨-, rfl⟩ | ⟨got, sent, -, -, rfl⟩ := Replica.collectEcho_eq_ok.mp h
    · exact hnot
    · rw [Replica.checkEcho_eq]; simp

theorem replicaChange_not_halted {r r' : Replica} (h : ReplicaChange r r') (hinv : r.Inv) (hnot : r.phase ≠ .halted) :
    r'.phase ≠ .halted := by
  cases h with
  | stepped r' heffect => exact (replicaEffect_not_halted heffect hinv hnot : r'.phase ≠ .halted)
  | reset => simp [Replica.doReset, Replica.reset]
  | same => exact hnot
  | arrived => exact hnot
  | configured => exact hnot

/-- Settles O50: the halt needs an overflowed buffer, and each fault a phase without its frame; R33 excludes all
three. -/
theorem invariantStatesNeverHaltOrFault : Obligations.InvariantStatesNeverHaltOrFault :=
  ⟨fun _ hinv hfree => ⟨fun _ hstep => replicaChange_not_halted (step_changes hstep).1 hinv.1 hfree,
    step_ne_fault hinv.1⟩, fun _ _ _ => exec_eq_fault⟩

end Sys2Proof.Proofs
end

section
/-!
The timing parameters (R7, R8; family other): every operation commutes with latching other values of them.
-/

namespace Sys2Proof.Proofs

open Sys2Proof.Machine

/-- A REPLICA with another RX_TIMEOUT_T latched. -/
def retimeReplica (x : Seconds) (r : Replica) : Replica := { r with params := { r.params with rxTimeoutT := x } }

/-- A MASTER with other PERIOD_N and RX_TIMEOUT_T latched. -/
def retimeMaster (n x : Seconds) (m : Master) : Master :=
  { m with params := { m.params with periodN := n, rxTimeoutT := x } }

section
variable (x n : Seconds) (r : Replica) (m : Master) (b : Byte)

theorem replica_collect_retime : (retimeReplica x r).collect b = retimeReplica x (r.collect b) := by
  unfold Replica.collect
  cases h : Frame.ofBytes? (r.buf ++ [b]) <;> simp only [retimeReplica, h]

theorem replica_rxTake_retime : (retimeReplica x r).rxTake b = (r.rxTake b).map (retimeReplica x) := by
  unfold Replica.rxTake
  cases h : takeHead b r.rxFifo <;> simp [retimeReplica, h]

theorem replica_rxByte_retime : (retimeReplica x r).rxByte b = retimeReplica x (r.rxByte b) := by
  unfold Replica.rxByte
  rw [replica_rxTake_retime, apply_ite (retimeReplica x)]
  cases r.rxTake b with
  | none => rfl
  | some r' => simp only [Option.map_some, replica_collect_retime]; rfl

theorem replica_rxTimeout_retime : (retimeReplica x r).rxTimeout = retimeReplica x r.rxTimeout := by
  unfold Replica.rxTimeout
  rw [apply_ite (retimeReplica x)]
  rfl

theorem replica_overflow_retime : (retimeReplica x r).overflow = retimeReplica x r.overflow := by
  unfold Replica.overflow
  rw [apply_ite (retimeReplica x)]
  rfl

theorem replica_observe_retime (d : DecodedFrame) :
    (retimeReplica x r).observe d = retimeReplica x (r.observe d) := by
  rw [Replica.observe_eq, Replica.observe_eq]
  rfl

/-- The reply is selected by the two other parameters (R91). -/
theorem replica_processFrame_retime (f : Frame) :
    (retimeReplica x r).processFrame f = retimeReplica x (r.processFrame f) := by
  unfold Replica.processFrame
  cases Codec.decodeFrame f with
  | ok d => simp only [replica_observe_retime]; rfl
  | checksumMismatch e k =>
    simp only [apply_ite (retimeReplica x)]
    rfl

theorem replica_process_retime : (retimeReplica x r).process = r.process.map (retimeReplica x) := by
  have hframe : (retimeReplica x r).frame = r.frame := rfl
  unfold Replica.process
  rw [hframe, apply_ite (Except.map (retimeReplica x))]
  cases r.frame with
  | none => rfl
  | some f => simp only [replica_processFrame_retime]; rfl

theorem replica_collectEcho_retime :
    (retimeReplica x r).collectEcho b = (r.collectEcho b).map (retimeReplica x) := by
  have hecho : (retimeReplica x r).echo = r.echo := rfl
  have hreply : (retimeReplica x r).reply = r.reply := rfl
  unfold Replica.collectEcho
  rw [hecho, hreply]
  cases Frame.ofBytes? (r.echo ++ [b]) with
  | none => rfl
  | some got =>
    cases r.reply with
    | none => rfl
    | some sent => simp only [Replica.checkEcho_eq]; rfl

theorem replica_echoByte_retime : (retimeReplica x r).echoByte b = (r.echoByte b).map (retimeReplica x) := by
  unfold Replica.echoByte
  rw [replica_rxTake_retime, apply_ite (Except.map (retimeReplica x))]
  cases r.rxTake b with
  | none => rfl
  | some r' => simp only [Option.map_some, replica_collectEcho_retime]; rfl

theorem master_fire_retime : (retimeMaster n x m).fire = retimeMaster n x m.fire := by
  have hframe : (retimeMaster n x m).tickFrame = m.tickFrame := rfl
  unfold Master.fire
  rw [hframe]
  cases m.tickFrame with
  | fieldOutOfRange fld => rfl
  | ok f => simp only [Master.commit_eq]; rfl

theorem master_tick_retime : (retimeMaster n x m).tick = retimeMaster n x m.tick := by
  unfold Master.tick
  rw [master_fire_retime, apply_ite (retimeMaster n x)]
  rfl

theorem master_rxTake_retime : (retimeMaster n x m).rxTake b = (m.rxTake b).map (retimeMaster n x) := by
  unfold Master.rxTake
  cases h : takeHead b m.rxFifo <;> simp [retimeMaster, h]

theorem master_collect_retime : (retimeMaster n x m).collect b = retimeMaster n x (m.collect b) := by
  unfold Master.collect
  rw [apply_ite (retimeMaster n x)]
  rfl

theorem master_respByte_retime : (retimeMaster n x m).respByte b = retimeMaster n x (m.respByte b) := by
  unfold Master.respByte
  rw [master_rxTake_retime, apply_ite (retimeMaster n x)]
  cases m.rxTake b with
  | none => rfl
  | some m' => simp only [Option.map_some, master_collect_retime]; rfl

theorem master_respTimeout_retime : (retimeMaster n x m).respTimeout = retimeMaster n x m.respTimeout := by
  unfold Master.respTimeout
  rw [apply_ite (retimeMaster n x)]
  rfl

theorem master_edit_retime (fld : EditField) (v : Byte) :
    (retimeMaster n x m).edit fld v = retimeMaster n x (m.edit fld v) := by
  unfold Master.edit
  rw [apply_ite (retimeMaster n x)]
  rfl

end

/-! An instruction commutes with the change of the timing parameters where what it runs on its engine does. -/

section
variable {i : Instr} (x n y : Seconds) (s : State)

theorem exec_retime_of_replica {op : Replica → Replica} (hexec : ∀ s, exec i s = .next (s.setReplica (op s.replica)))
    (hop : op (retimeReplica x s.replica) = retimeReplica x (op s.replica)) :
    exec i (Claims.retime x n y s) = Claims.mapNext (Claims.retime x n y) (exec i s) := by
  have hreplica : (Claims.retime x n y s).replica = retimeReplica x s.replica := rfl
  rw [hexec, hexec, hreplica, hop]
  rfl

theorem exec_retime_of_outcome {op : Replica → Except Fault Replica}
    (hexec : ∀ s, exec i s = s.replicaOutcome (op s.replica))
    (hop : op (retimeReplica x s.replica) = (op s.replica).map (retimeReplica x)) :
    exec i (Claims.retime x n y s) = Claims.mapNext (Claims.retime x n y) (exec i s) := by
  have hreplica : (Claims.retime x n y s).replica = retimeReplica x s.replica := rfl
  rw [hexec, hexec, hreplica, hop]
  cases op s.replica <;> rfl

theorem exec_retime_of_master {op : Master → Master} (hexec : ∀ s, exec i s = .next (s.setMaster (op s.master)))
    (hop : op (retimeMaster n y s.master) = retimeMaster n y (op s.master)) :
    exec i (Claims.retime x n y s) = Claims.mapNext (Claims.retime x n y) (exec i s) := by
  have hmaster : (Claims.retime x n y s).master = retimeMaster n y s.master := rfl
  rw [hexec, hexec, hmaster, hop]
  rfl

theorem exec_retime_of_edit {fld : EditField} {v : Byte}
    (hexec : ∀ s, exec i s = .next (s.setMaster (s.master.edit fld v))) :
    exec i (Claims.retime x n y s) = Claims.mapNext (Claims.retime x n y) (exec i s) :=
  exec_retime_of_master x n y s hexec (master_edit_retime y n s.master fld v)

end

/-- Settles O57: what each instruction runs on its engine commutes with the change of the timing parameters. -/
theorem timingParametersHaveNoEffect : Obligations.TimingParametersHaveNoEffect := by
  intro i s x n y hreset
  cases i with
  | reset e => exact absurd rfl (hreset e)
  | rRxByte b => exact exec_retime_of_replica x n y s (exec_rRxByte · b) (replica_rxByte_retime x s.replica b)
  | rRxTimeout => exact exec_retime_of_replica x n y s exec_rRxTimeout (replica_rxTimeout_retime x s.replica)
  | intakeOverflow => exact exec_retime_of_replica x n y s exec_intakeOverflow (replica_overflow_retime x s.replica)
  | rProcess => exact exec_retime_of_outcome x n y s exec_rProcess (replica_process_retime x s.replica)
  | rEchoByte b => exact exec_retime_of_outcome x n y s (exec_rEchoByte · b) (replica_echoByte_retime x s.replica b)
  | rEchoTimeout => rfl
  | mTick => exact exec_retime_of_master x n y s exec_mTick (master_tick_retime y n s.master)
  | mRespByte b => exact exec_retime_of_master x n y s (exec_mRespByte · b) (master_respByte_retime y n s.master b)
  | mRespTimeout => exact exec_retime_of_master x n y s exec_mRespTimeout (master_respTimeout_retime y n s.master)
  | mEditMode v => exact exec_retime_of_edit x n y s (exec_mEditMode · v)
  | mEditResistorHeating v => exact exec_retime_of_edit x n y s (exec_mEditResistorHeating · v)
  | mEditRunning v => exact exec_retime_of_edit x n y s (exec_mEditRunning · v)
  | mEditRoomTemperature v => exact exec_retime_of_edit x n y s (exec_mEditRoomTemperature · v)
  | mEditPlasma v => exact exec_retime_of_edit x n y s (exec_mEditPlasma · v)
  | mEditFanSpeed v => exact exec_retime_of_edit x n y s (exec_mEditFanSpeed · v)
  | mEditSetTemperature v => exact exec_retime_of_edit x n y s (exec_mEditSetTemperature · v)
  | mEditSwivel v => exact exec_retime_of_edit x n y s (exec_mEditSwivel · v)
  | mEditSwirl v => exact exec_retime_of_edit x n y s (exec_mEditSwirl · v)
  | mEditUnknownFid fid v =>
    cases hfid : EditField.ofFid fid with
    | none =>
      exact exec_retime_of_master x n y s (op := Master.rejectEdit .unknownAttribute)
        (fun s => by rw [exec_mEditUnknownFid, exec_editInstr, hfid]) rfl
    | some fld => exact exec_retime_of_edit x n y s fun s => by rw [exec_mEditUnknownFid, exec_editInstr, hfid]
  | mEditRejectNoEquals => exact exec_retime_of_master x n y s exec_mEditRejectNoEquals rfl
  | mEditRejectUnknownAttribute => exact exec_retime_of_master x n y s exec_mEditRejectUnknownAttribute rfl
  | mEditRejectBadValue => exact exec_retime_of_master x n y s exec_mEditRejectBadValue rfl
  | _ => rfl

end Sys2Proof.Proofs
end

section
/-!
CODEC and the reply table, the derived statements (family other): the round trip through ENCODE and DECODE, what the
checksum catches, and the three frames of the source's table.
-/

namespace Sys2Proof.Proofs

open Sys2Proof.Codec Sys2Proof.Machine

/-! The round trip (R85). -/

/-- Every field of the record is a value that ENCODE takes (R77). -/
structure InRange (f : Fields) : Prop where
  config : f.config ≤ 1
  mode : f.mode ≤ 4
  resistorHeating : f.resistorHeating ≤ 1
  running : f.running ≤ 1
  changed : f.changed ≤ 1
  rawRoomTemperature : f.rawRoomTemperature ≤ 255
  plasma : f.plasma ≤ 1
  fanSpeed : f.fanSpeed ∈ [0, 1, 2, 4]
  rawSetTemperature : f.rawSetTemperature ≤ 15
  swivel : f.swivel ≤ 1
  swirl : f.swirl ≤ 1

theorem firstIllegal_eq_none_iff_inRange {f : Fields} : firstIllegal f = none ↔ InRange f := by
  rw [firstIllegal_eq_none]
  constructor
  · intro h
    have bound : ∀ {n k : Nat}, decide (n ≤ k) = true → n ≤ k := of_decide_eq_true
    exact ⟨bound (h .config (by decide)), bound (h .mode (by decide)), bound (h .resistorHeating (by decide)),
      bound (h .running (by decide)), bound (h .changed (by decide)), bound (h .rawRoomTemperature (by decide)),
      bound (h .plasma (by decide)), (legalFan_iff _).mp (h .fanSpeed (by decide)),
      bound (h .rawSetTemperature (by decide)), bound (h .swivel (by decide)), bound (h .swirl (by decide))⟩
  · intro h fld _
    cases fld with
    | fanSpeed => exact (legalFan_iff _).mpr h.fanSpeed
    | config => exact decide_eq_true h.config
    | mode => exact decide_eq_true h.mode
    | resistorHeating => exact decide_eq_true h.resistorHeating
    | running => exact decide_eq_true h.running
    | changed => exact decide_eq_true h.changed
    | rawRoomTemperature => exact decide_eq_true h.rawRoomTemperature
    | plasma => exact decide_eq_true h.plasma
    | rawSetTemperature => exact decide_eq_true h.rawSetTemperature
    | swivel => exact decide_eq_true h.swivel
    | swirl => exact decide_eq_true h.swirl

/-- ENCODE takes exactly the records in range, and answers their layout with its checksum (R77). -/
theorem encode_eq_ok_iff_inRange {f : Fields} {fr : Frame} :
    Codec.encode f = .ok fr ↔ InRange f ∧ fr = Claims.sealed (Claims.layout f) := by
  rw [encode_eq_ok, firstIllegal_eq_none_iff_inRange, withChecksum_eq_sealed]
  refine and_congr_right fun h => ?_
  rw [packFields_eq_layout h.config h.mode h.resistorHeating h.running h.changed h.plasma h.fanSpeed
    h.rawSetTemperature]

/-- A payload followed by its checksum decodes to the payload's fields (R78). -/
theorem decode_sealed (p : Payload) :
    Codec.decode (Claims.sealed p).toBytes = .ok (unpack p.word (Claims.check p)) := by
  rw [decode_toBytes, Claims.sealed, checksum_eq_check, if_pos rfl]

theorem bitVec_eq_zero_of_toNat {n : Nat} {x : BitVec n} (h : x.toNat = 0) : x = 0#n :=
  BitVec.eq_of_toNat_eq (by simpa using h)

/-- The bytes of the layout of a record in range, as numbers. -/
theorem layout_toNat {f : Fields} (h : InRange f) :
    (Claims.layout f).b0.toNat =
      128 * f.config + 16 * f.mode + 8 * f.resistorHeating + 4 * f.running + f.changed ∧
    (Claims.layout f).b1.toNat = f.rawRoomTemperature ∧
    (Claims.layout f).b2.toNat = 128 * f.plasma + 16 * f.fanSpeed + f.rawSetTemperature ∧
    (Claims.layout f).b3.toNat = 32 * f.swivel ∧ (Claims.layout f).b4.toNat = f.swirl := by
  obtain ⟨hconfig, hmode, hheating, hrunning, hchanged, hroom, hplasma, hfan, hset, hswivel, hswirl⟩ := h
  have hfan4 : f.fanSpeed ≤ 4 := by simp at hfan; omega
  simp only [Claims.layout, BitVec.toNat_ofNat]
  refine ⟨?_, ?_, ?_, ?_, ?_⟩ <;> apply Nat.mod_eq_of_lt <;> omega

/-- The fields of a record in range do not overlap in its layout: each is read back at its bit positions (R59). -/
theorem layout_slices {f : Fields} (h : InRange f) :
    let p := Claims.layout f
    (p.b0.toNat / 128 = f.config ∧ p.b0.toNat / 16 % 8 = f.mode ∧ p.b0.toNat / 8 % 2 = f.resistorHeating ∧
      p.b0.toNat / 4 % 2 = f.running ∧ p.b0.toNat / 2 % 2 = 0 ∧ p.b0.toNat % 2 = f.changed) ∧
    p.b1.toNat = f.rawRoomTemperature ∧
    (p.b2.toNat / 128 = f.plasma ∧ p.b2.toNat / 16 % 8 = f.fanSpeed ∧ p.b2.toNat % 16 = f.rawSetTemperature) ∧
    (p.b3.toNat / 64 = 0 ∧ p.b3.toNat / 32 % 2 = f.swivel ∧ p.b3.toNat % 32 = 0) ∧
    p.b4.toNat / 2 = 0 ∧ p.b4.toNat % 2 = f.swirl := by
  obtain ⟨hb0, hb1, hb2, hb3, hb4⟩ := layout_toNat h
  obtain ⟨hconfig, hmode, hheating, hrunning, hchanged, hroom, hplasma, hfan, hset, hswivel, hswirl⟩ := h
  have hfan4 : f.fanSpeed ≤ 4 := by simp at hfan; omega
  dsimp only
  rw [hb0, hb1, hb2, hb3, hb4]
  refine ⟨?_, rfl, ?_, ?_, ?_⟩ <;> omega

/-- Settles O4: each decoded field is a slice of the bytes of the record's layout, where the field is read back. -/
theorem decodeGivesBackWhatEncodePacked : Obligations.DecodeGivesBackWhatEncodePacked := by
  refine ⟨fun f fr henc => ?_, fun b => ⟨_, decode_eq_ok.mpr ⟨b, rfl, rfl⟩⟩⟩
  obtain ⟨hrange, rfl⟩ := encode_eq_ok_iff_inRange.mp henc
  obtain ⟨⟨hconfig, hmode, hheating, hrunning, hunknown1, hchanged⟩, hroom, ⟨hplasma, hfan, hset⟩,
    ⟨hunknown3, hswivel, hunknown4⟩, hunknown5, hswirl⟩ := layout_slices hrange
  obtain ⟨-, dconfig, dmode, -, dheating, drunning, dunknown1, dchanged, droom, -, dplasma, dfan, -, dset, -,
    dunknown3, dswivel, dunknown4, dunknown5, dswirl, -⟩ := fieldsOf_unpack (Claims.sealed (Claims.layout f))
  exact ⟨_, decode_sealed _, dconfig.trans hconfig, dmode.trans hmode, dheating.trans hheating,
    drunning.trans hrunning, dchanged.trans hchanged, droom.trans hroom, dplasma.trans hplasma, dfan.trans hfan,
    dset.trans hset, dswivel.trans hswivel, dswirl.trans hswirl,
    bitVec_eq_zero_of_toNat (dunknown1.trans hunknown1), bitVec_eq_zero_of_toNat (dunknown3.trans hunknown3),
    bitVec_eq_zero_of_toNat (dunknown4.trans hunknown4), bitVec_eq_zero_of_toNat (dunknown5.trans hunknown5)⟩

/-! Error detection (R86). -/

/-- XOR with 0x55 and narrowing to a byte lose nothing: equal checksums are equal byte sums (R76). -/
theorem checksum_eq_iff {p q : Payload} :
    checksum q = checksum p ↔ q.b0 + q.b1 + q.b2 + q.b3 + q.b4 = p.b0 + p.b1 + p.b2 + p.b3 + p.b4 :=
  BitVec.xor_left_inj _

/-- A payload followed by any other byte than its checksum is a mismatch (R78). -/
theorem decode_of_checksum_ne {p : Payload} {k : Byte} (h : k ≠ checksum p) :
    Codec.decode (p.toBytes ++ [k]) = .checksumMismatch (checksum p) k ⟨p, k⟩ :=
  (decode_toBytes ⟨p, k⟩).trans (if_neg h.symm)

/-- A payload whose sum is another's decodes with the other's checksum (R78). -/
theorem decode_of_checksum_eq {p q : Payload} (h : checksum q = checksum p) :
    ∃ d, Codec.decode (q.toBytes ++ [checksum p]) = .ok d :=
  ⟨_, decode_eq_ok.mpr ⟨q, by rw [h], rfl⟩⟩

/-- The bytes of an XOR are the XORs of the bytes. -/
theorem ofWord_xor (d e : DataWord) : Payload.ofWord (d ^^^ e) =
    ⟨(Payload.ofWord d).b0 ^^^ (Payload.ofWord e).b0, (Payload.ofWord d).b1 ^^^ (Payload.ofWord e).b1,
      (Payload.ofWord d).b2 ^^^ (Payload.ofWord e).b2, (Payload.ofWord d).b3 ^^^ (Payload.ofWord e).b3,
      (Payload.ofWord d).b4 ^^^ (Payload.ofWord e).b4⟩ := by
  simp only [Payload.ofWord, BitVec.extractLsb'_xor]

/-- A single bit of a data word lies in exactly one byte. -/
theorem ofWord_bit : ∀ n < 40, ∃ m : Byte, m ≠ 0#8 ∧ Payload.ofWord (1#40 <<< n) ∈
    [⟨m, 0#8, 0#8, 0#8, 0#8⟩, ⟨0#8, m, 0#8, 0#8, 0#8⟩, ⟨0#8, 0#8, m, 0#8, 0#8⟩, ⟨0#8, 0#8, 0#8, m, 0#8⟩,
      (⟨0#8, 0#8, 0#8, 0#8, m⟩ : Payload)] := by
  intro n hn
  refine ⟨1#8 <<< (n % 8), ?_⟩
  revert n; decide

/-- A flipped bit changes one byte only, so the sum and the checksum change (R86). -/
theorem checksum_ne_of_flip {p q : Payload} {n : Nat} (hn : n < 40) (hq : q.word = p.word ^^^ (1#40 <<< n)) :
    checksum q ≠ checksum p := by
  obtain ⟨m, hm, hbit⟩ := ofWord_bit n hn
  have hbytes := ofWord_xor p.word (1#40 <<< n)
  rw [← hq, Payload.ofWord_word, Payload.ofWord_word] at hbytes
  rw [Ne, checksum_eq_iff, hbytes]
  simp only [List.mem_cons, List.not_mem_nil, or_false] at hbit
  obtain h | h | h | h | h := hbit <;> rw [h] <;> simp [add_assoc, hm]

/-- Settles O5: the three items, by what makes two checksums equal. -/
theorem checksumCatchesSingleErrorsOnly : Obligations.ChecksumCatchesSingleErrorsOnly := by
  refine fun p => ⟨fun k => decode_of_checksum_ne, fun n hn q hq => ?_, fun q hsum => decode_of_checksum_eq ?_⟩
  · have hne := checksum_ne_of_flip hn hq
    exact ⟨hne, decode_of_checksum_ne hne.symm⟩
  · apply BitVec.eq_of_toNat_eq
    rw [checksum_toNat, checksum_toNat, hsum]

/-- Settles O6: a decoded frame is a function of its payload, which its data word determines (R87). -/
theorem decodedFramesEqualIffDataWordsEqual : Obligations.DecodedFramesEqualIffDataWordsEqual := by
  intro x y d e hd he
  obtain ⟨p, -, rfl⟩ := decode_eq_ok.mp hd
  obtain ⟨q, -, rfl⟩ := decode_eq_ok.mp he
  refine ⟨congrArg DecodedFrame.data, fun h => ?_⟩
  rw [Payload.word_injective (p := p) (q := q) h]

/-! The source's reply table (R67, R68). -/

/-- The one row before the last matches the poll payload and no other: its mask keeps every bit. -/
theorem sourceRow_isMatch {x : Payload} :
    ReplyRow.isMatch ⟨0x9400000000#40, 0xFFFFFFFFFF#40, .primary⟩ x.word = true ↔ x = Claims.poll := by
  have hmask : (0xFFFFFFFFFF#40) = BitVec.allOnes 40 := by decide
  rw [ReplyRow.isMatch_iff, hmask, BitVec.and_allOnes, BitVec.and_allOnes]
  exact word_eq_pollWord

theorem sourceTable_select (x : Payload) :
    Claims.sourceTable.select x.word = if x = Claims.poll then .primary else .literal 0x8826000000#40 := by
  obtain rfl | h := eq_or_ne x Claims.poll
  · simp [ReplyTable.select, Claims.sourceTable, sourceRow_isMatch.mpr rfl]
  · have hrow := mt sourceRow_isMatch.mp h
    simp [ReplyTable.select, Claims.sourceTable, hrow, h]

/-- R_PROCESS transmits the selected reply with its checksum, for a frame with a right checksum (R92). -/
theorem processFrame_tx {r : Replica} {f : Frame} (h : f.checksum = Claims.check f.payload) :
    (r.processFrame f).tx = r.tx ++ [Claims.sealed (selectReply r.params f.payload)] := by
  rw [replica_processFrame_of_checksum_eq h, replica_sendReply_eq, Replica.observe_eq]

/-- Settles O16: the reply is the row's that the payload selects, and each of the three replies has its checksum. -/
theorem sourceTableRepliesAreTheThreeFrames : Obligations.SourceTableRepliesAreTheThreeFrames := by
  intro s f hphase hframe hsum htable
  refine ⟨_, exec_rProcess_of_frame hphase hframe, ?_⟩
  rw [State.setReplica_replica, processFrame_tx hsum, selectReply_eq_replyBytes, htable, sourceTable_select]
  by_cases hpoll : f.payload = Claims.poll
  · rw [if_pos hpoll, if_pos hpoll]
    cases s.replica.params.replyEByte <;> rfl
  · have hreply : Claims.sealed (Payload.ofWord 0x8826000000#40) = ⟨⟨0x88#8, 0x26#8, 0#8, 0#8, 0#8⟩, 0xFB#8⟩ := by
      decide
    rw [if_neg hpoll, if_neg hpoll, ← hreply]
    rfl

end Sys2Proof.Proofs
end

section
/-!
REPLICA, the derived statements (family other): what its turn fetches in each phase, which words wait or are refused,
that a step which is not enabled changes nothing, and that HALTED is not left.
-/

namespace Sys2Proof.Proofs

open Sys2Proof.Machine

/-! The enabling table (R96). -/

theorem replica_eventWord_of_intake {r : Replica} (hphase : r.phase = .intake) :
    r.eventWord? = some (encodeEvent (receiveEvent r.rxFifo)) := by
  rw [Replica.eventWord?, hphase]

theorem replica_eventWord_of_process {r : Replica} (hphase : r.phase = .process) :
    r.eventWord? = some (encodeEvent .step) := by
  rw [Replica.eventWord?, hphase]

/-- REPLICA has no event in HALTED, so its turn is quiet. -/
theorem fetch_turn_replica_of_halted {s : State} (hphase : s.replica.phase = .halted) :
    fetch (.turn .replica) s = .quiet s :=
  fetchTurn_of_no_word (by simp [hphase]) (by rw [State.eventWord?, Replica.eventWord?, hphase])

/-- The turn in INTAKE with room in the buffer: the step that the FIFO's receive event selects. -/
theorem fetch_turn_replica_of_intake {s : State} {i : Instr} (hphase : s.replica.phase = .intake)
    (hlen : s.replica.buf.length < 6) (hstep : replicaStep .intake (receiveEvent s.replica.rxFifo) = .instr i) :
    fetch (.turn .replica) s = .run i s :=
  fetch_turn_replica_of_event (fun _ => hlen) (replica_eventWord_of_intake hphase) (by rw [hphase, hstep])

/-- The turn in ECHO: the step that the FIFO's receive event selects. -/
theorem fetch_turn_replica_of_echo {s : State} {i : Instr} (hphase : s.replica.phase = .echo)
    (hstep : replicaStep .echo (receiveEvent s.replica.rxFifo) = .instr i) :
    fetch (.turn .replica) s = .run i s :=
  fetch_turn_replica_of_event (by simp [hphase]) (replica_eventWord_of_echo hphase) (by rw [hphase, hstep])

theorem fetch_turn_replica_of_process {s : State} (hphase : s.replica.phase = .process) :
    fetch (.turn .replica) s = .run .rProcess s :=
  fetch_turn_replica_of_event (by simp [hphase]) (replica_eventWord_of_process hphase) (by rw [hphase]; rfl)

theorem replicaStep_step_waits {ph : RPhase} (h : ph ≠ .process) : replicaStep ph .step = .waits := by
  cases ph with
  | process => exact absurd rfl h
  | _ => rfl

/-- In PROCESS and HALTED no receive event selects a step. -/
theorem replicaStep_receive_waits {ph : RPhase} (h : ph = .process ∨ ph = .halted) (fifo : List Byte) :
    replicaStep ph (receiveEvent fifo) = .waits := by
  obtain rfl | rfl := h <;> cases fifo <;> rfl

/-- Settles O20: the turns by the phase's event, the words by the event that each spells. -/
theorem replicaEnablingTable : Obligations.ReplicaEnablingTable := by
  refine fun s => ⟨fun b rest hphase hlen hfifo => fetch_turn_replica_of_intake hphase hlen (by rw [hfifo]; rfl),
    fun hphase hlen hfifo => fetch_turn_replica_of_intake hphase hlen (by rw [hfifo]; rfl),
    fetch_turn_replica_of_process,
    fun b rest hphase hfifo => fetch_turn_replica_of_echo hphase (by rw [hfifo]; rfl),
    fun hphase hfifo => fetch_turn_replica_of_echo hphase (by rw [hfifo]; rfl),
    fetch_turn_replica_of_halted, fun ph hph => ?_, fun ph b hph => ⟨?_, ?_⟩, fun ph => ?_, fun ph fid v => ?_,
    fun ph => ⟨?_, ?_, ?_⟩⟩
  · exact (decodeAt_stepWord _).trans (replicaStep_step_waits hph)
  · exact (decodeAt_rxWord _ b).trans (replicaStep_receive_waits hph [b])
  · exact (decodeAt_rxTimeoutWord _).trans (replicaStep_receive_waits hph [])
  · exact decodeAt_encodeEvent _ .tick
  · rw [← encodeEvent_edit]
    exact decodeAt_encodeEvent _ _
  · exact decodeAt_encodeEvent _ (.editReject .noEquals)
  · exact decodeAt_encodeEvent _ (.editReject .unknownAttribute)
  · exact decodeAt_encodeEvent _ (.editReject .badValue)

/-! Steps that are not enabled (log entries 3 and 24). -/

theorem replica_rxTimeout_held {r : Replica} (h : r.phase ≠ .intake ∨ r.rxFifo ≠ [] ∨ 6 ≤ r.buf.length) :
    r.rxTimeout = r := by
  refine if_neg ?_
  rintro ⟨hphase, hover, hfifo⟩
  obtain h | h | h := h
  · exact h hphase
  · exact h hfifo
  · exact (Replica.overflowed_eq_false.mp hover).not_ge h

theorem replica_overflow_held {r : Replica} (h : r.phase ≠ .intake ∨ r.buf.length < 6) : r.overflow = r := by
  refine if_neg ?_
  rintro ⟨hphase, hover⟩
  exact h.elim (· hphase) (·.not_ge (Replica.overflowed_eq_true.mp hover))

/-- Settles O21: where a step is not enabled its operation answers the same REPLICA. -/
theorem replicaEventsNotEnabledWait : Obligations.ReplicaEventsNotEnabledWait := by
  refine fun s b => ⟨fun h => ?_, fun h => ?_, fun h => ?_, fun h => ?_, fun h => ?_, fun _ => rfl⟩
  · rw [exec_rRxByte, Replica.rxByte_held, State.setReplica_self]
    rwa [Replica.overflowed_eq_true, or_comm (a := _ ≤ _)]
  · rw [exec_rRxTimeout, replica_rxTimeout_held h, State.setReplica_self]
  · rw [exec_intakeOverflow, replica_overflow_held h, State.setReplica_self]
  · rw [exec_rProcess, Replica.process_eq_ok.mpr (.inl ⟨h, rfl⟩), State.replicaOutcome_ok, State.setReplica_self]
  · rw [exec_rEchoByte, Replica.echoByte_held h, State.replicaOutcome_ok, State.setReplica_self]

/-! HALTED (R95). -/

/-- In HALTED no instruction of REPLICA but RESET is enabled. -/
theorem exec_of_halted {s : State} {i : Instr} (hphase : s.replica.phase = .halted)
    (hengine : i.engine = some .replica) (hreset : i ≠ .reset .replica) : exec i s = .next s := by
  have hne : ∀ ph, ph ≠ .halted → s.replica.phase ≠ ph := fun ph h => hphase ▸ h.symm
  have hintake : s.replica.phase ≠ .intake := hne _ nofun
  have wait := replicaEventsNotEnabledWait s
  cases i with
  | rRxByte b => obtain ⟨h, -⟩ := wait b; exact h (.inl hintake)
  | rRxTimeout => obtain ⟨-, h, -⟩ := wait 0#8; exact h (.inl hintake)
  | intakeOverflow => obtain ⟨-, -, h, -⟩ := wait 0#8; exact h (.inl hintake)
  | rProcess => obtain ⟨-, -, -, h, -⟩ := wait 0#8; exact h (hne _ nofun)
  | rEchoByte b => obtain ⟨-, -, -, -, h, -⟩ := wait b; exact h (.inl (hne _ nofun))
  | rEchoTimeout => rfl
  | reset e => cases hengine; exact absurd rfl hreset
  | _ => cases hengine

theorem replicaChange_of_halted {r r' : Replica} (h : ReplicaChange r r') (hphase : r.phase = .halted)
    (hstarted : r.started = true) :
    r'.phase = .halted ∧ r'.tx = r.tx ∧ r'.evt = r.evt ∧ r.rxFifo <+: r'.rxFifo := by
  cases h with
  | stepped r' heffect =>
    obtain rfl := replicaEffect_of_halted heffect hphase
    exact ⟨hphase, rfl, rfl, List.prefix_rfl⟩
  | reset hnot => simp [hstarted] at hnot
  | arrived b => exact ⟨hphase, rfl, rfl, List.prefix_append _ _⟩
  | same => exact ⟨hphase, rfl, rfl, List.prefix_rfl⟩
  | configured => exact ⟨hphase, rfl, rfl, List.prefix_rfl⟩

/-- Settles O19: no instruction of REPLICA is enabled in HALTED, and of a step's changes only the arrival of a byte is
left. -/
theorem haltedReplicaStaysHalted : Obligations.HaltedReplicaStaysHalted :=
  ⟨fun _ _ => exec_of_halted, fun _ _ hphase hstarted hstep =>
    replicaChange_of_halted (step_changes hstep).1 hphase hstarted⟩

end Sys2Proof.Proofs
end

section
/-!
MASTER, the derived statements (family other): what the turns of its two agents fetch, that a step which is not enabled
changes nothing, the changed bit, and what survives of several edits.
-/

namespace Sys2Proof.Proofs

open Sys2Proof.Machine

/-! The enabling table (R100). -/

/-- MASTER.TICK's turn runs the step that its enabled event selects in its phase. -/
theorem fetch_turn_masterTick_of_event {s : State} {e : Event} {i : Instr}
    (hword : s.master.tickWord? = some (encodeEvent e)) (hstep : tickStep s.master.phase e = .instr i) :
    fetch (.turn .masterTick) s = .run i s :=
  (fetchTurn_of_word (a := .masterTick) (by simp) hword).trans
    (fetchWord_eq_run.mpr ⟨(decodeAt_encodeEvent _ e).trans hstep, rfl⟩)

theorem fetch_turn_masterTick_of_idle {s : State} (hphase : s.master.phase = .idle)
    (htick : s.master.tickOffered = true) : fetch (.turn .masterTick) s = .run .mTick s :=
  fetch_turn_masterTick_of_event (by rw [Master.tickWord?, hphase]; exact if_pos htick) (by rw [hphase]; rfl)

/-- The turn in RESP: the step that the FIFO's receive event selects. -/
theorem fetch_turn_masterTick_of_resp {s : State} {i : Instr} (hphase : s.master.phase = .resp)
    (hstep : tickStep .resp (receiveEvent s.master.rxFifo) = .instr i) : fetch (.turn .masterTick) s = .run i s :=
  fetch_turn_masterTick_of_event (by rw [Master.tickWord?, hphase]) (by rw [hphase, hstep])

/-- In IDLE with no tick offered MASTER.TICK has no event. -/
theorem fetch_turn_masterTick_of_no_tick {s : State} (hphase : s.master.phase = .idle)
    (htick : s.master.tickOffered = false) : fetch (.turn .masterTick) s = .quiet s :=
  fetchTurn_of_no_word (by simp) (by rw [State.eventWord?, Master.tickWord?, hphase]; simp [htick])

theorem fetch_turn_masterEdit_eq_run {s : State} {w : EventWord} {ws : List EventWord} {i : Instr}
    (hport : s.master.editPort = w :: ws) (hdecode : decodeAt .edit w = .instr i) :
    fetch (.turn .masterEdit) s = .run i (s.setMaster { s.master with editPort := ws }) := by
  rw [fetch_turn_masterEdit hport]
  exact fetchWord_eq_run.mpr ⟨hdecode, by rw [State.handOver, hport]; rfl⟩

/-- A tick offered in RESP stays offered through every step. -/
theorem masterChange_tickOffered {m m' : Master} (h : MasterChange m m') (hphase : m.phase = .resp)
    (htick : m.tickOffered = true) : m'.tickOffered = true := by
  cases h with
  | stepped i p m' _ heffect => exact ((masterEffect_kept heffect).tick hphase).trans htick
  | ticked => rfl
  | same => exact htick
  | arrived => exact htick
  | offered => exact htick
  | configured => exact htick
  | reset => exact htick

/-- Settles O27: the turns by the agent's event, the words by the event that each spells, the tick by what a step makes
of MASTER. -/
theorem masterTickEnablingTable : Obligations.MasterTickEnablingTable := by
  refine fun s => ⟨fetch_turn_masterTick_of_idle, fetch_turn_masterTick_of_no_tick,
    fun b rest hphase hfifo => fetch_turn_masterTick_of_resp hphase (by rw [hfifo]; rfl),
    fun hphase hfifo => fetch_turn_masterTick_of_resp hphase (by rw [hfifo]; rfl),
    decodeAt_rxWord _, decodeAt_rxTimeoutWord _, decodeAt_encodeEvent _ .tick,
    fun t hphase htick hstep => masterChange_tickOffered (step_changes hstep).2 hphase htick,
    fun w ws i => fetch_turn_masterEdit_eq_run, fun ph => decodeAt_stepWord _, decodeAt_stepWord _⟩

/-! Steps that are not enabled (log entry 3). -/

theorem master_tick_held {m : Master} (h : m.phase ≠ .idle ∨ m.tickOffered = false) : m.tick = m := by
  refine if_neg ?_
  rintro ⟨hphase, htick⟩
  exact h.elim (· hphase) (by simp [htick])

theorem master_respTimeout_held {m : Master} (h : m.phase ≠ .resp ∨ m.rxFifo ≠ []) : m.respTimeout = m :=
  if_neg fun ⟨hphase, hfifo⟩ => h.elim (· hphase) (· hfifo)

/-- Settles O28: where a step is not enabled its operation answers the same MASTER. -/
theorem masterEventsNotEnabledWait : Obligations.MasterEventsNotEnabledWait := by
  refine fun s b => ⟨fun h => ?_, fun h => ?_, fun h => ?_⟩
  · rw [exec_mTick, master_tick_held h, State.setMaster_self]
  · rw [exec_mRespByte, Master.respByte_held h, State.setMaster_self]
  · rw [exec_mRespTimeout, master_respTimeout_held h, State.setMaster_self]

/-! The changed bit (R139). -/

/-- The record of Settings that are legal is in range, whatever the two bits beside them (R20, R77, R83). -/
theorem inRange_settingsEncode {v : Settings} (h : v.legal) (k c : BitVec 1) :
    InRange (Codec.settingsEncode k v c) := by
  obtain ⟨hmode, hfan⟩ := h
  have bound : ∀ {n : Nat} (x : BitVec n), x.toNat ≤ 2 ^ n - 1 := fun x => Nat.le_sub_one_of_lt x.isLt
  exact ⟨bound k, (Codec.legalMode_iff _).mp hmode, bound v.resistorHeating, bound v.running, bound c,
    bound v.roomTemperature, bound v.plasma, (Codec.legalFan_iff _).mp hfan, bound v.setTemperature, bound v.swivel,
    bound v.swirl⟩

/-- With a legal pending bank ENCODE takes the tick's record: the tick sends its layout (R97). -/
theorem master_tickFrame_of_legal {m : Master} (h : m.pending.legal) :
    m.tickFrame = .ok (Claims.sealed (Claims.layout
      (Codec.settingsEncode m.params.masterConfigBit m.pending (BitVec.ofBool m.changed)))) := by
  rw [Master.tickFrame, Master.toSend_eq_pending]
  exact encode_eq_ok_iff_inRange.mpr ⟨inRange_settingsEncode h _ _, rfl⟩

/-- Settles O24: the tick sends the layout of a legal record, whose bits are read back, and commits `m_pending`. -/
theorem changedBitIsSentOnExactlyOneTick : Obligations.ChangedBitIsSentOnExactlyOneTick := by
  intro s hphase htick ⟨_, hlegal⟩
  obtain ⟨⟨hconfig, -, -, -, -, hchanged⟩, -⟩ := layout_slices
    (inRange_settingsEncode hlegal s.master.params.masterConfigBit (BitVec.ofBool s.master.changed))
  rw [exec_mTick, master_tick_sends hphase htick (master_tickFrame_of_legal hlegal), Master.toSend_eq_pending]
  refine ⟨_, _, rfl, rfl, rfl, rfl, rfl, rfl, rfl, rfl, hconfig, ?_⟩
  rw [Claims.sealed, hchanged, ← Master.changed_eq_true]
  cases s.master.changed <;> simp [Codec.settingsEncode]

/-! Several edits (R101). -/

/-- An M_EDIT edits the field of its field id, or reports that the id has none, whatever the state. -/
theorem exec_isEdit {i : Instr} (h : Claims.IsEdit i) :
    (∃ fld v, ∀ s, exec i s = .next (s.setMaster (s.master.edit fld v))) ∨
    ∀ s, exec i s = .next (s.setMaster (s.master.rejectEdit .unknownAttribute)) := by
  obtain ⟨fid, v, hi⟩ := h
  have hexec : ∀ s, exec i s = exec (editInstr fid v) s := by
    obtain rfl | rfl := hi
    · exact fun _ => rfl
    · exact (exec_mEditUnknownFid · fid v)
  cases hfid : EditField.ofFid fid with
  | none => exact .inr fun s => by rw [hexec, exec_editInstr, hfid]
  | some fld => exact .inl ⟨fld, v, fun s => by rw [hexec, exec_editInstr, hfid]⟩

/-- No M_EDIT writes `m_last_sent` (R101). -/
theorem isEdit_lastSent {i : Instr} {s t : State} (h : Claims.IsEdit i) (hexec : exec i s = .next t) :
    t.master.lastSent = s.master.lastSent := by
  obtain ⟨fld, v, hi⟩ | hi := exec_isEdit h <;> cases (hi s).symm.trans hexec
  · obtain ⟨-, hedit⟩ | ⟨-, hedit⟩ := Master.edit_cases fld v s.master <;> simp [hedit]
  · rfl

/-- An edit that reports nothing re-based `m_pending` on `m_last_sent` (R101). -/
theorem edit_of_evt_eq {m : Master} {fld : EditField} {v : Byte} (h : (m.edit fld v).evt = m.evt) :
    m.edit fld v = { m with pending := m.lastSent.set fld v } ∧ fld.legalCode v = true := by
  obtain ⟨hcode, hedit⟩ | ⟨-, hedit⟩ := Master.edit_cases fld v m
  · exact ⟨hedit, hcode⟩
  · rw [hedit] at h; simp at h

/-- Settles O31: an accepted edit re-bases on `m_last_sent`, which no earlier edit moved. -/
theorem onlyTheLastEditSurvives : Obligations.OnlyTheLastEditSurvives := by
  intro s s1 t1 t2 i j hi hj hfirst hsecond halone hevt
  have hlast := isEdit_lastSent hi hfirst
  obtain ⟨fld, v, hexec⟩ | hexec := exec_isEdit hj <;> cases (hexec s1).symm.trans hsecond <;>
    cases (hexec s).symm.trans halone
  · obtain ⟨hedit, hcode⟩ := edit_of_evt_eq hevt
    rw [State.setMaster_master, State.setMaster_master, hedit, Master.edit, if_pos hcode, hlast]
  · simp [Master.rejectEdit] at hevt

/-- The code that a legal Settings value holds is a legal code of that field (R20, R71). -/
theorem legalCode_get {s : Settings} (h : s.legal) (fld : EditField) : fld.legalCode (s.get fld) = true := by
  obtain ⟨hmode, hfan⟩ := h
  have bound : ∀ {n : Nat} (x : BitVec n), n ≤ 8 → decide ((x.setWidth 8).toNat ≤ 2 ^ n - 1) = true := fun x hn =>
    decide_eq_true (BitVec.toNat_setWidth_of_le hn ▸ Nat.le_sub_one_of_lt x.isLt)
  cases fld with
  | mode => exact (congrArg Codec.legalMode (BitVec.toNat_setWidth_of_le (by decide))).trans hmode
  | fanSpeed => exact (congrArg Codec.legalFan (BitVec.toNat_setWidth_of_le (by decide))).trans hfan
  | roomTemperature => exact decide_eq_true (Nat.le_sub_one_of_lt s.roomTemperature.isLt)
  | resistorHeating => exact bound s.resistorHeating (by decide)
  | running => exact bound s.running (by decide)
  | plasma => exact bound s.plasma (by decide)
  | setTemperature => exact bound s.setTemperature (by decide)
  | swivel => exact bound s.swivel (by decide)
  | swirl => exact bound s.swirl (by decide)

/-- Replacing a field by its own code changes nothing. -/
theorem settings_set_get {s : Settings} (h : s.legal) (fld : EditField) : s.set fld (s.get fld) = s := by
  refine Settings.ext_get fun g => ?_
  by_cases hg : g = fld
  · rw [hg, Settings.get_set _ _ _ (legalCode_get h fld)]
  · exact Settings.get_set_of_ne _ _ hg

/-- Settles O32: the code is legal, and replacing the field by it gives `m_last_sent` itself. -/
theorem editToLastSentValueCancels : Obligations.EditToLastSentValueCancels := by
  intro s fid _ hlegal fld hfld
  refine ⟨s.setMaster (s.master.edit fld (s.master.lastSent.get fld)), by rw [exec_editInstr, hfld], ?_⟩
  rw [State.setMaster_master, Master.edit, if_pos (legalCode_get hlegal fld), settings_set_get hlegal fld]
  exact ⟨rfl, rfl⟩

end Sys2Proof.Proofs
end

section
/-!
The calls, RESET and the step (family other): what each call and each RESET answers, and the outcome of step for every
kind of input.
-/

namespace Sys2Proof.Proofs

open Sys2Proof.Machine

/-! Calls and RESET. -/

/-- Settles O11, by the value of each call. -/
theorem callsLeaveTheirValueInResult : Obligations.CallsLeaveTheirValueInResult :=
  fun s => ⟨exec_checksum s, exec_encode s, exec_decode s, exec_roomTempDecode s, exec_setTempDecode s,
    exec_roomTempEncode s, exec_setTempEncode s, exec_settingsEncode s, exec_fieldsToSettings s,
    exec_selectReplyRow1 s, exec_selectReplyRow2 s, exec_parseEditLine s⟩

/-- MASTER's configuration is legal exactly where the durations it stands for are (R7, R36). -/
theorem masterParams_legal_iff {c : MasterParams} {names : Nat → ℝ} {n x : ℝ} (hn : c.periodN.Denotes names n)
    (hx : c.rxTimeoutT.Denotes names x) : c.legal = true ↔ 2 ≤ n ∧ 0 < x := by
  rw [MasterParams.legal, Bool.and_eq_true, Seconds.atLeastTwo_iff hn, Seconds.positive_iff hx]

theorem exec_reset_master_of_legal {s : State} (hstarted : s.master.started = false)
    (hlegal : s.master.cfg.legal = true) :
    exec (.reset .master) s = .next (s.setMaster { s.master.doReset with started := false }) := by
  rw [exec_reset_master, if_neg (by simp [hstarted]), if_pos hlegal, Master.doReset, hstarted]

theorem exec_reset_replica_of_legal {s : State} (hstarted : s.replica.started = false)
    (hlegal : s.replica.cfg.legal = true) :
    exec (.reset .replica) s = .next (s.setReplica { s.replica.doReset with started := false }) := by
  rw [exec_reset_replica, if_neg (by simp [hstarted]), if_pos hlegal, Replica.doReset, hstarted]

/-- Settles O36: a configuration that stands for legal durations is legal, and any two durations are stood for. -/
theorem resetLeavesTheResetValues : Obligations.ResetLeavesTheResetValues := by
  refine ⟨fun s names x hstarted hx hpos => ?_, fun s names n x hstarted hn hx htwo hpos => ?_,
    fun n x htwo hpos => ?_⟩
  · rw [exec_reset_replica_of_legal hstarted ((Seconds.positive_iff hx).mpr hpos)]
    rfl
  · rw [exec_reset_master_of_legal hstarted ((masterParams_legal_iff hn hx).mpr ⟨htwo, hpos⟩)]
    rfl
  · obtain ⟨names, d, e, hd, he⟩ := Seconds.exists_denotes n x
    refine ⟨names, d, e, hd, he, fun s hstarted hperiod htimeout => ?_⟩
    rw [← hperiod] at hd
    rw [← htimeout] at he
    exact ⟨_, exec_reset_master_of_legal hstarted ((masterParams_legal_iff hd he).mpr ⟨htwo, hpos⟩), rfl⟩

/-- Settles O39: a configuration that stands for an illegal duration is not legal. -/
theorem resetRefusesIllegalConfigurations : Obligations.ResetRefusesIllegalConfigurations := by
  refine ⟨fun s names n x hstarted hn hx hillegal => ?_, fun s names x hstarted hx hillegal => ?_⟩
  · have hnot : ¬ s.master.cfg.legal = true := by
      rw [masterParams_legal_iff hn hx, not_and_or, not_le, not_lt]
      exact hillegal
    rw [exec_reset_master, if_neg (by simp [hstarted]), if_neg hnot]
  · have hnot : ¬ s.replica.cfg.legal = true := (Seconds.positive_iff hx).not.mpr hillegal.not_gt
    rw [exec_reset_replica, if_neg (by simp [hstarted]), if_neg hnot]

/-! The step (R70, R125). -/

/-- Where a step runs an instruction, its outcome is the instruction's, with the mark set on a next state. -/
theorem step_outcomes {s u : State} {i : Instr} (h : step s = afterInstr i (exec i u)) :
    (∀ t, exec i u = .next t → step s = .next (t.markStarted i.engine)) ∧
    (∀ f, exec i u = .fault f → step s = .fault f) ∧ (∀ r, exec i u = .refused r → step s = .refused r) :=
  ⟨fun t ht => by rw [h, ht]; rfl, fun f hf => by rw [h, hf]; rfl, fun r hr => by rw [h, hr]; rfl⟩

/-- The step of an input that fetches an instruction. -/
theorem step_of_fetch_run {s u : State} {inp : Input} {rest : List Input} {i : Instr} (hinputs : s.inputs = inp :: rest)
    (hfetch : fetch inp { s with inputs := rest } = .run i u) : step s = afterInstr i (exec i u) := by
  rw [step_cons hinputs, hfetch]
  rfl

/-- The step of an input that runs no instruction. -/
theorem step_of_fetch_quiet {s u : State} {inp : Input} {rest : List Input} (hinputs : s.inputs = inp :: rest)
    (hfetch : fetch inp { s with inputs := rest } = .quiet u) : step s = .next u := by
  rw [step_cons hinputs, hfetch]
  rfl

theorem step_of_fetch_refused {s : State} {inp : Input} {rest : List Input} {r : Refusal}
    (hinputs : s.inputs = inp :: rest) (hfetch : fetch inp { s with inputs := rest } = .refused r) :
    step s = .refused r := by
  rw [step_cons hinputs, hfetch]
  rfl

/-- The inputs still to come are not what an agent's word depends on. -/
theorem eventWord_withInputs (s : State) (a : Agent) (rest : List Input) :
    ({ s with inputs := rest } : State).eventWord? a = s.eventWord? a := by
  cases a <;> rfl

theorem port_withInputs (s : State) (a : Agent) (rest : List Input) :
    ({ s with inputs := rest } : State).port a = s.port a := by
  cases a <;> rfl

theorem handOver_withInputs (s : State) (a : Agent) (rest : List Input) :
    ({ s with inputs := rest } : State).handOver a =
      if a = .masterEdit then
        { s with inputs := rest, master := { s.master with editPort := s.master.editPort.tail } }
      else { s with inputs := rest } := by
  cases a <;> rfl

/-- Settles O45: the turn fetches what the word decodes to, in the state with the word handed over. -/
theorem stepRunsTheDecodedInstruction : Obligations.StepRunsTheDecodedInstruction := by
  intro s a rest w i hinputs hover hword hdecode
  rw [← handOver_withInputs]
  refine step_outcomes (step_of_fetch_run hinputs ?_)
  rw [← eventWord_withInputs s a rest] at hword
  rw [← port_withInputs s a rest] at hdecode
  have hturn : fetch (.turn a) { s with inputs := rest } = fetchWord a w { s with inputs := rest } :=
    fetchTurn_of_word (by simpa [Replica.overflowed] using hover) hword
  rw [hturn]
  exact fetchWord_eq_run.mpr ⟨hdecode, rfl⟩

/-! The other inputs. -/

theorem fetch_reset (e : Engine) (s : State) : fetch (.reset e) s = .run (.reset e) s := by
  cases e with
  | replica => exact (fetchWord_eq_run (a := .replica) (w := encodeEvent .reset)).mpr ⟨decodeAt_encodeEvent _ _, rfl⟩
  | master => exact (fetchWord_eq_run (a := .masterTick) (w := encodeEvent .reset)).mpr ⟨decodeAt_encodeEvent _ _, rfl⟩

theorem step_of_reset {s : State} {e : Engine} {rest : List Input} (hinputs : s.inputs = .reset e :: rest) :
    step s = afterInstr (.reset e) (exec (.reset e) { s with inputs := rest }) :=
  step_of_fetch_run hinputs (fetch_reset e _)

/-- An input that is a RESET faults in no state: no RESET does. -/
theorem step_ne_fault_of_reset {s : State} {e : Engine} {rest : List Input} (hinputs : s.inputs = .reset e :: rest)
    (f : Fault) : step s ≠ .fault f := by
  intro h
  rw [step_of_reset hinputs] at h
  cases hexec : exec (.reset e) { s with inputs := rest } with
  | fault g => obtain hi | ⟨b, hi⟩ := instr_of_exec_fault hexec <;> cases hi
  | next t => rw [hexec] at h; cases h
  | refused r => rw [hexec] at h; cases h

/-- A word offered to an agent, decoded at its port, in the state with the input taken. -/
theorem step_of_event_run {s u : State} {a : Agent} {w : EventWord} {rest : List Input} {i : Instr}
    (hinputs : s.inputs = .event a w :: rest) (hdecode : decodeAt (s.port a) w = .instr i)
    (htake : ({ s with inputs := rest } : State).takeOffered i w = some u) : step s = afterInstr i (exec i u) :=
  step_of_fetch_run hinputs (offerWord_eq_run.mpr ⟨by rwa [port_withInputs], htake⟩)

theorem encodeEvent_injective : Function.Injective encodeEvent := by
  intro e e' h
  have hdecode := decodeEvent_encodeEvent e
  rw [h, decodeEvent_encodeEvent] at hdecode
  exact (Except.ok.inj hdecode).symm

/-- At MASTER.EDIT's port the word F000 selects RESET, every other word an instruction of that port (log entry 34). -/
theorem port_of_decodeAt_edit {w : EventWord} {i : Instr} (hdecode : decodeAt .edit w = .instr i) :
    i.port = some .edit ↔ w ≠ 0xF000#16 := by
  obtain ⟨e, rfl, hstep⟩ := decodeAt_eq_instr.mp hdecode
  constructor
  · intro hport hw
    obtain rfl : e = .reset := encodeEvent_injective hw
    cases hstep
    cases hport
  · intro hw
    cases e with
    | edit fid v => cases hstep; exact (editInstr_fid fid v).2
    | editReject r => cases hstep; cases r <;> rfl
    | reset => exact absurd rfl hw
    | _ => cases hstep

/-- Only MASTER.EDIT's own words, and of them not F000, select an instruction of the EDIT port. -/
theorem port_ne_edit_of_decodeAt {s : State} {a : Agent} {w : EventWord} {i : Instr}
    (hdecode : decodeAt (s.port a) w = .instr i) (h : a ≠ .masterEdit ∨ w = 0xF000#16) : i.port ≠ some .edit := by
  cases a with
  | replica => exact decodeAt_not_edit (by simp [State.port]) hdecode
  | masterTick => exact decodeAt_not_edit (by simp [State.port]) hdecode
  | masterEdit =>
    have hw : w = 0xF000#16 := h.resolve_left (by simp)
    exact (port_of_decodeAt_edit hdecode).not.mpr (not_not.mpr hw)

theorem step_of_call {s : State} {i : Instr} {rest : List Input} (hinputs : s.inputs = .call i :: rest)
    (hcall : i.isCall = true) : step s = exec i { s with inputs := rest } := by
  have hengine : i.engine = none := by cases i <;> cases hcall <;> rfl
  rw [step_of_fetch_run hinputs (if_pos hcall)]
  cases exec i { s with inputs := rest } with
  | next t => rw [afterInstr, hengine, State.markStarted_none]
  | fault f => rfl
  | refused r => rfl

/-- Settles O46: each act by its input; an offered word by what it decodes to and whether it heads the EDIT port. -/
theorem stepTakesTheEnvironmentsActs : Obligations.StepTakesTheEnvironmentsActs := by
  intro s rest
  refine ⟨fun b h => step_of_fetch_quiet h rfl, fun b h => step_of_fetch_quiet h rfl,
    fun h => step_of_fetch_quiet h rfl, fun l h => step_of_fetch_quiet h rfl, fun w h => step_of_fetch_quiet h rfl,
    fun c h => step_of_fetch_quiet h rfl, fun c h => step_of_fetch_quiet h rfl, fun e h => ?_,
    fun a w h => ⟨fun i hdecode hword => ?_, fun i hdecode ha hw => ⟨fun ws t hport ht => ?_, fun hhead => ?_⟩,
      fun hwaits => ?_, fun r hrejected => ?_⟩,
    fun i h => ⟨step_of_call h, fun hcall => step_of_fetch_refused h (if_neg (by simp [hcall]))⟩⟩
  · obtain ⟨hnext, -, hrefused⟩ := step_outcomes (step_of_reset h)
    exact ⟨hnext, hrefused, step_ne_fault_of_reset h⟩
  · exact step_outcomes (step_of_event_run h hdecode
      (State.takeOffered_of_not_edit (port_ne_edit_of_decodeAt hdecode hword)))
  · subst ha
    have hedit := (port_of_decodeAt_edit hdecode).mpr hw
    have hstate : ({ s with inputs := rest } : State).handOver .masterEdit =
        { s with inputs := rest, master := { s.master with editPort := ws } } := by
      rw [handOver_withInputs, if_pos rfl, hport]; rfl
    have hstep := step_of_event_run h hdecode (State.takeOffered_of_head hedit (by rw [hport]; rfl))
    rw [hstate] at hstep
    rw [← decodeAt_edit_engine hdecode]
    exact (step_outcomes hstep).1 t ht
  · subst ha
    have hedit := (port_of_decodeAt_edit hdecode).mpr hw
    exact step_of_fetch_quiet h
      (offerWord_eq_quiet.mpr ⟨.inr ⟨i, hdecode, State.takeOffered_of_not_head hedit hhead⟩, rfl⟩)
  · exact step_of_fetch_quiet h (offerWord_eq_quiet.mpr ⟨.inl (by rwa [port_withInputs]), rfl⟩)
  · exact step_of_fetch_refused h (offerWord_eq_refused.mpr ⟨r, by rwa [port_withInputs], rfl⟩)

end Sys2Proof.Proofs
end

section
/-!
Several steps (family other): the intake of a frame, the read of a response, the wait in ECHO, and a run without an
edit.
-/

namespace Sys2Proof.Proofs

open Sys2Proof.Machine

theorem run_succ_eq_next {s t : State} {k : Nat} :
    run (k + 1) s = .next t ↔ ∃ u, step s = .next u ∧ run k u = .next t := by
  rw [run]
  cases step s <;> simp

/-- The step of a turn that runs an instruction which answers a next state. -/
theorem step_of_turn {s u v : State} {a : Agent} {rest : List Input} {i : Instr} (hinputs : s.inputs = .turn a :: rest)
    (hfetch : fetch (.turn a) { s with inputs := rest } = .run i u) (hexec : exec i u = .next v) :
    step s = .next (v.markStarted i.engine) :=
  (step_outcomes (step_of_fetch_run hinputs hfetch)).1 v hexec

/-! The intake of a frame (R88). -/

theorem fetch_turn_rRxByte {s : State} {b : Byte} {fifo : List Byte} (hphase : s.replica.phase = .intake)
    (hlen : s.replica.buf.length < 6) (hfifo : s.replica.rxFifo = b :: fifo) :
    fetch (.turn .replica) s = .run (.rRxByte b) s :=
  fetch_turn_replica_of_intake hphase hlen (by rw [hfifo]; rfl)

/-- A turn in INTAKE with fewer than 5 bytes takes one more. -/
theorem step_intake_append {s : State} {b : Byte} {fifo : List Byte} {rest : List Input}
    (hinputs : s.inputs = .turn .replica :: rest) (hphase : s.replica.phase = .intake)
    (hfifo : s.replica.rxFifo = b :: fifo) (hlen : s.replica.buf.length < 5) :
    step s = .next { s with inputs := rest, replica := { s.replica with
      buf := s.replica.buf ++ [b], rxFifo := fifo, started := true } } := by
  rw [step_of_turn hinputs (fetch_turn_rRxByte (by exact hphase) (by exact hlen.trans (by decide)) (by exact hfifo))
    (exec_rRxByte _ b), replica_rxByte_append (by exact hphase) (by exact hfifo) (by exact hlen)]
  rfl

/-- A turn in INTAKE with 5 bytes takes the last byte of the frame. -/
theorem step_intake_complete {s : State} {b : Byte} {fifo : List Byte} {rest : List Input} {f : Frame}
    (hinputs : s.inputs = .turn .replica :: rest) (hphase : s.replica.phase = .intake)
    (hfifo : s.replica.rxFifo = b :: fifo) (hbuf : s.replica.buf ++ [b] = f.toBytes) :
    step s = .next { s with inputs := rest, replica := { s.replica with
      buf := [], rxFifo := fifo, frame := some f, phase := .process, started := true } } := by
  have hsplit : s.replica.buf ++ [b] = f.payload.toBytes ++ [f.checksum] := hbuf
  obtain ⟨hfive, hlast⟩ := List.append_inj' hsplit rfl
  obtain rfl := List.singleton_inj.mp hlast
  rw [step_of_turn hinputs (fetch_turn_rRxByte (by exact hphase) (by simp [hfive, Payload.toBytes]) (by exact hfifo))
    (exec_rRxByte _ f.checksum), replica_rxByte_complete (by exact hphase) (by exact hfifo) hfive]
  rfl

/-- The bytes before the last are taken one turn each; the last completes the frame. -/
theorem run_intake {f : Frame} {b : Byte} {fifo : List Byte} {rest : List Input} (bytes : List Byte) (s : State)
    (hphase : s.replica.phase = .intake) (hbuf : s.replica.buf ++ (bytes ++ [b]) = f.toBytes)
    (hfifo : s.replica.rxFifo = bytes ++ [b] ++ fifo)
    (hinputs : s.inputs = List.replicate (bytes.length + 1) (.turn .replica) ++ rest) :
    run (bytes.length + 1) s = .next { s with inputs := rest, replica := { s.replica with
      buf := [], rxFifo := fifo, frame := some f, phase := .process, started := true } } := by
  induction bytes generalizing s with
  | nil => exact run_succ 0 (step_intake_complete hinputs hphase hfifo hbuf)
  | cons c bytes ih =>
    have hlen : s.replica.buf.length < 5 := by
      have := congrArg List.length hbuf
      simp [Frame.toBytes] at this
      omega
    refine (run_succ _ (step_intake_append hinputs hphase hfifo hlen)).trans (ih _ hphase ?_ rfl rfl)
    simpa using hbuf

/-- Settles O58: the last of the six bytes completes the frame, from an empty buffer. -/
theorem sixIntakeTurnsCollectAFrame : Obligations.SixIntakeTurnsCollectAFrame := by
  intro s f fifo rest hphase hbuf hfifo hinputs
  have hrun := run_intake (f := f) (b := f.checksum) f.payload.toBytes s hphase (by rw [hbuf]; rfl) hfifo hinputs
  rw [← hbuf] at hrun
  exact hrun

/-! The response read (R98). -/

theorem fetch_turn_mRespByte {s : State} {b : Byte} {fifo : List Byte} (hphase : s.master.phase = .resp)
    (hfifo : s.master.rxFifo = b :: fifo) : fetch (.turn .masterTick) s = .run (.mRespByte b) s :=
  fetch_turn_masterTick_of_resp hphase (by rw [hfifo]; rfl)

/-- A turn in RESP with fewer than 11 bytes takes one more. -/
theorem step_resp_append {s : State} {b : Byte} {fifo : List Byte} {rest : List Input}
    (hinputs : s.inputs = .turn .masterTick :: rest) (hphase : s.master.phase = .resp)
    (hfifo : s.master.rxFifo = b :: fifo) (hlen : s.master.resp.length ≠ 11) :
    step s = .next { s with inputs := rest, master := { s.master with
      resp := s.master.resp ++ [b], rxFifo := fifo, started := true } } := by
  rw [step_of_turn hinputs (fetch_turn_mRespByte (by exact hphase) (by exact hfifo)) (exec_mRespByte _ b),
    master_respByte_append (by exact hphase) (by exact hfifo) (by exact hlen)]
  rfl

/-- A turn in RESP with 11 bytes surfaces all twelve. -/
theorem step_resp_complete {s : State} {b : Byte} {fifo : List Byte} {rest : List Input}
    (hinputs : s.inputs = .turn .masterTick :: rest) (hphase : s.master.phase = .resp)
    (hfifo : s.master.rxFifo = b :: fifo) (hlen : s.master.resp.length = 11) :
    step s = .next { s with inputs := rest, master := { s.master with
      evt := s.master.evt ++ [.response (s.master.resp ++ [b])], resp := [], rxFifo := fifo, phase := .idle,
      started := true } } := by
  rw [step_of_turn hinputs (fetch_turn_mRespByte (by exact hphase) (by exact hfifo)) (exec_mRespByte _ b),
    master_respByte_complete (by exact hphase) (by exact hfifo) (by exact hlen)]
  rfl

/-- The bytes before the last are taken one turn each; the last surfaces them with it. -/
theorem run_resp {b : Byte} {fifo : List Byte} {rest : List Input} (bytes : List Byte) (s : State)
    (hphase : s.master.phase = .resp) (hlen : s.master.resp.length + bytes.length = 11)
    (hfifo : s.master.rxFifo = bytes ++ [b] ++ fifo)
    (hinputs : s.inputs = List.replicate (bytes.length + 1) (.turn .masterTick) ++ rest) :
    run (bytes.length + 1) s = .next { s with inputs := rest, master := { s.master with
      evt := s.master.evt ++ [.response (s.master.resp ++ (bytes ++ [b]))], resp := [], rxFifo := fifo,
      phase := .idle, started := true } } := by
  induction bytes generalizing s with
  | nil => exact run_succ 0 (step_resp_complete hinputs hphase hfifo hlen)
  | cons c bytes ih =>
    rw [List.length_cons] at hlen
    have hassoc : s.master.resp ++ (c :: bytes ++ [b]) = s.master.resp ++ [c] ++ (bytes ++ [b]) := List.append_cons ..
    rw [hassoc]
    refine (run_succ _ (step_resp_append hinputs hphase hfifo (by omega))).trans (ih _ hphase ?_ rfl rfl)
    simp
    omega

/-- Settles O59: the last of the twelve bytes surfaces all of them, from an empty response. -/
theorem twelveResponseTurnsSurfaceTheBytes : Obligations.TwelveResponseTurnsSurfaceTheBytes := by
  intro s bytes fifo rest hphase hresp hlen hfifo hinputs
  obtain rfl | ⟨init, b, rfl⟩ := List.eq_nil_or_concat bytes
  · cases hlen
  · have hinit : init.length = 11 := by simpa using hlen
    have hrun := run_resp init s hphase (by rw [hresp, hinit]; rfl) (by simpa using hfifo)
      (by rw [hinit]; exact hinputs)
    simpa [hresp, hinit] using hrun

/-! The wait in ECHO (R94). -/

/-- A turn in ECHO with an empty FIFO, in a started run, changes nothing but that it is taken. -/
theorem step_echo_wait {s : State} {rest : List Input} (hinputs : s.inputs = .turn .replica :: rest)
    (hphase : s.replica.phase = .echo) (hfifo : s.replica.rxFifo = []) (hstarted : s.replica.started = true) :
    step s = .next { s with inputs := rest } := by
  obtain ⟨hexec, hfetch⟩ := echoTimeoutChangesNothing.1 { s with inputs := rest } hphase hfifo
  rw [step_of_turn hinputs hfetch hexec]
  simp only [Instr.engine, State.markStarted_replica, ← hstarted]
  rfl

/-- Settles O60, by induction on the number of turns. -/
theorem echoWaitDoesNotTimeOut : Obligations.EchoWaitDoesNotTimeOut := by
  intro n
  induction n with
  | zero =>
    intro s rest _ _ _ hinputs
    have hrest : s.inputs = rest := hinputs
    rw [run_zero, ← hrest]
  | succ n ih =>
    intro s rest hphase hfifo hstarted hinputs
    rw [run_succ n (step_echo_wait hinputs hphase hfifo hstarted)]
    exact ih _ rest hphase hfifo hstarted rfl

/-! A run without an edit (R38, R97). -/

/-- The tick on banks at SETTINGS_DEFAULT, with MASTER_CONFIG_BIT 0, sends the keep-alive frame (R22, R97). -/
theorem tickFrame_of_defaults {m : Master} (hlast : m.lastSent = Claims.defaults)
    (hpending : m.pending = Claims.defaults) (hbit : m.params.masterConfigBit = 0#1) : m.tickFrame = .ok Claims.defaultKeepAlive := by
  have hchanged : m.changed = false := Master.changed_eq_false.mpr (hpending.trans hlast.symm)
  rw [Master.tickFrame, Master.toSend_eq_pending, hchanged, hpending, hbit]
  decide

/-- A started MASTER without an edit since RESET: both banks at their defaults, and only keep-alive frames sent after
those in `base`. -/
def KeepAliveRun (base : List Frame) (m : Master) : Prop :=
  m.started = true ∧ m.lastSent = Claims.defaults ∧ m.pending = Claims.defaults ∧ m.params.masterConfigBit = 0#1 ∧
  ∃ sent, m.tx = base ++ sent ∧ ∀ f ∈ sent, f = Claims.defaultKeepAlive

section
variable {base : List Frame}

theorem masterEffect_keepAlive {i : Instr} {m m' : Master} (h : MasterEffect i m m') (hport : i.port ≠ some .edit)
    (hm : KeepAliveRun base m) : KeepAliveRun base m' := by
  have hkept := masterEffect_kept h
  obtain ⟨hstarted, hlast, hpending, hbit, sent, htx, hsent⟩ := hm
  refine ⟨hkept.started.trans hstarted, ?_, ?_, by rw [hkept.params, hbit], ?_⟩
  · obtain hsame | ⟨-, hcommit⟩ := masterEffect_lastSent h
    · exact hsame.trans hlast
    · exact hcommit.trans hpending
  · obtain hsame | ⟨fid, v, fld, hevent, -⟩ := masterEffect_pending h
    · exact hsame.trans hpending
    · exact absurd (edit_of_event hevent).2 hport
  · obtain hsame | ⟨-, -, f, hf, happend, -⟩ := hkept.tx
    · exact ⟨sent, hsame.trans htx, hsent⟩
    · cases hf.symm.trans (tickFrame_of_defaults hlast hpending hbit)
      refine ⟨sent ++ [Claims.defaultKeepAlive], by rw [happend, htx, List.append_assoc], ?_⟩
      simpa [or_imp, forall_and] using hsent

theorem exec_keepAlive {i : Instr} {s t : State} (hexec : exec i s = .next t) (hport : i.port ≠ some .edit)
    (hm : KeepAliveRun base s.master) : KeepAliveRun base t.master := by
  obtain ⟨-, -, c, rfl⟩ | ⟨-, -, r, rfl, -⟩ | ⟨-, -, m, rfl, heffect⟩ | ⟨-, rfl | ⟨-, -, rfl⟩⟩ |
    ⟨-, rfl | ⟨hnot, -⟩⟩ := exec_eq_next hexec
  · exact hm
  · exact hm
  · exact masterEffect_keepAlive heffect hport hm
  · exact hm
  · exact hm
  · exact hm
  · simp [hm.left] at hnot

theorem markStarted_keepAlive {s : State} (e : Option Engine) (hm : KeepAliveRun base s.master) :
    KeepAliveRun base (s.markStarted e).master := by
  match e with
  | none => exact hm
  | some .replica => exact hm
  | some .master => exact ⟨rfl, hm.right⟩

theorem markStarted_inputs (s : State) (e : Option Engine) : (s.markStarted e).inputs = s.inputs := by
  match e with
  | none => rfl
  | some .replica => rfl
  | some .master => rfl

/-- Only MASTER.EDIT's turn, or a word offered to it, runs an instruction of the EDIT port. -/
theorem offersEdit_of_fetch {inp : Input} {s u : State} {i : Instr} (h : fetch inp s = .run i u)
    (hport : i.port = some .edit) : Claims.OffersEdit inp := by
  have other : ∀ {a w}, a ≠ .masterEdit → decodeAt (s.port a) w = .instr i → False := fun ha hdecode =>
    port_ne_edit_of_decodeAt hdecode (.inl ha) hport
  cases inp with
  | turn a =>
    obtain ⟨rfl, -⟩ | ⟨w, -, hdecode, -⟩ := fetchTurn_eq_run h
    · cases hport
    · exact .inl (congrArg Input.turn (of_not_not fun ha => other ha hdecode))
  | event a w =>
    have hdecode := (offerWord_eq_run.mp h).1
    exact .inr ⟨w, congrArg (Input.event · w) (of_not_not fun ha => other ha hdecode)⟩
  | reset e =>
    cases e <;> rw [fetch_reset] at h <;> cases h <;> cases hport
  | call j =>
    rw [fetch] at h
    split_ifs at h with hcall
    cases h
    cases i <;> cases hcall <;> cases hport
  | _ => cases h

/-- A step keeps the run free of edits, where its input offers none, and leaves the inputs after it. -/
theorem step_keepAlive {s t : State} (hm : KeepAliveRun base s.master) (hno : ∀ inp ∈ s.inputs, ¬ Claims.OffersEdit inp)
    (hstep : step s = .next t) : KeepAliveRun base t.master ∧ ∀ inp ∈ t.inputs, ¬ Claims.OffersEdit inp := by
  obtain ⟨-, rfl⟩ | ⟨inp, rest, hinputs, hcase⟩ := step_eq_next.mp hstep
  · exact ⟨hm, hno⟩
  rw [hinputs, List.forall_mem_cons] at hno
  obtain ⟨hinp, hrest⟩ := hno
  obtain ⟨i, u, v, hfetch, hexec, rfl⟩ | hquiet := hcase
  · have hu : KeepAliveRun base u.master ∧ u.inputs = rest := by
      obtain rfl | rfl := fetch_eq_run_state hfetch <;> exact ⟨hm, rfl⟩
    obtain ⟨-, -, -, hkept⟩ := instructionsLeaveTheOtherEngine i u v hexec
    refine ⟨markStarted_keepAlive _ (exec_keepAlive hexec (mt (offersEdit_of_fetch hfetch) hinp) hu.1), ?_⟩
    rwa [markStarted_inputs, hkept, hu.2]
  · obtain rfl | ⟨_ | _, b, rfl⟩ | rfl | ⟨w, rfl⟩ | ⟨c, rfl⟩ | ⟨c, rfl⟩ := fetch_eq_quiet hquiet <;>
      exact ⟨hm, hrest⟩

theorem run_keepAlive {n : Nat} {s t : State} (hm : KeepAliveRun base s.master)
    (hno : ∀ inp ∈ s.inputs, ¬ Claims.OffersEdit inp) (hrun : run n s = .next t) : KeepAliveRun base t.master := by
  induction n generalizing s with
  | zero => cases hrun; exact hm
  | succ n ih =>
    obtain ⟨u, hstep, hrun⟩ := run_succ_eq_next.mp hrun
    obtain ⟨hu, hnext⟩ := step_keepAlive hm hno hstep
    exact ih hu hnext hrun

end

/-- The first RESET of MASTER starts a run without an edit. -/
theorem keepAliveRun_of_reset {s u : State} {rest : List Input} (hinputs : s.inputs = .reset .master :: rest)
    (hstarted : s.master.started = false) (hbit : s.master.cfg.masterConfigBit = 0#1) (hstep : step s = .next u) :
    KeepAliveRun s.master.tx u.master ∧ u.inputs = rest := by
  rw [step_of_reset hinputs, afterInstr_eq_next] at hstep
  obtain ⟨v, hexec, rfl⟩ := hstep
  rw [exec_reset_master, if_neg (by simp [hstarted])] at hexec
  split_ifs at hexec
  cases hexec
  exact ⟨⟨rfl, settingsDefault_eq_defaults, settingsDefault_eq_defaults, hbit, [], (List.append_nil _).symm, nofun⟩,
    rfl⟩

/-- Settles O23: RESET starts a run that stays free of edits, in which every tick sends the keep-alive frame. -/
theorem firstFrameIsTheDefaultKeepAlive : Obligations.FirstFrameIsTheDefaultKeepAlive := by
  refine ⟨fun n s t rest hstarted hbit hinputs hno hrun => ?_, fun s hphase htick hlast hpending hbit => ?_⟩
  · cases n with
    | zero => cases hrun; exact ⟨[], by simp, nofun⟩
    | succ n =>
      obtain ⟨u, hstep, hrun⟩ := run_succ_eq_next.mp hrun
      obtain ⟨hu, rfl⟩ := keepAliveRun_of_reset hinputs hstarted hbit hstep
      obtain ⟨-, -, -, -, hsent⟩ := run_keepAlive hu hno hrun
      exact hsent
  · refine ⟨_, exec_mTick s, ?_⟩
    rw [State.setMaster_master, master_tick_sends hphase htick (tickFrame_of_defaults hlast hpending hbit)]

end Sys2Proof.Proofs
end

section
/-!
PARSE_EDIT_LINE (family other): the word of a line, by its first `=`, by the name before it and by the code of the value
after it.
-/

namespace Sys2Proof.Proofs

open Sys2Proof.Parser

/-! The value codes (R105, R106). -/

theorem parseBool_eq_boolCode (v : Text) : parseBool v = Claims.boolCode v := by
  rw [parseBool, Claims.boolCode, lower]
  exact if_congr List.contains_iff_mem rfl rfl

/-- One round of the search through the codes of R106. -/
theorem lookup_cons_eq_ite (u k : Text) (c : Byte) (codes : List (Text × Byte)) :
    ((k, c) :: codes).lookup u = if u = k then some c else codes.lookup u := by
  rw [List.lookup_cons]
  by_cases h : u = k
  · simp [h]
  · simp [h, beq_eq_false_iff_ne.mpr h]

theorem parseEnum_modeCodes (v : Text) : parseEnum modeCodes v = Claims.modeCode v := by
  rw [parseEnum, modeCodes]
  simp only [lookup_cons_eq_ite, List.lookup_nil]
  rfl

theorem parseEnum_fanCodes (v : Text) : parseEnum fanCodes v = Claims.fanCode v := by
  rw [parseEnum, fanCodes]
  simp only [lookup_cons_eq_ite, List.lookup_nil]
  rfl

/-- The value code of a field is the one of its number (R103). -/
theorem valueCode_eq_codeOf (fld : EditField) (v : Text) : valueCode fld v = Claims.codeOf fld.fid.toNat v := by
  cases fld with
  | mode => exact parseEnum_modeCodes v
  | fanSpeed => exact parseEnum_fanCodes v
  | roomTemperature => rfl
  | setTemperature => rfl
  | resistorHeating => exact congrArg some (parseBool_eq_boolCode v)
  | running => exact congrArg some (parseBool_eq_boolCode v)
  | plasma => exact congrArg some (parseBool_eq_boolCode v)
  | swivel => exact congrArg some (parseBool_eq_boolCode v)
  | swirl => exact congrArg some (parseBool_eq_boolCode v)

/-! The names (R104). -/

theorem attributeName_mem (fld : EditField) : ∃ name ∈ Claims.attributeNames, attributeName fld = name.toList := by
  cases fld <;> decide

/-- The field with number `n`, and its name (R71, R104). -/
theorem exists_attribute {n : Nat} (h : n < Claims.attributeNames.length) :
    ∃ fld : EditField, fld.fid.toNat = n ∧ attributeName fld = Claims.attributeNames[n].toList :=
  match n, h with
  | 0, _ => ⟨.mode, rfl, rfl⟩
  | 1, _ => ⟨.resistorHeating, rfl, rfl⟩
  | 2, _ => ⟨.running, rfl, rfl⟩
  | 3, _ => ⟨.roomTemperature, rfl, rfl⟩
  | 4, _ => ⟨.plasma, rfl, rfl⟩
  | 5, _ => ⟨.fanSpeed, rfl, rfl⟩
  | 6, _ => ⟨.setTemperature, rfl, rfl⟩
  | 7, _ => ⟨.swivel, rfl, rfl⟩
  | 8, _ => ⟨.swirl, rfl, rfl⟩

/-! The word of a line (R103). -/

section
variable {l a v : Text}

theorem lineEvent_of_no_equals (h : '=' ∉ strip l) : lineEvent l = .editReject .noEquals := by
  rw [lineEvent, splitAtEquals_eq_none h]

theorem lineEvent_of_unknown (hl : strip l = a ++ '=' :: v) (ha : '=' ∉ a) (hname : attributeId a = none) :
    lineEvent l = .editReject .unknownAttribute := by
  simp only [lineEvent, hl, splitAtEquals_append ha, hname]

theorem lineEvent_of_attribute {fld : EditField} (hl : strip l = a ++ '=' :: v) (ha : '=' ∉ a)
    (hname : attributeId a = some fld) :
    encodeEvent (lineEvent l) = Claims.wordOf fld.fid.toNat (valueCode fld v) := by
  simp only [lineEvent, hl, splitAtEquals_append ha, hname]
  cases valueCode fld v with
  | none => rfl
  | some c => exact encodeEvent_edit fld.fid c

end

/-- Settles O33: stripping leaves the trimmed text; then by the first `=`, the name, and the code of the value. -/
theorem parseEditLineGivesOneWord : Obligations.ParseEditLineGivesOneWord := by
  intro p t q hp hq ⟨hhead, hlast⟩
  have hstrip : strip (p ++ t ++ q) = t := strip_append hp hq hhead hlast
  refine ⟨fun ht => ?_, fun a v ht ha => ⟨fun hunknown => ?_, fun n hn hname => ?_⟩⟩
  · rw [parseEditLine, lineEvent_of_no_equals (by rwa [hstrip])]
    rfl
  · have hnone : attributeId a = none := attributeId_eq_none.mpr fun fld h => by
      obtain ⟨name, hmem, hfld⟩ := attributeName_mem fld
      exact hunknown name hmem (h.trans hfld)
    rw [parseEditLine, lineEvent_of_unknown (hstrip.trans ht) ha hnone]
    rfl
  · obtain ⟨fld, rfl, hfld⟩ := exists_attribute hn
    rw [parseEditLine, lineEvent_of_attribute (hstrip.trans ht) ha (attributeId_eq_some.mpr (hname.trans hfld.symm)),
      valueCode_eq_codeOf]

end Sys2Proof.Proofs
end
